-- ==== Sys2Proof/Word.lean ====
section
/-! DEFINITION. The unsigned words of the spec (R11): u8, u32, u40 and u64. The block has no signed, floating-point or
packed arithmetic. -/

namespace Sys2Proof

/-- u8 (R11). -/
abbrev U8 := BitVec 8

/-- u32 (R11): a register, a LUT word, a field of an input record. -/
abbrev U32 := BitVec 32

/-- u40 (R11): the significant bits of the LUT checksum (R63). -/
abbrev U40 := BitVec 40

/-- u64 (R11): an action mask, a LUT slot, a returned checksum. -/
abbrev U64 := BitVec 64

end Sys2Proof
end

