-- ==== Sys2Proof/Syntax.lean ====
section
/-! DEFINITION. The input parameter records (R31) and the seven commands (R141, R321), one constructor per row of the
opcode table. A record's fields are the raw codes of the spec: nothing here says that a code is legal. -/

namespace Sys2Proof

/-- An application callback (R31, R41), known only by a name. -/
abbrev CallbackId := Nat

/-- One action of an event (R31). -/
structure Action where
  outputSignal : U32
  newState : U32
  deriving DecidableEq, Repr

/-- One timed event (R31): `none` is a NULL actions pointer (R15). -/
structure Event where
  absTime : U32
  actions : Option (List Action)
  deriving DecidableEq, Repr

/-- A time table (R31): `none` is a NULL events pointer. -/
structure TimeTable where
  length : U8
  execTimeLimit : U32
  events : Option (List Event)
  deriving DecidableEq, Repr

/-- One signal definition (R31). -/
structure SigDef where
  outputSignal : U32
  signalType : U32
  clockPeriod : U32
  deriving DecidableEq, Repr

/-- The argument of SETUP (R31). -/
structure InitParams where
  workingMode : U32
  csi2Unit : U32
  csi2Vc : U32
  rfsSource : U32
  rcsSource : U32
  slaveDelay : U32
  clockFreq : U32
  repeatCount : U32
  table0 : Option TimeTable
  table1 : Option TimeTable
  sigDef0 : Option (List SigDef)
  sigDef1 : Option (List SigDef)
  irqEvents : U32
  callback : Option CallbackId
  deriving DecidableEq, Repr

/-- The argument of UPDATE_TABLES (R31). -/
structure UpdateParams where
  table0 : Option TimeTable
  table1 : Option TimeTable
  deriving DecidableEq, Repr

/-- The seven commands (R141, R321), each with the record it takes. -/
inductive Instr where
  | setup (p : InitParams)
  | start
  | stop
  | restart
  | rfsGenerate
  | updateTables (u : UpdateParams)
  | getLutChecksum
  deriving DecidableEq, Repr

/-- What the command port presents (R140): the 32-bit command word, and the parameter records beside it. A command that
takes no record, or the other one, does not read it. -/
structure Command where
  word : U32
  init : InitParams
  update : UpdateParams
  deriving DecidableEq, Repr

/-- The record of zeros: every code 0, every pointer NULL. -/
def InitParams.zero : InitParams :=
  { workingMode := 0, csi2Unit := 0, csi2Vc := 0, rfsSource := 0, rcsSource := 0, slaveDelay := 0, clockFreq := 0,
    repeatCount := 0, table0 := none, table1 := none, sigDef0 := none, sigDef1 := none, irqEvents := 0, callback := none }

/-- The record of zeros: both pointers NULL. -/
def UpdateParams.zero : UpdateParams := { table0 := none, table1 := none }

end Sys2Proof
end

