-- ==== Sys2Proof/Decode.lean ====
section
/-! DEFINITION. The command word (R140–R143): the decoder, total on every 32-bit word and rejecting by name, and the
encoder after it. -/

namespace Sys2Proof

/-- Why a word is no command (R142). -/
inductive DecodeError where
  /-- Bits 31:4 are not all 0: the word is illegal. -/
  | reservedBits (bits : BitVec 28)
  /-- Opcode 0x0 or 0x8..0xF: reserved. -/
  | reservedOpcode (op : BitVec 4)
  deriving DecidableEq, Repr

/-- OP, bits 3:0 of a command word (R140). -/
def opField (w : U32) : BitVec 4 := w.extractLsb' 0 4

/-- The reserved bits 31:4 of a command word (R140). -/
def reservedField (w : U32) : BitVec 28 := w.extractLsb' 4 28

/-- Reads the command at the port (R141, R142): bits 31:4 first, then the opcode map. The operand record goes with it. -/
def decode (c : Command) : Except DecodeError Instr :=
  if reservedField c.word ≠ 0 then .error (.reservedBits (reservedField c.word))
  else
    match (opField c.word).toNat with
    | 1 => .ok (.setup c.init)
    | 2 => .ok .start
    | 3 => .ok .stop
    | 4 => .ok .restart
    | 5 => .ok .rfsGenerate
    | 6 => .ok (.updateTables c.update)
    | 7 => .ok .getLutChecksum
    | _ => .error (.reservedOpcode (opField c.word))

/-- The command word of each command (R141: "The command word of opcode OP is exactly OP"). -/
def Instr.word : Instr → U32
  | .setup _ => 0x00000001#32
  | .start => 0x00000002#32
  | .stop => 0x00000003#32
  | .restart => 0x00000004#32
  | .rfsGenerate => 0x00000005#32
  | .updateTables _ => 0x00000006#32
  | .getLutChecksum => 0x00000007#32

/-- The command port's contents for a command: its word, and its record in the record's place. -/
def encode : Instr → Command
  | .setup p => { word := (Instr.setup p).word, init := p, update := UpdateParams.zero }
  | .updateTables u => { word := (Instr.updateTables u).word, init := InitParams.zero, update := u }
  | .start => { word := Instr.start.word, init := InitParams.zero, update := UpdateParams.zero }
  | .stop => { word := Instr.stop.word, init := InitParams.zero, update := UpdateParams.zero }
  | .restart => { word := Instr.restart.word, init := InitParams.zero, update := UpdateParams.zero }
  | .rfsGenerate => { word := Instr.rfsGenerate.word, init := InitParams.zero, update := UpdateParams.zero }
  | .getLutChecksum => { word := Instr.getLutChecksum.word, init := InitParams.zero, update := UpdateParams.zero }

/-- The command the port presents for one opcode-table row: the row's word, and records of zeros beside it. -/
def tableCommand (w : Nat) : Command :=
  { word := BitVec.ofNat 32 w, init := InitParams.zero, update := UpdateParams.zero }

/-- The instruction this decoder reads from a row of spec/opcode_table.json. Every command word is 32 bits (R143), so a
number that does not fit the row, or 32 bits, is no word. -/
def decodeTableWord (nbits w : Nat) : Option Instr :=
  if nbits ≤ 32 ∧ w < 2 ^ nbits then
    match decode (tableCommand w) with
    | .ok i => some i
    | .error _ => none
  else none

end Sys2Proof
end

