-- ==== Sys2Proof/Config.lean ====
section
/-! DEFINITION. What is fixed for one machine: the constants of R8, the named parameters of R9, the names of the register
fields (R46) and where a layout puts them (R85), the shape of the LUT (R60), and the open functions, as constants with no
body. -/

namespace Sys2Proof

/-- One LUT slot: two 32-bit words, LSB and MSB, the low and high halves of a 64-bit slot (R60, R81). -/
structure LutSlot where
  lsb : U32
  msb : U32
  deriving DecidableEq, Repr, Inhabited

/-- One LUT page of 32 slots (R8 N_SLOTS, R60). -/
abbrev LutPage := Vector LutSlot 32

/-- The LUT: two pages (R8 N_PAGES, R60). -/
abbrev Lut := Vector LutPage 2

/-- The fields of the register image the block writes, by name (R46). `clkDiv n` is CLKDIV_{n+1}; `t` is a table slot, `p`
a LUT page, `s` a slot of the page. -/
inductive RegField where
  | ctrlEn
  | ctrlRst
  | chksumEn
  | mode
  | runMode
  | timingMode
  | dpDiv
  | repeatCount
  | tlim (t : Fin 2)
  | slvRfsSrc
  | slvRcsSrc
  | slvDelay
  | slvCsi2Unit
  | slvCsi2Vc
  | clkDiv (n : Fin 4)
  | clkSel (t : Fin 2)
  | sigTypeA (t : Fin 2)
  | sigTypeB (t : Fin 2)
  | irqEn
  | rfsGen
  | lutLsb (p : Fin 2) (s : Fin 32)
  | lutMsb (p : Fin 2) (s : Fin 32)
  deriving DecidableEq, Repr

/-- The fields the hardware writes and the block only reads (R46, R63–R65). -/
inductive HwField where
  | statusExec
  | irqStatus
  | chksumHi
  | chksumLo
  deriving DecidableEq, Repr

/-- Where a field lies (R85): reg_of, mask_of and shift_of. -/
structure Place where
  /-- reg_of: the offset of its 32-bit register in the block. -/
  offset : Nat
  /-- mask_of: the field's bits of that register. -/
  mask : U32
  /-- shift_of: how far the field's value is shifted up. -/
  shift : Nat
  deriving DecidableEq, Repr, Inhabited

/-- REG_LAYOUT (R9, R46, R85, R89): the place of every field of the register image. -/
structure Layout where
  ctrlEn : Place
  ctrlRst : Place
  chksumEn : Place
  mode : Place
  runMode : Place
  timingMode : Place
  dpDiv : Place
  repeatCount : Place
  tlim : Vector Place 2
  slvRfsSrc : Place
  slvRcsSrc : Place
  slvDelay : Place
  slvCsi2Unit : Place
  slvCsi2Vc : Place
  clkDiv : Vector Place 4
  clkSel : Vector Place 2
  sigTypeA : Vector Place 2
  sigTypeB : Vector Place 2
  irqEn : Place
  rfsGen : Place
  lutLsb : Vector (Vector Place 32) 2
  lutMsb : Vector (Vector Place 32) 2
  statusExec : Place
  irqStatus : Place
  chksumHi : Place
  chksumLo : Place
  deriving DecidableEq, Repr, Inhabited

namespace Config

/-! ### The constants of R8 -/

/-- MAX_EVENTS_SINGLE: the most events of a table used alone. -/
abbrev maxEventsSingle : Nat := 64
/-- MAX_EVENTS_DOUBLE: the most events of each of two tables. -/
abbrev maxEventsDouble : Nat := 32
/-- N_SLOTS: slots of one LUT page. -/
abbrev nSlots : Nat := 32
/-- MAX_ACTIONS: the most actions of one event. -/
abbrev maxActions : Nat := 16
/-- The explicit bound of a Signal Definition Table (R172). -/
abbrev maxSigDefs : Nat := 16
/-- N_LINES: the physical output lines; a value from here on is the source's list terminator (R32, R111). -/
abbrev nLines : Nat := 16
/-- MAX_CLOCKS: the hardware clock dividers. -/
abbrev maxClocks : Nat := 4
/-- MAX_CLK_DIV: the largest legal linear clock divider. -/
abbrev maxClkDiv : Nat := 192
/-- MAX_MAIN_DIV: the ceiling of the main divider. -/
abbrev maxMainDiv : Nat := 63
/-- MERGE_FACTOR: merge while the period is below this many times the representative. -/
abbrev mergeFactor : Nat := 2
/-- MERGE_NUM. -/
abbrev mergeNum : Nat := 8
/-- MERGE_DEN. -/
abbrev mergeDen : Nat := 10
/-- NS_PER_S. -/
abbrev nsPerS : Nat := 1000000000
/-- MSB_DEFAULT: the MSB word of a slot no event has written (R123). -/
def msbDefault : U32 := 0x006FFFFF#32
/-- SPT_MASK_BIT: the action mask bit all SPT outputs share (R119, R261). -/
abbrev sptMaskBit : Nat := 28
/-- The sentinel of a time limit: unlimited (R132). -/
def tlimUnlimited : U32 := 0xFFFFFFFF#32
/-- The maximal sentinel delay a decrease of `absTime` is charged with (R201). -/
abbrev maxDelaySentinel : Nat := 0xFFFFFFFF

/-! ### The open functions and numbers: no body, so no proof can lean on a value -/

/-- LutChecksum (R9, R63, I3): the 40-bit checksum of the LUT's contents. -/
opaque lutChecksum : Lut → U40

/-- The FREE VALUE a block-written field holds after the n-th reset pulse (R451, I2): nothing constrains it. -/
opaque pulseDraw : Nat → RegField → U32

/-- The FREE VALUE CLKDIV_ENCODE takes for a linear divider outside its domain 1..192 (R222): a divider of 0, which a
wrapped merged representative of 0 gives (R218) and R220 does not foresee (notes/assumptions/26.md). Nothing constrains it. -/
opaque clkDivOpen : Nat → U32

/-- REG_LAYOUT (R9, R85): open. -/
opaque regLayout : Layout

/-- N_CSI2_UNIT (R9, R118): open. -/
opaque nCsi2Unit : Nat
/-- N_CSI2_VC (R9, R118): open. -/
opaque nCsi2Vc : Nat
/-- SLAVE_FIELD_BITS (R9, R56): open. -/
opaque slaveFieldBits : Nat
/-- IRQ_LINE (R425): open, read by no rule. -/
opaque irqLine : Nat
/-- IRQ_CORE (R425): open, read by no rule. -/
opaque irqCore : Nat
/-- IRQ_PRIO (R425): open, read by no rule. -/
opaque irqPrio : Nat

end Config

/-- The named parameters the spec's step takes as arguments (R9): plain data, held beside the state, changed by no step
(notes/assumptions/6.md). CLKDIV_ENCODE is the table of the 192 codes: entry `d - 1` is the code of the linear divider
`d`. LutChecksum, a function, is `Config.lutChecksum`. -/
structure Params where
  /-- FLEX_BIT[0]: the mask bit of FLEX0. -/
  flexBit0 : Fin 64
  /-- FLEX_BIT[1]: the mask bit of FLEX1. -/
  flexBit1 : Fin 64
  /-- TICK_DELTA_BITS: the width of the tick-delta field of an LSB word. -/
  tickDeltaBits : Nat
  /-- CLKDIV_ENCODE as a table. -/
  clkDivCodes : Vector U32 192
  /-- CLKDIV_BITS: the width of a CLKDIV_n field. -/
  clkDivBits : Nat
  /-- MAIN_DIV_BITS: the width of the DPDIV field. -/
  mainDivBits : Nat
  /-- SPT_TYPE_BIT: the bit of SIGTYPE[t].A an SPT Toggle entry sets. -/
  sptTypeBit : Fin 32
  /-- N_CSI2_UNIT. -/
  nCsi2Unit : Nat
  /-- N_CSI2_VC. -/
  nCsi2Vc : Nat
  /-- SLAVE_FIELD_BITS. -/
  slaveFieldBits : Nat
  /-- REG_LAYOUT. -/
  layout : Layout
  /-- IRQ_RAW_BITS: the width of IRQ_EN and IRQ_STATUS. -/
  irqRawBits : Nat
  /-- HALT_ON_ERROR. -/
  haltOnError : Bool
  /-- IRQ_LINE. -/
  irqLine : Nat
  /-- IRQ_CORE. -/
  irqCore : Nat
  /-- IRQ_PRIO. -/
  irqPrio : Nat
  deriving DecidableEq, Repr

end Sys2Proof
end

