-- ==== Sys2Proof/Machine/Operands.lean ====
section
/-! DEFINITION. The forms an operand's raw codes take: the shared arithmetic (R13, R14), masked fields (R84, R85), the
classes of the output lines (R111, R112), the codes of types, states and modes (R113–R118, R129–R131), the CLKDIV code
(R222) and the named parameters' defaults (R9). -/

namespace Sys2Proof.Machine

/-! ### Arithmetic -/

/-- The scaled multiply-divide helper (R13): the product wraps at 2^64, then the floors by `d` and by `e`. -/
def mulDiv (a b c d e : Nat) : Nat := (a * b * c) % 2 ^ 64 / d / e

/-- The ceiling of `x / y` (R14), for `y ≥ 1`. -/
def ceilDiv (x y : Nat) : Nat := (x + (y - 1)) / y

/-- `trunc_N` of a natural number kept in 32 bits (R11): the low `bits` bits of `v`. -/
def truncBits (bits : Nat) (v : U32) : U32 := BitVec.ofNat 32 (v.toNat % 2 ^ bits)

/-! ### The LUT -/

/-- Slot `k` of page `p` (R60). -/
def lutAt (l : Lut) (p : Fin 2) (k : Fin 32) : LutSlot := l[p][k]

/-- The LUT with one slot replaced. -/
def lutSet (l : Lut) (p : Fin 2) (k : Fin 32) (x : LutSlot) : Lut := l.set p (l[p].set k x)

/-! ### Masked fields of a 32-bit register -/

/-- ReadMaskedField on a register's value (R84). -/
def maskedRead (reg mask : U32) (shift : Nat) : U32 := (reg &&& mask) >>> shift

/-- WriteMaskedField on a register's value (R85): `value` is already shifted into position. -/
def maskedWrite (reg mask value : U32) : U32 := (reg &&& ~~~mask) ||| (value &&& mask)

/-- The mask of the 2-bit field at bits `pos+1 : pos` (R126–R128). -/
def mask2 (pos : Nat) : U32 := 3#32 <<< pos

/-- The mask of the one bit `pos`. -/
def mask1 (pos : Nat) : U32 := 1#32 <<< pos

/-! ### Output lines (R111, R112) -/

/-- `isSPT(e)`. -/
def isSPT (e : Nat) : Bool := decide (e ≤ 3)
/-- `isCTEP(e)`. -/
def isCTEP (e : Nat) : Bool := decide (4 ≤ e ∧ e ≤ 11)
/-- `isRCSRFS(e)`. -/
def isRCSRFS (e : Nat) : Bool := decide (e = 12 ∨ e = 13)
/-- `isFLEX(e)`: above SPT_RFS. -/
def isFLEX (e : Nat) : Bool := decide (14 ≤ e)
/-- `rel(e)`: the index relative to the first non-SPT output. -/
def rel (e : Nat) : Nat := e - 4

/-! ### Codes -/

/-- Signal type HiZ (R113). -/
abbrev typeHiZ : U32 := 0
/-- Signal type Toggle (R113). -/
abbrev typeToggle : U32 := 1
/-- Signal type Clock (R113). -/
abbrev typeClock : U32 := 2
/-- Signal type Logic (R113). -/
abbrev typeLogic : U32 := 3

/-- A code that is a signal type (R113). -/
def isSignalType (c : U32) : Bool := decide (c.toNat ≤ 3)

/-- A state code every type has (R114–R117). -/
def isStateCode (v : U32) : Bool := decide (v.toNat ≤ 3)

/-- Working mode SLAVE_CSI2 (R118). -/
abbrev modeSlaveCsi2 : Nat := 2

/-- A working mode (R118). -/
def isWorkingMode (m : Nat) : Bool := decide (m ≤ 2)

/-- `isSlave(m)` (R118). -/
def isSlave (m : Nat) : Bool := decide (m = 1 ∨ m = 2)

/-- RUNMODE ONE_TABLE (R129). -/
def runModeOneTable : U32 := 0
/-- RUNMODE TWO_TABLE (R129). -/
def runModeTwoTable : U32 := 1

/-- TIMING_MODE RELATIVE (R131). -/
def timingRelative : U32 := 1

/-! ### The CLKDIV code (R222) -/

/-- The doubling loop of R222: `fuel` bounds the steps, `cv` is computingVal, `c` the rotating 2-bit counter. Each step at
least doubles, so a fuel of 8 is enough for every divider up to 255. -/
def doublingSteps (div : Nat) : (fuel cv c steps : Nat) → Nat
  | 0, _, _, steps => steps
  | fuel + 1, cv, c, steps =>
    if cv < div then
      doublingSteps div fuel (2 * cv + (if c % 2 = 0 then 1 else 0)) ((c + 1) % 4) (steps + 1)
    else steps

/-- CLKDIV_ENCODE of R222 for a linear divider 1..192. -/
def clkDivEncode (div : Nat) : U32 := BitVec.ofNat 32 (doublingSteps div 8 1 0 0)

/-- CLKDIV_ENCODE as a table: entry `d - 1` is the code of `d` (R9, R222). -/
def clkDivTable : Vector U32 192 := Vector.ofFn fun k => clkDivEncode (k + 1)

/-- The code a machine's parameters give a divider (R222, R223), for a divider of CLKDIV_ENCODE's domain 1..192. DESIGN
CHOICE (notes/assumptions/26.md): outside it the code is a FREE VALUE. R220 says that no divider is below 1, but a merged
representative whose product wraps can be 0 (R218: periods from 2^31 to 3 * 2^30), and then so is its divider. -/
def clkDivCode (par : Params) (div : Nat) : U32 :=
  if h : 1 ≤ div ∧ div ≤ 192 then par.clkDivCodes[div - 1] else Config.clkDivOpen div

/-- R9's defaults; what R9 leaves OPEN is the open constant of Config. -/
def defaultParams : Params :=
  { flexBit0 := 33, flexBit1 := 34, tickDeltaBits := 28, clkDivCodes := clkDivTable, clkDivBits := 3, mainDivBits := 6
    sptTypeBit := 0
    nCsi2Unit := Config.nCsi2Unit, nCsi2Vc := Config.nCsi2Vc, slaveFieldBits := Config.slaveFieldBits
    layout := Config.regLayout, irqRawBits := 32, haltOnError := false
    irqLine := Config.irqLine, irqCore := Config.irqCore, irqPrio := Config.irqPrio }

end Sys2Proof.Machine
end

