-- ==== Sys2Proof/Machine/State.lean ====
section
/-! DEFINITION. The state: the Driver State (R35), the register image (R46–R62), the inputs the block does not choose
(R63–R65, R320), the input stream (R30, R140), the outputs (R66, R402), the parameters (R9), and what the machine is right
after power-on (R67, R450). -/

namespace Sys2Proof.Machine

/-- `S.status` (R36). -/
inductive DrvStatus where
  | notInit
  | initialized
  | running
  deriving DecidableEq, Repr

/-- The status codes (R402), in the table's order. -/
inductive Status where
  /-- 0x00 OK -/
  | ok
  /-- 0x01 DRV_RUNNING -/
  | drvRunning
  /-- 0x02 NOT_INITIALIZED -/
  | notInitialized
  /-- 0x03 NOT_RUNNING -/
  | notRunning
  /-- 0x04 NOT_SLAVE_MODE -/
  | notSlaveMode
  /-- 0x05 ILLEGAL_COMMAND -/
  | illegalCommand
  /-- 0x10 WRG_MODE -/
  | wrgMode
  /-- 0x11 WRG_CSI2_UNIT -/
  | wrgCsi2Unit
  /-- 0x12 WRG_CSI2_VC -/
  | wrgCsi2Vc
  /-- 0x13 NULL_CLK_FREQ -/
  | nullClkFreq
  /-- 0x14 NULL_PTR_TABLE0 -/
  | nullPtrTable0
  /-- 0x15 TABLE_NOT_WELL_DEFINED -/
  | tableNotWellDefined
  /-- 0x16 TABLE_TOO_LONG -/
  | tableTooLong
  /-- 0x17 NULL_PTR_EVENTS -/
  | nullPtrEvents
  /-- 0x18 NULL_PTR_ACTIONS -/
  | nullPtrActions
  /-- 0x19 TOO_MANY_ACTIONS -/
  | tooManyActions
  /-- 0x1A NULL_PTR_SIGDEF0 -/
  | nullPtrSigDef0
  /-- 0x1B NULL_PTR_SIGDEF1 -/
  | nullPtrSigDef1
  /-- 0x1C WRG_PTR_SIGDEF1 -/
  | wrgPtrSigDef1
  /-- 0x1D TABLE_TOO_LONG_DOUBLE -/
  | tableTooLongDouble
  /-- 0x1E SIG_DEF_TOO_LONG -/
  | sigDefTooLong
  /-- 0x1F SIG_OUT_TYPE_WRG -/
  | sigOutTypeWrg
  /-- 0x20 SIG_OUT_DIF_TYPE -/
  | sigOutDifType
  /-- 0x21 NULL_PTR_CALLBACK -/
  | nullPtrCallback
  /-- 0x22 WRG_PTR_TABLE1 -/
  | wrgPtrTable1
  /-- 0x30 REG_BASE_NULL -/
  | regBaseNull
  /-- 0x31 IRQ_REG_FAILED -/
  | irqRegFailed
  /-- 0x40 NULL_CLK_PERIOD -/
  | nullClkPeriod
  /-- 0x41 TOO_MANY_CLOCKS -/
  | tooManyClocks
  /-- 0x42 CLK_DIVIDER_ERROR -/
  | clkDividerError
  /-- 0x50 SIG_NOT_DEF -/
  | sigNotDef
  /-- 0x51 SIG_OUT_STATE_WRG -/
  | sigOutStateWrg
  deriving DecidableEq, Repr

/-- The Driver State (R35). -/
structure DriverState where
  /-- R36 -/
  status : DrvStatus
  /-- R37 -/
  mainClockDivider : U8
  /-- R38 -/
  usedClockDividers : U8
  /-- R39 -/
  workingFreq : U32
  /-- R40 -/
  requestedIrqEvents : U32
  /-- R41 -/
  callback : Option CallbackId
  /-- R42 -/
  clockPeriods : Vector U32 4
  /-- R43 -/
  clusterLow : Vector U32 4
  /-- R44 -/
  signalDef0 : Option (List SigDef)
  /-- R44 -/
  signalDef1 : Option (List SigDef)
  deriving DecidableEq, Repr

/-- The block-written fields of the register image (R46). A field whose width is a parameter of R9 (DPDIV MAIN_DIV_BITS,
CLKDIV_n CLKDIV_BITS, IRQ_EN IRQ_RAW_BITS, the slave fields SLAVE_FIELD_BITS) is held in 32 bits, truncated when written. -/
structure RegImage where
  /-- CTRL_EN, R47 -/
  ctrlEn : BitVec 1
  /-- CTRL_RST, R48 -/
  ctrlRst : BitVec 1
  /-- CHKSUM_EN, R49 -/
  chksumEn : BitVec 1
  /-- MODE, R50 -/
  mode : BitVec 2
  /-- RUNMODE, R51 -/
  runMode : BitVec 1
  /-- TIMING_MODE, R52 -/
  timingMode : BitVec 1
  /-- DPDIV, R53 -/
  dpDiv : U32
  /-- REPEAT, R54 -/
  repeatCount : U32
  /-- TLIM[0], TLIM[1], R55 -/
  tlim : Vector U32 2
  /-- SLV_RFS_SRC, R56 -/
  slvRfsSrc : U32
  /-- SLV_RCS_SRC, R56 -/
  slvRcsSrc : U32
  /-- SLV_DELAY, R56 -/
  slvDelay : U32
  /-- SLV_CSI2_UNIT, R56 -/
  slvCsi2Unit : U32
  /-- SLV_CSI2_VC, R56 -/
  slvCsi2Vc : U32
  /-- CLKDIV_1..CLKDIV_4 at indexes 0..3, R57 -/
  clkDiv : Vector U32 4
  /-- CLKSEL[0], CLKSEL[1], R58 -/
  clkSel : Vector U32 2
  /-- SIGTYPE[0].A, SIGTYPE[1].A, R59 -/
  sigTypeA : Vector U32 2
  /-- SIGTYPE[0].B, SIGTYPE[1].B, R59 -/
  sigTypeB : Vector U32 2
  /-- the LUT, R60 -/
  lut : Lut
  /-- IRQ_EN, R61 -/
  irqEn : U32
  /-- RFS_GEN, R62 -/
  rfsGen : BitVec 1
  deriving DecidableEq, Repr

/-- What a step meets and the block does not choose (R320): the collaborators' answers and the hardware-written fields.
The checksum registers are here for the time they do not follow the LUT (R63, I22). -/
structure Env where
  /-- the register-base collaborator's answer, R333 -/
  baseOk : Bool
  /-- the interrupt-registration collaborator's answer, R346 -/
  irqRegOk : Bool
  /-- STATUS_EXEC, R64 -/
  statusExec : BitVec 1
  /-- what drives IRQ_STATUS, IRQ_RAW_BITS of it, R65 -/
  irqStatus : U32
  /-- what drives CHKSUM_HI[7:0] while CHKSUM_EN = 0, bits 7:0 of it, R63, R133 -/
  chksumHi : U32
  /-- CHKSUM_LO while CHKSUM_EN = 0, R63 -/
  chksumLo : U32
  deriving DecidableEq, Repr

/-- What the block does that another agent can see, in the order it does it (R88, R91, R92). -/
inductive Effect where
  /-- a field or LUT word was written with this value (R85, R87) -/
  | write (f : RegField) (v : U32)
  /-- the register-base collaborator was asked (R333) -/
  | resolveBase
  /-- the interrupt handler was registered for this line, core and priority (R425) -/
  | registerIrq (line core prio : Nat)
  /-- the application callback was called with this mask (R411) -/
  | callback (cb : CallbackId) (mask : U32)
  deriving DecidableEq, Repr

/-- What the last command, or IrqStep, gave: the status and checksum it returned (R320), and its effects, NEWEST FIRST. -/
structure Output where
  status : Option Status
  checksum : Option U64
  effects : List Effect
  deriving DecidableEq, Repr

/-- One item of the input stream: a command with the environment it meets (R320), or an IrqStep (R411, R413). -/
inductive InputItem where
  | command (c : Command) (env : Env)
  | irqStep (env : Env)
  deriving DecidableEq, Repr

/-- The machine. -/
structure State where
  /-- the Driver State, R35 -/
  drv : DriverState
  /-- the block-written register image, R46 -/
  regs : RegImage
  /-- what the current step meets, R320 -/
  env : Env
  /-- the input stream, oldest first, R30 -/
  input : List InputItem
  /-- what the last command or IrqStep gave, R66 -/
  output : Output
  /-- the halt-on-error hook has stopped the block, R409 -/
  halted : Bool
  /-- how many reset pulses have drawn their free values, R451 -/
  draws : Nat
  /-- the named parameters, R9 -/
  params : Params
  deriving DecidableEq, Repr

/-- Why the machine stops. -/
inductive Fault where
  /-- Raised by `step` once the halt-on-error hook has stopped the block (R409, I10: "the model makes no further step").
  Safe: only with HALT_ON_ERROR = true, which is not the default, and nothing is claimed past it. -/
  | haltedOnError
  deriving DecidableEq, Repr

/-- Why the machine gives an input no meaning. -/
inductive Refusal where
  /-- Raised by an arm of `exec` with no meaning yet, by mnemonic; no arm is left that raises it. Safe. -/
  | notModelled (mnemonic : String)
  /-- Raised by SETUP and UPDATE_TABLES for a parameter record that breaks R32 ("refuses any other input as having no
  meaning"). Safe: the hardware reads out of bounds there, and nothing is claimed. -/
  | illFormedInput
  deriving DecidableEq, Repr

/-- Every field 0: the values the model names for power-on (notes/assumptions/1.md). -/
def LutSlot.zero : LutSlot := { lsb := 0, msb := 0 }

/-- Every field 0 (R67 gives no values; notes/assumptions/1.md). -/
def RegImage.zero : RegImage :=
  { ctrlEn := 0, ctrlRst := 0, chksumEn := 0, mode := 0, runMode := 0, timingMode := 0, dpDiv := 0, repeatCount := 0
    tlim := Vector.replicate 2 0, slvRfsSrc := 0, slvRcsSrc := 0, slvDelay := 0, slvCsi2Unit := 0, slvCsi2Vc := 0
    clkDiv := Vector.replicate 4 0, clkSel := Vector.replicate 2 0, sigTypeA := Vector.replicate 2 0
    sigTypeB := Vector.replicate 2 0, lut := Vector.replicate 2 (Vector.replicate 32 LutSlot.zero), irqEn := 0
    rfsGen := 0 }

/-- The environment before the first input item (notes/assumptions/3.md). -/
def Env.zero : Env :=
  { baseOk := false, irqRegOk := false, statusExec := 0, irqStatus := 0, chksumHi := 0, chksumLo := 0 }

/-- Nothing returned and nothing done yet. -/
def Output.empty : Output := { status := none, checksum := none, effects := [] }

/-- Power-on (R66, R67, R450): the status is NotInit, and the block waits for its first command word. Every other value is
one the model names (notes/assumptions/1.md). -/
def State.reset : State :=
  { drv :=
      { status := .notInit, mainClockDivider := 0, usedClockDividers := 0, workingFreq := 0, requestedIrqEvents := 0
        callback := none, clockPeriods := Vector.replicate 4 0, clusterLow := Vector.replicate 4 0
        signalDef0 := none, signalDef1 := none }
    regs := RegImage.zero
    env := Env.zero
    input := []
    output := Output.empty
    halted := false
    draws := 0
    params := defaultParams }

end Sys2Proof.Machine
end

