-- ==== Sys2Proof/Machine/Flags.lean ====
section
/-! DEFINITION. The software-visible flags (R66: the block has no condition codes): the status codes' numbers (R402), their
classes (R403, R404), and the number of the driver status (R36). -/

namespace Sys2Proof.Machine

/-- The numeric code of a status (R402). -/
def statusCode : Status → U8
  | .ok => 0x00#8
  | .drvRunning => 0x01#8
  | .notInitialized => 0x02#8
  | .notRunning => 0x03#8
  | .notSlaveMode => 0x04#8
  | .illegalCommand => 0x05#8
  | .wrgMode => 0x10#8
  | .wrgCsi2Unit => 0x11#8
  | .wrgCsi2Vc => 0x12#8
  | .nullClkFreq => 0x13#8
  | .nullPtrTable0 => 0x14#8
  | .tableNotWellDefined => 0x15#8
  | .tableTooLong => 0x16#8
  | .nullPtrEvents => 0x17#8
  | .nullPtrActions => 0x18#8
  | .tooManyActions => 0x19#8
  | .nullPtrSigDef0 => 0x1A#8
  | .nullPtrSigDef1 => 0x1B#8
  | .wrgPtrSigDef1 => 0x1C#8
  | .tableTooLongDouble => 0x1D#8
  | .sigDefTooLong => 0x1E#8
  | .sigOutTypeWrg => 0x1F#8
  | .sigOutDifType => 0x20#8
  | .nullPtrCallback => 0x21#8
  | .wrgPtrTable1 => 0x22#8
  | .regBaseNull => 0x30#8
  | .irqRegFailed => 0x31#8
  | .nullClkPeriod => 0x40#8
  | .tooManyClocks => 0x41#8
  | .clkDividerError => 0x42#8
  | .sigNotDef => 0x50#8
  | .sigOutStateWrg => 0x51#8

/-- The classes of R404, with success and the one warning (R403). -/
inductive StatusClass where
  | success
  | warning
  /-- (a) -/
  | parameter
  /-- (b) -/
  | resource
  /-- (c) -/
  | state
  /-- (d) -/
  | actionMapping
  /-- (e) -/
  | command
  /-- (f) -/
  | platform
  deriving DecidableEq, Repr

/-- The class column of R402. -/
def statusClass : Status → StatusClass
  | .ok => .success
  | .drvRunning => .warning
  | .notInitialized => .state
  | .notRunning => .state
  | .notSlaveMode => .state
  | .illegalCommand => .command
  | .wrgMode => .parameter
  | .wrgCsi2Unit => .parameter
  | .wrgCsi2Vc => .parameter
  | .nullClkFreq => .parameter
  | .nullPtrTable0 => .parameter
  | .tableNotWellDefined => .parameter
  | .tableTooLong => .parameter
  | .nullPtrEvents => .parameter
  | .nullPtrActions => .parameter
  | .tooManyActions => .parameter
  | .nullPtrSigDef0 => .parameter
  | .nullPtrSigDef1 => .parameter
  | .wrgPtrSigDef1 => .parameter
  | .tableTooLongDouble => .parameter
  | .sigDefTooLong => .parameter
  | .sigOutTypeWrg => .parameter
  | .sigOutDifType => .parameter
  | .nullPtrCallback => .parameter
  | .wrgPtrTable1 => .parameter
  | .regBaseNull => .platform
  | .irqRegFailed => .platform
  | .nullClkPeriod => .resource
  | .tooManyClocks => .resource
  | .clkDividerError => .resource
  | .sigNotDef => .actionMapping
  | .sigOutStateWrg => .actionMapping

/-- "Every code other than OK and DRV_RUNNING is an error" (R403). -/
def isErrorStatus (c : Status) : Bool :=
  match c with
  | .ok => false
  | .drvRunning => false
  | _ => true

/-- The number of the driver status (R36); no rule depends on it. -/
def drvStatusCode : DrvStatus → Nat
  | .notInit => 0
  | .initialized => 1
  | .running => 2

end Sys2Proof.Machine
end

