-- ==== Sys2Proof/Machine/Ops.lean ====
section
/-! DEFINITION. The operations every command is made of: reading and writing a register field by name (R46, R85), the LUT
(R60), the reset pulse (R451), the checksum registers (R63), raising a status and ending a command with it (R400, R401,
R407, R409), the answer to an illegal word (R365), and the interrupt step (R411). -/

namespace Sys2Proof.Machine

/-! ### The register image by field name -/

/-- What a field reads as, zero-extended to a 32-bit word (R83, R84). -/
def RegImage.read (r : RegImage) : RegField → U32
  | .ctrlEn => r.ctrlEn.setWidth 32
  | .ctrlRst => r.ctrlRst.setWidth 32
  | .chksumEn => r.chksumEn.setWidth 32
  | .mode => r.mode.setWidth 32
  | .runMode => r.runMode.setWidth 32
  | .timingMode => r.timingMode.setWidth 32
  | .dpDiv => r.dpDiv
  | .repeatCount => r.repeatCount
  | .tlim t => r.tlim[t]
  | .slvRfsSrc => r.slvRfsSrc
  | .slvRcsSrc => r.slvRcsSrc
  | .slvDelay => r.slvDelay
  | .slvCsi2Unit => r.slvCsi2Unit
  | .slvCsi2Vc => r.slvCsi2Vc
  | .clkDiv n => r.clkDiv[n]
  | .clkSel t => r.clkSel[t]
  | .sigTypeA t => r.sigTypeA[t]
  | .sigTypeB t => r.sigTypeB[t]
  | .irqEn => r.irqEn
  | .rfsGen => r.rfsGen.setWidth 32
  | .lutLsb p s => (lutAt r.lut p s).lsb
  | .lutMsb p s => (lutAt r.lut p s).msb

/-- One write to a field (R85, R87): the value is truncated to the field's width, and every other field keeps its value.
RFS_GEN is a pulse and reads back as 0 (R62). -/
def RegImage.write (par : Params) (f : RegField) (v : U32) (r : RegImage) : RegImage :=
  match f with
  | .ctrlEn => { r with ctrlEn := v.setWidth 1 }
  | .ctrlRst => { r with ctrlRst := v.setWidth 1 }
  | .chksumEn => { r with chksumEn := v.setWidth 1 }
  | .mode => { r with mode := v.setWidth 2 }
  | .runMode => { r with runMode := v.setWidth 1 }
  | .timingMode => { r with timingMode := v.setWidth 1 }
  | .dpDiv => { r with dpDiv := truncBits par.mainDivBits v }
  | .repeatCount => { r with repeatCount := v }
  | .tlim t => { r with tlim := r.tlim.set t v }
  | .slvRfsSrc => { r with slvRfsSrc := truncBits par.slaveFieldBits v }
  | .slvRcsSrc => { r with slvRcsSrc := truncBits par.slaveFieldBits v }
  | .slvDelay => { r with slvDelay := truncBits par.slaveFieldBits v }
  | .slvCsi2Unit => { r with slvCsi2Unit := truncBits par.slaveFieldBits v }
  | .slvCsi2Vc => { r with slvCsi2Vc := truncBits par.slaveFieldBits v }
  | .clkDiv n => { r with clkDiv := r.clkDiv.set n (truncBits par.clkDivBits v) }
  | .clkSel t => { r with clkSel := r.clkSel.set t v }
  | .sigTypeA t => { r with sigTypeA := r.sigTypeA.set t v }
  | .sigTypeB t => { r with sigTypeB := r.sigTypeB.set t v }
  | .irqEn => { r with irqEn := truncBits par.irqRawBits v }
  | .rfsGen => { r with rfsGen := 0 }
  | .lutLsb p s => { r with lut := lutSet r.lut p s { lutAt r.lut p s with lsb := v } }
  | .lutMsb p s => { r with lut := lutSet r.lut p s { lutAt r.lut p s with msb := v } }

/-- The register image whose every field is the word `d` gives it, truncated to the field's width. -/
def RegImage.drawn (par : Params) (d : RegField → U32) : RegImage :=
  { ctrlEn := (d .ctrlEn).setWidth 1
    ctrlRst := (d .ctrlRst).setWidth 1
    chksumEn := (d .chksumEn).setWidth 1
    mode := (d .mode).setWidth 2
    runMode := (d .runMode).setWidth 1
    timingMode := (d .timingMode).setWidth 1
    dpDiv := truncBits par.mainDivBits (d .dpDiv)
    repeatCount := d .repeatCount
    tlim := Vector.ofFn fun t => d (.tlim t)
    slvRfsSrc := truncBits par.slaveFieldBits (d .slvRfsSrc)
    slvRcsSrc := truncBits par.slaveFieldBits (d .slvRcsSrc)
    slvDelay := truncBits par.slaveFieldBits (d .slvDelay)
    slvCsi2Unit := truncBits par.slaveFieldBits (d .slvCsi2Unit)
    slvCsi2Vc := truncBits par.slaveFieldBits (d .slvCsi2Vc)
    clkDiv := Vector.ofFn fun n => truncBits par.clkDivBits (d (.clkDiv n))
    clkSel := Vector.ofFn fun t => d (.clkSel t)
    sigTypeA := Vector.ofFn fun t => d (.sigTypeA t)
    sigTypeB := Vector.ofFn fun t => d (.sigTypeB t)
    lut := Vector.ofFn fun p => Vector.ofFn fun s => { lsb := d (.lutLsb p s), msb := d (.lutMsb p s) }
    irqEn := truncBits par.irqRawBits (d .irqEn)
    rfsGen := (d .rfsGen).setWidth 1 }

/-! ### State updates -/

/-- Adds one effect to what the current command has done (R91, R92). -/
def State.emit (e : Effect) (s : State) : State :=
  { s with output := { s.output with effects := e :: s.output.effects } }

/-- `REG.f <- v` (R12, R85): the write, seen by the engine in its place in the order (R92). -/
def State.write (f : RegField) (v : U32) (s : State) : State :=
  State.emit (.write f v) { s with regs := s.regs.write s.params f v }

/-- WriteMaskedField on a register the spec gives bit positions for (R85, R126, R127): bits outside `mask` keep their
values. -/
def State.writeMasked (f : RegField) (mask value : U32) (s : State) : State :=
  s.write f (maskedWrite (s.regs.read f) mask value)

/-- `S.status <- d` (R36). -/
def State.setStatus (d : DrvStatus) (s : State) : State := { s with drv := { s.drv with status := d } }

/-- One slot of the LUT, LSB word then MSB word (R60, R254). -/
def State.writeSlot (p : Fin 2) (k : Fin 32) (lsb msb : U32) (s : State) : State :=
  (s.write (.lutLsb p k) lsb).write (.lutMsb p k) msb

/-- The reset pulse (R335, R451): CTRL_RST is written 1 then 0; CTRL_EN becomes 0, so the engine stops; every other
block-written field takes a free value nothing constrains; the Driver State is unchanged. -/
def State.pulseReset (s : State) : State :=
  let s := s.write .ctrlRst 1
  let s :=
    { s with
      regs := { RegImage.drawn s.params (Config.pulseDraw s.draws) with ctrlEn := 0 }
      draws := s.draws + 1 }
  s.write .ctrlRst 0

/-! ### The checksum registers (R63, R82, R133) -/

/-- CHKSUM_LO as it reads now: bits 31:0 of the LUT's checksum while CHKSUM_EN = 1, else what the hardware drives. -/
def State.chksumLo (s : State) : U32 :=
  if s.regs.chksumEn = 1 then (Config.lutChecksum s.regs.lut).setWidth 32 else s.env.chksumLo

/-- CHKSUM_HI as it reads now: in bits 7:0 bits 39:32 of the LUT's checksum while CHKSUM_EN = 1, else what the hardware
drives; bits 31:8 read 0 (R133). -/
def State.chksumHi (s : State) : U32 :=
  if s.regs.chksumEn = 1 then (Config.lutChecksum s.regs.lut >>> 32).setWidth 32
  else (s.env.chksumHi.setWidth 8).setWidth 32

/-- `zext_64(CHKSUM_HI[7:0] ++ CHKSUM_LO[31:0])` (R82, R338). -/
def joinChecksum (hi lo : U32) : U64 := (hi.setWidth 8 ++ lo).setWidth 64

/-- ReadChecksum (R338): no side effect (R63). -/
def State.readChecksum (s : State) : U64 := joinChecksum s.chksumHi s.chksumLo

/-- "snapshot LUT checksum" (R338): from here on the command returns this checksum, whatever follows. -/
def State.snapshotChecksum (s : State) : State :=
  { s with output := { s.output with checksum := some s.readChecksum } }

/-! ### Raising a status, and ending a command with one -/

/-- A command's body, partway: it goes on from a state, or a step has raised a status (R401), with every write so far
kept. -/
inductive Flow where
  | go (s : State)
  | raised (c : Status) (s : State)

/-- The next step of a command: not run once a status has been raised (R401: "short-circuits the remaining pipeline"). -/
def Flow.andThen (f : Flow) (k : State → Flow) : Flow :=
  match f with
  | .go s => k s
  | .raised c s => .raised c s

/-- The start of a command: nothing returned and nothing done yet. -/
def State.beginCommand (s : State) : State := { s with output := Output.empty }

/-- The end of a command: it returns its status. Nothing is saved, no mode changes, no vector is taken (R407); with
HALT_ON_ERROR an error status leaves the block stuck (R409). -/
def State.finish (c : Status) (s : State) : State :=
  { s with
    output := { s.output with status := some c }
    halted := s.halted || (s.params.haltOnError && isErrorStatus c) }

/-- TAKING AN ERROR, and the ordinary end beside it (R401): the command ends with the raised status, or with OK. -/
def Flow.result : Flow → State
  | .go s => s.finish .ok
  | .raised c s => s.finish c

/-- A whole command (R320): one step, from its body. -/
def runCommand (body : State → Flow) (s : State) : State := (body s.beginCommand).result

/-- The NotInit guard (R323): it writes nothing. -/
def guardInitialized (s : State) : Flow :=
  if s.drv.status = .notInit then .raised .notInitialized s else .go s

/-- The answer to a reserved or illegal command word (R142, R365): ILLEGAL_COMMAND, no checksum, nothing written. -/
def illegalCommand (s : State) : State := runCommand (fun t => .raised .illegalCommand t) s

/-! ### The interrupt step -/

/-- IRQ_STATUS as it reads now (R65): IRQ_RAW_BITS of what drives it. -/
def State.irqStatus (s : State) : U32 := truncBits s.params.irqRawBits s.env.irqStatus

/-- IrqStep (R411): it writes no block state, and calls the application back with the raw status AND the requested
events, even when that is 0, if events were requested, a callback is known and the driver is set up. -/
def irqStep (s : State) : State :=
  let s := s.beginCommand
  match s.drv.callback with
  | some cb =>
    if s.drv.requestedIrqEvents ≠ 0 ∧ s.drv.status ≠ .notInit then
      s.emit (.callback cb (s.irqStatus &&& s.drv.requestedIrqEvents))
    else s
  | none => s

/-! ### Taking the next input -/

/-- Takes the oldest input item off the stream and meets its environment (R320). -/
def State.takeInput (env : Env) (rest : List InputItem) (s : State) : State := { s with env := env, input := rest }

end Sys2Proof.Machine
end

