-- ==== Sys2Proof/Machine/Control.lean ====
section
/-! DEFINITION. START, STOP, RESTART, RFS_GENERATE and GET_LUT_CHECKSUM (44_commands.md §4, R360–R364). -/

namespace Sys2Proof.Machine

/-- The steps of START (R360). In Running the engine's report decides: still executing is the warning with no state
change, finished is the benign re-arm. It returns OK, or raises DRV_RUNNING, the one warning (R403). -/
def startBody (s : State) : Flow :=
  (guardInitialized s).andThen fun s =>
    if s.drv.status = .initialized then .go ((s.write .ctrlEn 1).setStatus .running)
    else if s.env.statusExec = 1 then .raised .drvRunning s
    else .go ((s.write .ctrlEn 0).write .ctrlEn 1)

/-- The steps of STOP (R361). -/
def stopBody (s : State) : Flow :=
  (guardInitialized s).andThen fun s =>
    if s.drv.status = .initialized then .raised .notRunning s
    else .go ((s.write .ctrlEn 0).setStatus .initialized)

/-- The steps of RESTART (R362): STOP, then START unless STOP raised a status. -/
def restartBody (s : State) : Flow := (stopBody s).andThen startBody

/-- The steps of RFS_GENERATE (R363): the mode is checked before Running. -/
def rfsGenerateBody (s : State) : Flow :=
  (guardInitialized s).andThen fun s =>
    if !isSlave s.regs.mode.toNat then .raised .notSlaveMode s
    else if s.drv.status ≠ .running then .raised .notRunning s
    else .go (s.write .rfsGen 1)

/-- START (R360). -/
def execStart (s : State) : Host.Outcome State Fault Refusal := .next (runCommand startBody s)

/-- STOP (R361). -/
def execStop (s : State) : Host.Outcome State Fault Refusal := .next (runCommand stopBody s)

/-- RESTART (R362). -/
def execRestart (s : State) : Host.Outcome State Fault Refusal := .next (runCommand restartBody s)

/-- RFS_GENERATE (R363). -/
def execRfsGenerate (s : State) : Host.Outcome State Fault Refusal := .next (runCommand rfsGenerateBody s)

/-- GET_LUT_CHECKSUM (R364): no state check, always OK, nothing written. -/
def execGetLutChecksum (s : State) : Host.Outcome State Fault Refusal :=
  .next (runCommand (fun t => .go t.snapshotChecksum) s)

end Sys2Proof.Machine
end

