-- ==== Sys2Proof/Machine/Validator.lean ====
section
/-! DEFINITION. The parameter validator (40_validator.md): pure functions of the record, the first failing check reported
(R160). What a record has been checked to hold is returned as data, so that no later step meets a NULL pointer. -/

namespace Sys2Proof.Machine

/-- A check (R160): raises `c` when `bad` holds. -/
def failIf (bad : Bool) (c : Status) : Except Status Unit := if bad then .error c else .ok ()

/-- What a pointer points to, or the status of its being NULL (R15). -/
def orRaise {α : Type} (c : Status) : Option α → Except Status α
  | none => .error c
  | some x => .ok x

/-- An event whose actions pointer is not NULL. -/
structure CheckedEvent where
  absTime : U32
  actions : List Action
  deriving DecidableEq, Repr

/-- A table whose content has been checked: its first `length` events, the only ones that are read (R32). -/
structure CheckedTable where
  length : Nat
  execTimeLimit : U32
  events : List CheckedEvent
  deriving DecidableEq, Repr

/-- The tables and definitions of a validated record: Table 1 and its definitions come together (R169, R171). -/
structure Plan where
  table0 : CheckedTable
  sigDef0 : List SigDef
  second : Option (CheckedTable × List SigDef)
  deriving DecidableEq, Repr

/-- `tables` of R330 and R350: Table 0, then Table 1 if present. -/
def Plan.tables (v : Plan) : List CheckedTable :=
  match v.second with
  | none => [v.table0]
  | some (t1, _) => [v.table0, t1]

/-- Table 1, if present. -/
def Plan.table1 (v : Plan) : Option CheckedTable := v.second.map Prod.fst

/-- Table 1's definitions, if present. -/
def Plan.sigDef1 (v : Plan) : Option (List SigDef) := v.second.map Prod.snd

/-- The event loop of CheckTableContent (R166), in event order. -/
def checkEvents : List Event → Except Status (List CheckedEvent)
  | [] => .ok []
  | e :: es => do
    let as ← orRaise .nullPtrActions e.actions
    failIf (decide (as.length > Config.maxActions)) .tooManyActions
    let rest ← checkEvents es
    return { absTime := e.absTime, actions := as } :: rest

/-- CheckTableContent (R166). -/
def checkTable (T : TimeTable) : Except Status CheckedTable := do
  failIf (decide (T.length.toNat = 0)) .tableNotWellDefined
  failIf (decide (T.length.toNat > Config.maxEventsSingle)) .tableTooLong
  let E ← orRaise .nullPtrEvents T.events
  let evs ← checkEvents (E.take T.length.toNat)
  return { length := T.length.toNat, execTimeLimit := T.execTimeLimit, events := evs }

/-- The loop of CheckSigDef (R172), in definition order: `lock` is the SPT type expectation. -/
def checkSigDefsFrom : Option U32 → List SigDef → Except Status Unit
  | _, [] => .ok ()
  | lock, d :: ds => do
    failIf (!isSignalType d.signalType) .sigOutTypeWrg
    if isSPT d.outputSignal.toNat then
      failIf (decide (d.signalType ≠ typeToggle ∧ d.signalType ≠ typeLogic)) .sigOutTypeWrg
      match lock with
      | none => checkSigDefsFrom (some d.signalType) ds
      | some ty => do
        failIf (decide (d.signalType ≠ ty)) .sigOutDifType
        checkSigDefsFrom lock ds
    else if isFLEX d.outputSignal.toNat then
      failIf (decide (d.signalType ≠ typeLogic)) .sigOutTypeWrg
      checkSigDefsFrom lock ds
    else checkSigDefsFrom lock ds

/-- CheckSigDef (R172). -/
def checkSigDefs (L : List SigDef) : Except Status Unit := do
  failIf (decide (L.length > Config.maxSigDefs)) .sigDefTooLong
  checkSigDefsFrom none L

/-- CheckMode (R162, R163): the CSI2 selectors are read only in SLAVE_CSI2. -/
def checkMode (par : Params) (p : InitParams) : Except Status Unit := do
  failIf (!isWorkingMode p.workingMode.toNat) .wrgMode
  if p.workingMode.toNat = modeSlaveCsi2 then
    failIf (decide (p.csi2Unit.toNat ≥ par.nCsi2Unit)) .wrgCsi2Unit
    failIf (decide (p.csi2Vc.toNat ≥ par.nCsi2Vc)) .wrgCsi2Vc
  else .ok ()

/-- Either table longer than 32 when there are two (R168). -/
def tooLongDouble (T0 T1 : TimeTable) : Bool :=
  decide (T0.length.toNat > Config.maxEventsDouble ∨ T1.length.toNat > Config.maxEventsDouble)

/-- The second half of Validate (R168–R171): Table 1 with its definitions, or neither. -/
def checkSecond (T0 : TimeTable) (table1 : Option TimeTable) (sigDef1 : Option (List SigDef)) :
    Except Status (Option (CheckedTable × List SigDef)) :=
  match table1 with
  | some T1 => do
    failIf (tooLongDouble T0 T1) .tableTooLongDouble
    let sd1 ← orRaise .nullPtrSigDef1 sigDef1
    checkSigDefs sd1
    let t1 ← checkTable T1
    return some (t1, sd1)
  | none => do
    failIf sigDef1.isSome .wrgPtrSigDef1
    return none

/-- Validate (R161). -/
def validate (par : Params) (p : InitParams) : Except Status Plan := do
  checkMode par p
  failIf (decide (p.clockFreq = 0)) .nullClkFreq
  let T0 ← orRaise .nullPtrTable0 p.table0
  let t0 ← checkTable T0
  let sd0 ← orRaise .nullPtrSigDef0 p.sigDef0
  checkSigDefs sd0
  let second ← checkSecond T0 p.table1 p.sigDef1
  failIf (decide (p.irqEvents ≠ 0) && p.callback.isNone) .nullPtrCallback
  return { table0 := t0, sigDef0 := sd0, second := second }

/-- Table 1 of ValidateTables (R176): length first, then content; the definitions are the snapshots. -/
def checkSecondTable (T0 : TimeTable) (table1 : Option TimeTable) : Except Status (Option CheckedTable) :=
  match table1 with
  | some T1 => do
    failIf (tooLongDouble T0 T1) .tableTooLongDouble
    let t1 ← checkTable T1
    return some t1
  | none => .ok none

/-- ValidateTables (R176). -/
def validateTables (u : UpdateParams) : Except Status (CheckedTable × Option CheckedTable) := do
  let T0 ← orRaise .nullPtrTable0 u.table0
  let t0 ← checkTable T0
  let t1 ← checkSecondTable T0 u.table1
  return (t0, t1)

/-- CheckTable1Presence (R351): Table 1 present or absent as the snapshot of SETUP says. -/
def table1PresenceDiffers (u : UpdateParams) (d : DriverState) : Bool :=
  u.table1.isSome != d.signalDef1.isSome

end Sys2Proof.Machine
end

