-- ==== Sys2Proof/Machine/Divider.lean ====
section
/-! DEFINITION. The main divider (41_clock_solver.md §1): the longest delay between events, and the divider that fits it in
the tick-delta field. -/

namespace Sys2Proof.Machine

/-- The delay of one event after the previous (R201): a decrease is charged with the maximal delay. -/
def eventDelay (prev t : Nat) : Nat := if prev ≤ t then t - prev else Config.maxDelaySentinel

/-- The scan of one table (R201): `prev` is the previous event's time, `maxD` the longest delay so far. -/
def maxDelayFrom : (prev maxD : Nat) → List CheckedEvent → Nat
  | _, maxD, [] => maxD
  | prev, maxD, e :: es => maxDelayFrom e.absTime.toNat (max maxD (eventDelay prev e.absTime.toNat)) es

/-- MaxDelay (R201): every table's times are relative to the trigger, so each scan starts at 0. -/
def maxDelay (tables : List CheckedTable) : Nat :=
  tables.foldl (fun m T => maxDelayFrom 0 m T.events) 0

/-- The ticks of the longest delay at divider 1 (R202). -/
def ticksAtOne (maxD f : Nat) : Nat := mulDiv maxD f 1 Config.nsPerS 1

/-- A main divider the longest delay fits the delta field with (R202). -/
def dividerFits (par : Params) (ticks1 d : Nat) : Bool := decide (ticks1 / d < 2 ^ par.tickDeltaBits - 1)

/-- SelectMainDivider (R202): the smallest of 1..63 that fits, else 63. -/
def selectMainDivider (par : Params) (maxD f : Nat) : Nat :=
  ((List.range' 1 Config.maxMainDiv).find? (dividerFits par (ticksAtOne maxD f))).getD Config.maxMainDiv

/-- ComputeMainDivider (R203): writes S.workingFreq and S.mainClockDivider. -/
def computeMainDivider (tables : List CheckedTable) (f : U32) (s : State) : State :=
  { s with
    drv :=
      { s.drv with
        workingFreq := f
        mainClockDivider := BitVec.ofNat 8 (selectMainDivider s.params (maxDelay tables) f.toNat) } }

/-- A time in ns as ticks (R263, R343): `MulDiv(ns, S.workingFreq, 1, S.mainClockDivider, NS_PER_S)`. -/
def nsToTicks (d : DriverState) (ns : U32) : Nat :=
  mulDiv ns.toNat d.workingFreq.toNat 1 d.mainClockDivider.toNat Config.nsPerS

end Sys2Proof.Machine
end

