-- ==== Sys2Proof/Machine/ClockSolver.lean ====
section
/-! DEFINITION. The clock divider solver (41_clock_solver.md §2) and the per-channel clock select (§3). -/

namespace Sys2Proof.Machine

/-- The periods of one table's Clock entries, in definition order, a zero period raised on the way (R211, R212). -/
def collectFrom : List SigDef → Except Status (List Nat)
  | [] => .ok []
  | d :: ds =>
    if d.signalType = typeClock then do
      failIf (decide (d.clockPeriod = 0)) .nullClkPeriod
      let rest ← collectFrom ds
      return d.clockPeriod.toNat :: rest
    else collectFrom ds

/-- Step 1 (R211): Table 0's periods, then Table 1's. -/
def collectPeriods (sd0 : List SigDef) (sd1 : Option (List SigDef)) : Except Status (List Nat) := do
  let p0 ← collectFrom sd0
  let p1 ← collectFrom (sd1.getD [])
  return p0 ++ p1

/-- Step 2 (R214). -/
def sortAscending (P : List Nat) : List Nat := P.insertionSort (· ≤ ·)

/-- Step 3 (R215): adjacent equal values collapse. -/
def dedupAdjacent : List Nat → List Nat
  | [] => []
  | [p] => [p]
  | p :: q :: r => if p = q then dedupAdjacent (q :: r) else p :: dedupAdjacent (q :: r)

/-- A cluster of periods that share a divider (R216, R217): the smallest merged period, and the representative. -/
structure Cluster where
  low : Nat
  rep : Nat
  deriving DecidableEq, Repr

/-- MergedRepresentative (R218). -/
def mergedRepresentative (rep last : Nat) : Nat := mulDiv rep last Config.mergeNum Config.mergeDen rep

/-- Closing a cluster (R217): the representative is recomputed only if more than one period was merged. -/
def closeCluster (first last k : Nat) : Cluster :=
  { low := first, rep := if k > 1 then mergedRepresentative first last else first }

/-- The merge loop (R217) with a cluster open: `first` is its first period, `last` the last merged, `k` how many. -/
def mergeFrom (first last k : Nat) : List Nat → List Cluster
  | [] => [closeCluster first last k]
  | q :: qs =>
    if q < Config.mergeFactor * first then mergeFrom first q (k + 1) qs
    else closeCluster first last k :: mergeFrom q q 1 qs

/-- Step 5 (R217). -/
def mergeClusters : List Nat → List Cluster
  | [] => []
  | q :: qs => mergeFrom q q 1 qs

/-- Steps 4 and 5 (R216, R217, R219): at most four distinct periods go direct; more are merged, and more than four
clusters are an error. -/
def clustersOf (Q : List Nat) : Except Status (List Cluster) :=
  if Q.length ≤ Config.maxClocks then .ok (Q.map fun q => { low := q, rep := q })
  else if (mergeClusters Q).length > Config.maxClocks then .error .tooManyClocks
  else .ok (mergeClusters Q)

/-- Steps 1 to 5 (R211–R219): no cluster when no output is typed Clock (R213). -/
def solveClusters (sd0 : List SigDef) (sd1 : Option (List SigDef)) : Except Status (List Cluster) := do
  let P ← collectPeriods sd0 sd1
  clustersOf (dedupAdjacent (sortAscending P))

/-- Step 6 (R220): the linear divider of a representative. -/
def linearDivider (rep f : Nat) : Nat := ceilDiv (rep * f) Config.nsPerS

/-- R223: check, then write, cluster by cluster; CLKDIV_{n+1} is field `n`. -/
def writeDividers (f : Nat) : List (Fin 4 × Cluster) → State → Flow
  | [], s => .go s
  | (n, c) :: rest, s =>
    if linearDivider c.rep f > Config.maxClkDiv then .raised .clkDividerError s
    else writeDividers f rest (s.write (.clkDiv n) (clkDivCode s.params (linearDivider c.rep f)))

/-- The clusters with the CLKDIV fields they are assigned in cluster order (R223). -/
def numbered (cs : List Cluster) : List (Fin 4 × Cluster) := (List.finRange 4).zip cs

/-- The entries of a four-entry array with the first ones replaced (R42, R224): later entries keep their values. -/
def storeFirst (vals : List Nat) (a : Vector U32 4) : Vector U32 4 :=
  Vector.ofFn fun j : Fin 4 => match vals[j.val]? with
    | some v => BitVec.ofNat 32 v
    | none => a[j]

/-- Step 7 (R224). -/
def persistClusters (cs : List Cluster) (s : State) : State :=
  { s with
    drv :=
      { s.drv with
        usedClockDividers := BitVec.ofNat 8 cs.length
        clockPeriods := storeFirst (cs.map Cluster.rep) s.drv.clockPeriods
        clusterLow := storeFirst (cs.map Cluster.low) s.drv.clusterLow } }

/-- SolveClocks (R210) at the working frequency: with no clusters it writes nothing (R213). -/
def solveClocks (sd0 : List SigDef) (sd1 : Option (List SigDef)) (s : State) : Flow :=
  match solveClusters sd0 sd1 with
  | .error c => .raised c s
  | .ok [] => .go s
  | .ok cs =>
    (writeDividers s.drv.workingFreq.toNat (numbered cs) s).andThen fun s => .go (persistClusters cs s)

/-- ClusterOf's scan (R226): the last index, from `j` on, whose entry is at most `p`; `acc` is the answer so far. -/
def lastAtMost (p : Nat) : (j acc : Nat) → List U32 → Nat
  | _, acc, [] => acc
  | j, acc, l :: ls => lastAtMost p (j + 1) (if l.toNat ≤ p then j else acc) ls

/-- ClusterOf (R226). -/
def clusterOf (d : DriverState) (p : Nat) : Nat :=
  lastAtMost p 0 0 (d.clusterLow.toList.take d.usedClockDividers.toNat)

/-- One table's CLKSEL value (R227): a later entry for the same output overwrites. -/
def clkSelValue (d : DriverState) (defs : List SigDef) : U32 :=
  defs.foldl
    (fun v x =>
      if x.signalType = typeClock then
        maskedWrite v (mask2 (2 * rel x.outputSignal.toNat))
          (BitVec.ofNat 32 (clusterOf d x.clockPeriod.toNat) <<< (2 * rel x.outputSignal.toNat))
      else v)
    0

/-- Which definitions go to family 1 (R227, R306): Table 0's when it spans both pages, else Table 1's. -/
def secondDefs (sd0 : List SigDef) (sd1 : Option (List SigDef)) (spans : Bool) : Option (List SigDef) :=
  if spans then some sd0 else sd1

/-- ProgramClockSelect (R227): a family with no definitions is written 0. -/
def programClockSelect (sd0 : List SigDef) (sd1 : Option (List SigDef)) (spans : Bool) (s : State) : State :=
  let s := s.write (.clkSel 0) (clkSelValue s.drv sd0)
  s.write (.clkSel 1) (clkSelValue s.drv ((secondDefs sd0 sd1 spans).getD []))

end Sys2Proof.Machine
end

