-- ==== Sys2Proof/Machine/OutputTypes.lean ====
section
/-! DEFINITION. The output-type programmer (43_output_types.md). -/

namespace Sys2Proof.Machine

/-- One definition's write to the families' registers (R301, R303–R305): a FLEX entry and an SPT Logic entry write
nothing. -/
def programType (t : Fin 2) (s : State) (d : SigDef) : State :=
  let e := d.outputSignal.toNat
  if isSPT e then
    if d.signalType = typeToggle then
      s.writeMasked (.sigTypeA t) (mask1 s.params.sptTypeBit.val) (mask1 s.params.sptTypeBit.val)
    else s
  else if isCTEP e then
    s.writeMasked (.sigTypeA t) (mask2 (16 + 2 * (e - 4))) (d.signalType <<< (16 + 2 * (e - 4)))
  else if isRCSRFS e then
    s.writeMasked (.sigTypeB t) (mask2 (2 * (e - 12))) (d.signalType <<< (2 * (e - 12)))
  else s

/-- One family (R301, R302): both registers to all-zero, then every definition in order (R307). -/
def programFamily (t : Fin 2) (defs : List SigDef) (s : State) : State :=
  defs.foldl (programType t) ((s.write (.sigTypeA t) 0).write (.sigTypeB t) 0)

/-- ProgramOutputTypes (R300, R301, R306): a family with no definitions is left at all-zero. -/
def programOutputTypes (sd0 : List SigDef) (sd1 : Option (List SigDef)) (spans : Bool) (s : State) : State :=
  programFamily 1 ((secondDefs sd0 sd1 spans).getD []) (programFamily 0 sd0 s)

end Sys2Proof.Machine
end

