-- ==== Sys2Proof/Machine/TableCompiler.lean ====
section
/-! DEFINITION. The table timing compiler (42_table_compiler.md): the action masks, the tick deltas, and the LUT words. -/

namespace Sys2Proof.Machine

/-! ### Action masks (R255–R262) -/

/-- Lookup (R258): the first definition of an output. -/
def lookupDef (sd : List SigDef) (e : U32) : Option SigDef := sd.find? fun d => decide (d.outputSignal = e)

/-- The mask bit of a FLEX output (R257). -/
def flexBit (par : Params) (e : Nat) : Nat := if e - 14 = 0 then par.flexBit0.val else par.flexBit1.val

/-- What a FLEX action contributes (R257): no lookup, the bit set unless the state is Low. -/
def flexMask (par : Params) (a : Action) : Except Status U64 :=
  if isStateCode a.newState then
    .ok (if a.newState = 0 then 0 else 1#64 <<< flexBit par a.outputSignal.toNat)
  else .error .sigOutStateWrg

/-- The bits of a legal state code on a defined output that is not FLEX (R260–R262): the shared bit for SPT, the 2-bit
field for the others. -/
def codeMask (e : Nat) (v : U32) : U64 :=
  if isSPT e then (if v = 0 then 0 else 1#64 <<< Config.sptMaskBit)
  else v.setWidth 64 <<< (32 + 2 * rel e)

/-- What an action on an SPT, CTEP, RCS or RFS output contributes (R258–R262): lookup first, then the range. -/
def definedMask (sd : List SigDef) (a : Action) : Except Status U64 :=
  match lookupDef sd a.outputSignal with
  | none => .error .sigNotDef
  | some _ => if isStateCode a.newState then .ok (codeMask a.outputSignal.toNat a.newState) else .error .sigOutStateWrg

/-- What one action contributes to its event's mask, or the status it raises (R255). -/
def actionMask (par : Params) (sd : List SigDef) (a : Action) : Except Status U64 :=
  if isFLEX a.outputSignal.toNat then flexMask par a else definedMask sd a

/-- The action loop of ResolveActions (R255), in list order: `mask` is what the earlier actions gave. -/
def resolveFrom (par : Params) (sd : List SigDef) : (mask : U64) → List Action → Except Status U64
  | mask, [] => .ok mask
  | mask, a :: as =>
    match actionMask par sd a with
    | .error c => .error c
    | .ok m => resolveFrom par sd (mask ||| m) as

/-- ResolveActions (R255). -/
def resolveActions (par : Params) (sd : List SigDef) (A : List Action) : Except Status U64 := resolveFrom par sd 0 A

/-! ### Ticks and words (R263–R266) -/

/-- EventTick (R263). -/
def eventTick (d : DriverState) (absTime : U32) : Nat := nsToTicks d absTime

/-- The tick delta (R264): the difference mod 2^32, a zero forced to 1. -/
def tickDelta (prev tick : Nat) : U32 :=
  let delta := BitVec.ofNat 32 tick - BitVec.ofNat 32 prev
  if delta = 0 then 1 else delta

/-- The LSB word of an event's slot (R265). -/
def lsbWord (delta : U32) (mask : U64) : U32 := delta ||| mask.setWidth 32

/-- The MSB word of an event's slot (R266). -/
def msbWord (mask : U64) : U32 := (mask >>> 32).setWidth 32

/-! ### Pages and slots (R251–R254) -/

/-- The LUT page numbered `n`: there are two (R60), and no table reaches past page 1 (R253). -/
def lutPage (n : Nat) : Fin 2 := if n = 0 then 0 else 1

/-- The slot of event `i` (R252): `i mod 32`. -/
def lutSlot (i : Nat) : Fin 32 := Fin.ofNat 32 i

/-- Writes every slot of a page, slot 0 first, with LSB 0 and the MSB word `msb` gives. -/
def State.fillPage (p : Fin 2) (msb : Fin 32 → U32) (s : State) : State :=
  (List.finRange 32).foldl (fun s k => s.writeSlot p k 0 (msb k)) s

/-- InitFirstPage (R251): slot 0 zero, the others DEFAULT. -/
def State.initFirstPage (p : Fin 2) (s : State) : State :=
  s.fillPage p fun k => if k = 0 then 0 else Config.msbDefault

/-- ZeroPage (R253). -/
def State.zeroPage (p : Fin 2) (s : State) : State := s.fillPage p fun _ => 0

/-- The event loop of CompileTable (R254), from event `i` on, `prev` being prevTick (R267): the second page is zeroed just
before event 32, a raised status leaves what has been written (R269). -/
def compileEvents (sd : List SigDef) (p : Nat) : (i prev : Nat) → List CheckedEvent → State → Flow
  | _, _, [], s => .go s
  | i, prev, ev :: evs, s =>
    let s := if i = Config.nSlots then s.zeroPage (lutPage (p + 1)) else s
    match resolveActions s.params sd ev.actions with
    | .error c => .raised c s
    | .ok mask =>
      let tick := eventTick s.drv ev.absTime
      compileEvents sd p (i + 1) tick evs
        (s.writeSlot (lutPage (p + i / Config.nSlots)) (lutSlot i) (lsbWord (tickDelta prev tick) mask) (msbWord mask))

/-- CompileTable (R250, R254) into the page numbered `p`. -/
def compileTable (T : CheckedTable) (sd : List SigDef) (p : Nat) (s : State) : Flow :=
  compileEvents sd p 0 0 T.events (s.initFirstPage (lutPage p))

/-- CompileTables (R270): Table 0 into page 0, then Table 1, if present, into page 1. -/
def compileTables (t0 : CheckedTable) (sd0 : List SigDef) (second : Option (CheckedTable × List SigDef)) (s : State) :
    Flow :=
  match second with
  | none => compileTable t0 sd0 0 s
  | some (t1, sd1) => (compileTable t0 sd0 0 s).andThen (compileTable t1 sd1 1)

/-- `spans` (R271): Table 0 alone, with more than 32 events. -/
def spansBoth (t0 : CheckedTable) (t1 : Option CheckedTable) : Bool :=
  t1.isNone && decide (t0.length > Config.maxEventsDouble)

end Sys2Proof.Machine
end

