-- ==== Sys2Proof/Machine/Programming.lean ====
section
/-! DEFINITION. The register-programming steps SETUP and UPDATE_TABLES share or own: mode (R340), run mode (R342), limits
(R343), timing (R344), interrupts (R346). -/

namespace Sys2Proof.Machine

/-- ProgramMode (R340): the slave fields only in the Slave modes, the CSI2 selectors only in SLAVE_CSI2. -/
def programMode (p : InitParams) (s : State) : State :=
  let s := s.write .mode p.workingMode
  let s :=
    if isSlave p.workingMode.toNat then
      ((s.write .slvRfsSrc p.rfsSource).write .slvRcsSrc p.rcsSource).write .slvDelay p.slaveDelay
    else s
  if p.workingMode.toNat = modeSlaveCsi2 then (s.write .slvCsi2Unit p.csi2Unit).write .slvCsi2Vc p.csi2Vc else s

/-- ProgramRunMode (R342). -/
def programRunMode (t0 : CheckedTable) (t1 : Option CheckedTable) (s : State) : State :=
  s.write .runMode
    (if t1.isSome || decide (t0.length > Config.maxEventsDouble) then runModeTwoTable else runModeOneTable)

/-- LimitTicks (R343): 0 means unlimited. -/
def limitTicks (d : DriverState) (ns : U32) : U32 :=
  if ns = 0 then Config.tlimUnlimited else BitVec.ofNat 32 (nsToTicks d ns)

/-- The value of TLIM[1] (R343). -/
def secondLimit (d : DriverState) (t0 : CheckedTable) (t1 : Option CheckedTable) : U32 :=
  match t1 with
  | some T1 => limitTicks d T1.execTimeLimit
  | none => if spansBoth t0 none then limitTicks d t0.execTimeLimit else Config.tlimUnlimited

/-- ProgramLimits (R343). -/
def programLimits (t0 : CheckedTable) (t1 : Option CheckedTable) (s : State) : State :=
  (s.write (.tlim 0) (limitTicks s.drv t0.execTimeLimit)).write (.tlim 1) (secondLimit s.drv t0 t1)

/-- `REG.DPDIV <- S.mainClockDivider` (R344). -/
def programDpDiv (s : State) : State := s.write .dpDiv (s.drv.mainClockDivider.setWidth 32)

/-- The driver's record of the interrupt request (R346). -/
def storeIrq (p : InitParams) (s : State) : State :=
  { s with drv := { s.drv with requestedIrqEvents := p.irqEvents, callback := p.callback } }

/-- ConfigureInterrupts (R346): the collaborator is asked only when an event is requested. -/
def configureInterrupts (p : InitParams) (s : State) : Flow :=
  if p.irqEvents ≠ 0 then
    let s := s.emit (.registerIrq s.params.irqLine s.params.irqCore s.params.irqPrio)
    if s.env.irqRegOk then .go (storeIrq p (s.write .irqEn p.irqEvents))
    else .raised .irqRegFailed s
  else .go (storeIrq p (s.write .irqEn 0))

end Sys2Proof.Machine
end

