-- ==== Sys2Proof/WellFormed.lean ====
section
/-! DEFINITION. Input well-formedness (R32, I9): the only inputs the spec gives a meaning. -/

namespace Sys2Proof

/-- No action of a list is the terminator (R32, first check). -/
def Action.wf (a : Action) : Bool := decide (a.outputSignal.toNat < Config.nLines)

/-- No definition of a list is the terminator (R32, first check). -/
def SigDef.wf (d : SigDef) : Bool := decide (d.outputSignal.toNat < Config.nLines)

/-- Every action of the event's list is one of the 16 lines. -/
def Event.wf (e : Event) : Bool :=
  match e.actions with
  | none => true
  | some as => as.all Action.wf

/-- The events array is at least as long as `length` says (R32, second check), and its actions are well formed. -/
def TimeTable.wf (t : TimeTable) : Bool :=
  match t.events with
  | none => true
  | some es => decide (t.length.toNat ≤ es.length) && es.all Event.wf

/-- A Signal Definition Table holds no terminator. -/
def sigDefsWf (L : List SigDef) : Bool := L.all SigDef.wf

/-- A NULL pointer is well formed; another is when what it points to is. -/
def optWf {α : Type} (wf : α → Bool) : Option α → Bool
  | none => true
  | some x => wf x

/-- R32 for SETUP's record. -/
def InitParams.wf (p : InitParams) : Bool :=
  optWf TimeTable.wf p.table0 && optWf TimeTable.wf p.table1 && optWf sigDefsWf p.sigDef0 && optWf sigDefsWf p.sigDef1

/-- R32 for UPDATE_TABLES' record. -/
def UpdateParams.wf (u : UpdateParams) : Bool :=
  optWf TimeTable.wf u.table0 && optWf TimeTable.wf u.table1

/-- R32 for a command. -/
def Instr.wf : Instr → Bool
  | .setup p => p.wf
  | .start => true
  | .stop => true
  | .restart => true
  | .rfsGenerate => true
  | .updateTables u => u.wf
  | .getLutChecksum => true

end Sys2Proof
end

