-- ==== Sys2Proof/Machine/Setup.lean ====
section
/-! DEFINITION. SETUP (44_commands.md §2, R330–R349), in the phases its failures fall between (R349). -/

namespace Sys2Proof.Machine

/-- R334–R336: the main divider, the reset pulse, the checksum mode. -/
def setupPrepare (v : Plan) (p : InitParams) (s : State) : State :=
  ((computeMainDivider v.tables p.clockFreq s).pulseReset).write .chksumEn 1

/-- R339–R344: output types, mode, repeat count, run mode, limits, timing mode, data-path divider. -/
def setupProgram (v : Plan) (p : InitParams) (s : State) : State :=
  let spans := spansBoth v.table0 v.table1
  let s := programOutputTypes v.sigDef0 v.sigDef1 spans s
  let s := programMode p s
  let s := s.write .repeatCount p.repeatCount
  let s := programRunMode v.table0 v.table1 s
  let s := programLimits v.table0 v.table1 s
  let s := s.write .timingMode timingRelative
  programDpDiv s

/-- R345: the clock divider solver, then the clock select. -/
def setupClocks (v : Plan) (s : State) : Flow :=
  (solveClocks v.sigDef0 v.sigDef1 s).andThen fun s =>
    .go (programClockSelect v.sigDef0 v.sigDef1 (spansBoth v.table0 v.table1) s)

/-- R347, R348: the snapshots of the definitions, and Initialized. -/
def setupCommit (v : Plan) (s : State) : State :=
  { s with
    drv := { s.drv with signalDef0 := some v.sigDef0, signalDef1 := v.sigDef1, status := .initialized } }

/-- R334–R348: everything past validation and base resolution. -/
def setupRun (v : Plan) (p : InitParams) (s : State) : Flow :=
  (compileTables v.table0 v.sigDef0 v.second (setupPrepare v p s)).andThen fun s =>
    (setupClocks v (setupProgram v p s.snapshotChecksum)).andThen fun s =>
      (configureInterrupts p s).andThen fun s =>
        .go (setupCommit v s)

/-- R331–R333, then the rest: NotInit first, then validation, then the register base. -/
def setupBody (p : InitParams) (s : State) : Flow :=
  let s := s.setStatus .notInit
  match validate s.params p with
  | .error c => .raised c s
  | .ok v =>
    let s := s.emit .resolveBase
    if s.env.baseOk then setupRun v p s else .raised .regBaseNull s

/-- SETUP (R330). A record that breaks R32 is refused. -/
def execSetup (p : InitParams) (s : State) : Host.Outcome State Fault Refusal :=
  if p.wf then .next (runCommand (setupBody p) s) else .refused .illFormedInput

end Sys2Proof.Machine
end

