-- ==== Sys2Proof/Machine/Update.lean ====
section
/-! DEFINITION. UPDATE_TABLES (44_commands.md §3, R350–R359). -/

namespace Sys2Proof.Machine

/-- StopIfRunning (R353). -/
def stopIfRunning (s : State) : State :=
  if s.drv.status = .running then (s.write .ctrlEn 0).setStatus .initialized else s

/-- R353–R355: the stop, the checksum mode, the main divider at the stored frequency. -/
def updatePrepare (tables : List CheckedTable) (s : State) : State :=
  let s := (stopIfRunning s).write .chksumEn 1
  computeMainDivider tables s.drv.workingFreq s

/-- R358, R342–R344: output types from the snapshots, run mode, limits, data-path divider; then Initialized. -/
def updateProgram (t0 : CheckedTable) (t1 : Option CheckedTable) (s : State) : State :=
  let spans := spansBoth t0 t1
  let s := programOutputTypes (s.drv.signalDef0.getD []) s.drv.signalDef1 spans s
  let s := programRunMode t0 t1 s
  let s := programLimits t0 t1 s
  (programDpDiv s).setStatus .initialized

/-- Table 1 with its snapshot definitions (R357). -/
def updateSecond (t1 : Option CheckedTable) (d : DriverState) : Option (CheckedTable × List SigDef) :=
  t1.map fun T => (T, d.signalDef1.getD [])

/-- R353–R359: everything past the checks that write nothing. -/
def updateRun (t0 : CheckedTable) (t1 : Option CheckedTable) (s : State) : Flow :=
  (compileTables t0 (s.drv.signalDef0.getD []) (updateSecond t1 s.drv)
      (updatePrepare (t0 :: t1.toList) s)).andThen fun s =>
    .go (updateProgram t0 t1 s.snapshotChecksum)

/-- UPDATE_TABLES' steps (R350): the guard, the presence of Table 1, the tables, then the run. -/
def updateBody (u : UpdateParams) (s : State) : Flow :=
  (guardInitialized s).andThen fun s =>
    if table1PresenceDiffers u s.drv then .raised .wrgPtrTable1 s
    else
      match validateTables u with
      | .error c => .raised c s
      | .ok (t0, t1) => updateRun t0 t1 s

/-- UPDATE_TABLES (R350). A record that breaks R32 is refused. -/
def execUpdateTables (u : UpdateParams) (s : State) : Host.Outcome State Fault Refusal :=
  if u.wf then .next (runCommand (updateBody u) s) else .refused .illFormedInput

end Sys2Proof.Machine
end

