-- ==== Sys2Proof/Machine/Dispatch.lean ====
section
/-! DEFINITION. exec: one arm per command. -/

namespace Sys2Proof.Machine

def exec (i : Instr) (s : State) : Host.Outcome State Fault Refusal :=
  match i with
  | .setup p => Sys2Proof.Machine.execSetup p s
  | .start => Sys2Proof.Machine.execStart s
  | .stop => Sys2Proof.Machine.execStop s
  | .restart => Sys2Proof.Machine.execRestart s
  | .rfsGenerate => Sys2Proof.Machine.execRfsGenerate s
  | .updateTables u => Sys2Proof.Machine.execUpdateTables u s
  | .getLutChecksum => Sys2Proof.Machine.execGetLutChecksum s

end Sys2Proof.Machine
end

