-- ==== Sys2Proof/Machine/Fetch.lean ====
section
/-! DEFINITION. Taking a command or an interrupt step off the input stream (R30, R140, R320, R413), and placing one
there. -/

namespace Sys2Proof.Machine

/-- What a command at the port does (R320, R365): the decoded command is run; a word that is no command is answered. -/
def runPort (c : Command) (s : State) : Host.Outcome State Fault Refusal :=
  match decode c with
  | .ok i => exec i s
  | .error _ => .next (illegalCommand s)

/-- What the oldest item of the input stream does, in the environment it comes with; with none, the block waits and its
state persists (R426, R450). -/
def serveInput (s : State) : Host.Outcome State Fault Refusal :=
  match s.input with
  | [] => .next s
  | .irqStep env :: rest => .next (irqStep (s.takeInput env rest))
  | .command c env :: rest => runPort c (s.takeInput env rest)

/-- Puts the command of one opcode-table row at the head of the input stream, with records of zeros beside its word and
the environment the state already holds, and sees that the block is not stopped. -/
def placeTableCommand (w : Nat) (s : State) : State :=
  { s with input := .command (tableCommand w) s.env :: s.input, halted := false }

end Sys2Proof.Machine
end

