-- ==== Sys2Proof/Machine/Step.lean ====
section
/-! DEFINITION. The step, and the state in which the next step runs a given command. -/

namespace Sys2Proof.Machine

/-- One step of the machine: the block takes the oldest input (R320). A block that the halt-on-error hook has stopped makes
no step (R409). -/
def step (s : State) : Host.Outcome State Fault Refusal :=
  if s.halted then .fault .haltedOnError else serveInput s

/-- The state in which the very next step runs the command of an opcode-table row: every command word is 32 bits (R143). -/
def State.withFetchWord (s : State) (_nbits w : Nat) : State := placeTableCommand w s

end Sys2Proof.Machine
end

