-- ==== Sys2Proof/Machine/Layout.lean ====
section
/-! DEFINITION. The register image as the 32-bit registers a layout makes of it (REG_LAYOUT, R9, R46, R83–R85, R89): the place of
a field, the masked access a write is, and what a register reads as. The meanings name fields; this is what their accesses
are on a part with the layout of `Params.layout`. -/

namespace Sys2Proof.Machine

/-- reg_of, mask_of and shift_of of a block-written field (R85). -/
def placeOf (l : Layout) : RegField → Place
  | .ctrlEn => l.ctrlEn
  | .ctrlRst => l.ctrlRst
  | .chksumEn => l.chksumEn
  | .mode => l.mode
  | .runMode => l.runMode
  | .timingMode => l.timingMode
  | .dpDiv => l.dpDiv
  | .repeatCount => l.repeatCount
  | .tlim t => l.tlim[t]
  | .slvRfsSrc => l.slvRfsSrc
  | .slvRcsSrc => l.slvRcsSrc
  | .slvDelay => l.slvDelay
  | .slvCsi2Unit => l.slvCsi2Unit
  | .slvCsi2Vc => l.slvCsi2Vc
  | .clkDiv n => l.clkDiv[n]
  | .clkSel t => l.clkSel[t]
  | .sigTypeA t => l.sigTypeA[t]
  | .sigTypeB t => l.sigTypeB[t]
  | .irqEn => l.irqEn
  | .rfsGen => l.rfsGen
  | .lutLsb p s => l.lutLsb[p][s]
  | .lutMsb p s => l.lutMsb[p][s]

/-- reg_of, mask_of and shift_of of a hardware-written field (R84). -/
def hwPlaceOf (l : Layout) : HwField → Place
  | .statusExec => l.statusExec
  | .irqStatus => l.irqStatus
  | .chksumHi => l.chksumHi
  | .chksumLo => l.chksumLo

/-- The width of a block-written field (R47–R62). -/
def fieldBits (par : Params) : RegField → Nat
  | .ctrlEn => 1
  | .ctrlRst => 1
  | .chksumEn => 1
  | .mode => 2
  | .runMode => 1
  | .timingMode => 1
  | .dpDiv => par.mainDivBits
  | .repeatCount => 32
  | .tlim _ => 32
  | .slvRfsSrc => par.slaveFieldBits
  | .slvRcsSrc => par.slaveFieldBits
  | .slvDelay => par.slaveFieldBits
  | .slvCsi2Unit => par.slaveFieldBits
  | .slvCsi2Vc => par.slaveFieldBits
  | .clkDiv _ => par.clkDivBits
  | .clkSel _ => 32
  | .sigTypeA _ => 32
  | .sigTypeB _ => 32
  | .irqEn => par.irqRawBits
  | .rfsGen => 1
  | .lutLsb _ _ => 32
  | .lutMsb _ _ => 32

/-- Every block-written field (R46), once. -/
def allFields : List RegField :=
  [.ctrlEn, .ctrlRst, .chksumEn, .mode, .runMode, .timingMode, .dpDiv, .repeatCount, .slvRfsSrc, .slvRcsSrc, .slvDelay,
    .slvCsi2Unit, .slvCsi2Vc, .irqEn, .rfsGen]
  ++ (List.finRange 4).map RegField.clkDiv
  ++ (List.finRange 2).flatMap (fun t => [.tlim t, .clkSel t, .sigTypeA t, .sigTypeB t])
  ++ (List.finRange 2).flatMap (fun p => (List.finRange 32).flatMap fun s => [.lutLsb p s, .lutMsb p s])

/-- Every hardware-written field (R46). -/
def allHwFields : List HwField := [.statusExec, .irqStatus, .chksumHi, .chksumLo]

/-! ### Accesses -/

/-- One masked access to a 32-bit register: WriteMaskedField's operands (R85), the value already shifted into position. -/
structure Access where
  offset : Nat
  mask : U32
  value : U32
  deriving DecidableEq, Repr

/-- `REG.f <- v` as the access it stands for: `WriteMaskedField(reg_of(f), mask_of(f), v << shift_of(f))` (R85). -/
def accessOf (l : Layout) (f : RegField) (v : U32) : Access :=
  { offset := (placeOf l f).offset, mask := (placeOf l f).mask, value := v <<< (placeOf l f).shift }

/-- The register write an effect is, if it is one. -/
def Effect.access (l : Layout) : Effect → Option Access
  | .write f v => some (accessOf l f v)
  | .resolveBase => none
  | .registerIrq _ _ _ => none
  | .callback _ _ => none

/-- The register writes of the last command, oldest first: the order in which the engine observes them (R91, R92). -/
def State.accesses (s : State) : List Access := s.output.effects.reverse.filterMap (Effect.access s.params.layout)

/-! ### What a register reads as -/

/-- What a hardware-written field reads as, zero-extended to a 32-bit word (R63–R65). -/
def State.readHw (s : State) : HwField → U32
  | .statusExec => s.env.statusExec.setWidth 32
  | .irqStatus => s.irqStatus
  | .chksumHi => s.chksumHi
  | .chksumLo => s.chksumLo

/-- The bits a field with value `v` puts into the register at `off`: those its mask selects (R84, R85). -/
def placed (pl : Place) (off : Nat) (v : U32) : U32 := if pl.offset = off then (v <<< pl.shift) &&& pl.mask else 0

/-- The block-written bits of the register at `off`. -/
def State.blockWord (s : State) (off : Nat) : U32 :=
  allFields.foldl (fun w f => w ||| placed (placeOf s.params.layout f) off (s.regs.read f)) 0

/-- The register at `off`, as it reads now: its block-written and its hardware-written bits, and zeros. -/
def State.word (s : State) (off : Nat) : U32 :=
  allHwFields.foldl (fun w f => w ||| placed (hwPlaceOf s.params.layout f) off (s.readHw f)) (s.blockWord off)

/-- A layout that places the fields of a part with the widths of `par`: no field's mask reaches past its width, and no two
block-written fields share a bit of a register. -/
structure LayoutOk (par : Params) : Prop where
  within : ∀ (f : RegField) (b : Nat), (placeOf par.layout f).mask.getLsbD b = true →
    (placeOf par.layout f).shift ≤ b ∧ b < (placeOf par.layout f).shift + fieldBits par f
  apart : ∀ (f g : RegField) (b : Nat), f ≠ g →
    (placeOf par.layout f).offset = (placeOf par.layout g).offset →
      (placeOf par.layout f).mask.getLsbD b = true → (placeOf par.layout g).mask.getLsbD b = false

end Sys2Proof.Machine
end

