-- ==== Sys2Proof/Safety.lean ====
section
/-! DEFINITION. The terms the claims use: the state machine of R322, the statuses that change no register (R406), the
invariant of a driver that is set up, and what a compiled table leaves in the LUT (R251–R269). -/

namespace Sys2Proof.Machine

/-! ### The state machine (R322) -/

/-- One cell of the table of R322: the command, the driver status before, the status returned, the driver status after. -/
def allowedCell (i : Instr) (before : DrvStatus) (c : Status) (after : DrvStatus) : Bool :=
  match i, before with
  | .setup _, _ => decide (c = .ok ∧ after = .initialized) || (isErrorStatus c && decide (after = .notInit))
  | .updateTables _, .notInit => decide (c = .notInitialized ∧ after = .notInit)
  | .updateTables _, .initialized =>
    decide (c = .ok ∧ after = .initialized) || (isErrorStatus c && decide (after = .initialized))
  | .updateTables _, .running =>
    decide (c = .ok ∧ after = .initialized)
      || decide (statusClass c = .parameter ∧ after = .running)
      || decide (statusClass c = .actionMapping ∧ after = .initialized)
  | .start, .notInit => decide (c = .notInitialized ∧ after = .notInit)
  | .start, .initialized => decide (c = .ok ∧ after = .running)
  | .start, .running => decide ((c = .ok ∨ c = .drvRunning) ∧ after = .running)
  | .stop, .notInit => decide (c = .notInitialized ∧ after = .notInit)
  | .stop, .initialized => decide (c = .notRunning ∧ after = .initialized)
  | .stop, .running => decide (c = .ok ∧ after = .initialized)
  | .restart, .notInit => decide (c = .notInitialized ∧ after = .notInit)
  | .restart, .initialized => decide (c = .notRunning ∧ after = .initialized)
  | .restart, .running => decide (c = .ok ∧ after = .running)
  | .rfsGenerate, .notInit => decide (c = .notInitialized ∧ after = .notInit)
  | .rfsGenerate, .initialized => decide ((c = .notSlaveMode ∨ c = .notRunning) ∧ after = .initialized)
  | .rfsGenerate, .running => decide ((c = .ok ∨ c = .notSlaveMode) ∧ after = .running)
  | .getLutChecksum, before => decide (c = .ok ∧ after = before)

/-! ### Statuses that leave every register unchanged (R403, R406) -/

/-- Classes (a), (c) and (e), REG_BASE_NULL, and the warning: "leave every register unchanged". -/
def leavesRegisters (c : Status) : Bool :=
  decide (statusClass c = .parameter ∨ statusClass c = .state ∨ statusClass c = .command ∨ c = .regBaseNull ∨
    c = .drvRunning)

/-- A register or LUT write is among the effects. -/
def Effect.isWrite : Effect → Bool
  | .write _ _ => true
  | .resolveBase => false
  | .registerIrq _ _ _ => false
  | .callback _ _ => false

/-- A write to a word of the LUT. -/
def Effect.isLutWrite : Effect → Bool
  | .write (.lutLsb _ _) _ => true
  | .write (.lutMsb _ _) _ => true
  | .write _ _ => false
  | .resolveBase => false
  | .registerIrq _ _ _ => false
  | .callback _ _ => false

/-! ### The invariant -/

/-- The snapshot definitions are ones the validator accepts, with no terminator among them (R32, R44, R172). -/
def acceptedDefs (L : List SigDef) : Prop := sigDefsWf L = true ∧ checkSigDefs L = .ok ()

/-- What holds of every state a step can reach from one in which it holds. While the driver is set up: the engine enable
agrees with the driver status, the checksum mode is on, the timing mode is relative, the mode is a working mode, the main
divider is 1..63 at a non-zero frequency, the snapshots are accepted definitions, and the interrupt enable is the request at
its width, with a callback behind it. At all times the fields of an open width fit it, and the solver's cluster count is at
most 4. -/
structure State.Inv (s : State) : Prop where
  engineOff : s.drv.status = .initialized → s.regs.ctrlEn = 0
  engineOn : s.drv.status = .running → s.regs.ctrlEn = 1
  checksumOn : s.drv.status ≠ .notInit → s.regs.chksumEn = 1
  relativeTiming : s.drv.status ≠ .notInit → s.regs.timingMode = 1
  resetLow : s.drv.status ≠ .notInit → s.regs.ctrlRst = 0
  legalMode : s.drv.status ≠ .notInit → s.regs.mode.toNat ≤ 2
  legalDivider : s.drv.status ≠ .notInit → 1 ≤ s.drv.mainClockDivider.toNat ∧ s.drv.mainClockDivider.toNat ≤ 63
  nonZeroFreq : s.drv.status ≠ .notInit → s.drv.workingFreq ≠ 0
  snapshot0 : s.drv.status ≠ .notInit → ∃ L, s.drv.signalDef0 = some L ∧ acceptedDefs L
  snapshot1 : s.drv.status ≠ .notInit → ∀ L, s.drv.signalDef1 = some L → acceptedDefs L
  irqEnabled : s.drv.status ≠ .notInit → s.regs.irqEn = truncBits s.params.irqRawBits s.drv.requestedIrqEvents
  irqCallback : s.drv.status ≠ .notInit → s.drv.requestedIrqEvents ≠ 0 → s.drv.callback ≠ none
  fewClocks : s.drv.usedClockDividers.toNat ≤ 4
  slaveFits :
    truncBits s.params.slaveFieldBits s.regs.slvRfsSrc = s.regs.slvRfsSrc ∧
    truncBits s.params.slaveFieldBits s.regs.slvRcsSrc = s.regs.slvRcsSrc ∧
    truncBits s.params.slaveFieldBits s.regs.slvDelay = s.regs.slvDelay ∧
    truncBits s.params.slaveFieldBits s.regs.slvCsi2Unit = s.regs.slvCsi2Unit ∧
    truncBits s.params.slaveFieldBits s.regs.slvCsi2Vc = s.regs.slvCsi2Vc
  widthsFit :
    truncBits s.params.mainDivBits s.regs.dpDiv = s.regs.dpDiv ∧ truncBits s.params.irqRawBits s.regs.irqEn = s.regs.irqEn ∧
    ∀ n : Fin 4, truncBits s.params.clkDivBits s.regs.clkDiv[n] = s.regs.clkDiv[n]

/-! ### What a compiled table leaves in the LUT -/

/-- The previous tick of event `i` (R267): 0 for the first. -/
def prevTick (d : DriverState) (evs : List CheckedEvent) : Nat → Nat
  | 0 => 0
  | i + 1 => match evs[i]? with
    | some e => eventTick d e.absTime
    | none => 0

/-- The words of event `i` (R263–R266), for an event whose actions resolve. -/
def eventSlot (par : Params) (d : DriverState) (sd : List SigDef) (evs : List CheckedEvent) (i : Nat) : LutSlot :=
  match evs[i]? with
  | none => LutSlot.zero
  | some e =>
    match resolveActions par sd e.actions with
    | .error _ => LutSlot.zero
    | .ok mask =>
      { lsb := lsbWord (tickDelta (prevTick d evs i) (eventTick d e.absTime)) mask, msb := msbWord mask }

/-- The pattern a first-page slot has before the events (R251). -/
def initialSlot (k : Nat) : LutSlot := if k = 0 then LutSlot.zero else { lsb := 0, msb := Config.msbDefault }

/-- Slot `k` of page `q` once the first `n` events of a table for page `p` have been written over the LUT `base`:
`zeroed` says that the second page has been zeroed for them (R251–R254). -/
def slotAfter (par : Params) (d : DriverState) (sd : List SigDef) (evs : List CheckedEvent) (base : Lut) (p : Nat)
    (n : Nat) (zeroed : Bool) (q : Fin 2) (k : Fin 32) : LutSlot :=
  if q = lutPage p then (if k.val < n then eventSlot par d sd evs k.val else initialSlot k.val)
  else if zeroed then (if k.val + 32 < n then eventSlot par d sd evs (k.val + 32) else LutSlot.zero)
  else lutAt base q k

/-- Every event's actions resolve with these definitions (no status is raised, R255). -/
def allResolve (par : Params) (sd : List SigDef) (evs : List CheckedEvent) : Prop :=
  ∀ e ∈ evs, ∃ mask, resolveActions par sd e.actions = .ok mask

end Sys2Proof.Machine
end

