-- ==== Sys2Proof/Certificates/Slice0/Obligations.lean ====
section
/-! DEFINITION. The statements for the provers. Each docstring names the rule of spec/ it formalises. The terms come from
Sys2Proof/Safety.lean and from the helpers below, which are written from the spec and not from the model's own operations
wherever the rule gives the values outright. -/

namespace Sys2Proof.Claims

open Sys2Proof.Machine

/-! ### Terms -/

/-- The state `s` once a command has returned `c` and the checksum result `ck`, having done `effects` (newest first):
with HALT_ON_ERROR an error status leaves the block stuck (R401, R409). -/
def returned (c : Status) (ck : Option U64) (effects : List Effect) (s : State) : State :=
  { s with
    output := { status := some c, checksum := ck, effects := effects }
    halted := s.halted || (s.params.haltOnError && isErrorStatus c) }

/-- `s` with the driver status `d`. -/
def withStatus (d : DrvStatus) (s : State) : State := { s with drv := { s.drv with status := d } }

/-- `s` with the engine enable `v`. -/
def withEnable (v : BitVec 1) (s : State) : State := { s with regs := { s.regs with ctrlEn := v } }

/-- The port carries command `i` (R140, R141): the word is its opcode, and its record, if it takes one, is beside it.
-/
def portCarries (c : Command) : Instr → Prop
  | .setup p => c.word.toNat = 1 ∧ c.init = p
  | .start => c.word.toNat = 2
  | .stop => c.word.toNat = 3
  | .restart => c.word.toNat = 4
  | .rfsGenerate => c.word.toNat = 5
  | .updateTables u => c.word.toNat = 6 ∧ c.update = u
  | .getLutChecksum => c.word.toNat = 7

/-- A reserved or illegal word (R142, R365): a bit of 31:4 is set, or the opcode is 0x0 or 0x8..0xF. -/
def illegalWord (w : U32) : Prop := w.toNat / 16 ≠ 0 ∨ w.toNat % 16 = 0 ∨ 8 ≤ w.toNat % 16

/-- What GET_LUT_CHECKSUM and the snapshots read (R63, R82, R338): the LUT's checksum while the checksum mode is on,
else what the hardware drives. -/
def checksumOf (s : State) : U64 :=
  if s.regs.chksumEn = 1 then (Config.lutChecksum s.regs.lut).setWidth 64
  else (s.env.chksumHi.setWidth 8 ++ s.env.chksumLo).setWidth 64

/-- Slot `k` of the first page of a table (R251, R254): its event's words, or the initial pattern. -/
def firstPageSlot (par : Params) (d : DriverState) (sd : List SigDef) (evs : List CheckedEvent) (k : Fin 32) : LutSlot :=
  if k.val < evs.length then eventSlot par d sd evs k.val else initialSlot k.val

/-- Slot `k` of the second page of a spanning table (R252, R253): its event's words, or zero. -/
def secondPageSlot (par : Params) (d : DriverState) (sd : List SigDef) (evs : List CheckedEvent) (k : Fin 32) : LutSlot :=
  if k.val + 32 < evs.length then eventSlot par d sd evs (k.val + 32) else { lsb := 0, msb := 0 }

/-- The slot a reset pulse drew (R451), the `n`-th. -/
def drawnSlot (n : Nat) (q : Fin 2) (k : Fin 32) : LutSlot :=
  { lsb := Config.pulseDraw n (.lutLsb q k), msb := Config.pulseDraw n (.lutMsb q k) }

/-- A status that a condition raises. -/
def raisedWhen (bad : Prop) [Decidable bad] (c : Status) : Option Status := if bad then some c else none

/-- The status a check raises, if it does. -/
def faultOf {α : Type} : Except Status α → Option Status
  | .error c => some c
  | .ok _ => none

/-- The first fault of a list of checks made in this order (R160). -/
def firstFault (checks : List (Option Status)) : Option Status := checks.findSome? id

/-- The checks of Validate, in the order of R161; a check of what is behind a NULL pointer raises nothing itself. -/
def validateChecks (par : Params) (p : InitParams) : List (Option Status) :=
  [faultOf (checkMode par p),
    raisedWhen (p.clockFreq = 0) .nullClkFreq,
    raisedWhen (p.table0 = none) .nullPtrTable0,
    p.table0.bind fun T => faultOf (checkTable T),
    raisedWhen (p.sigDef0 = none) .nullPtrSigDef0,
    p.sigDef0.bind fun L => faultOf (checkSigDefs L)] ++
  (match p.table1 with
   | some T1 =>
     [raisedWhen (32 < T1.length.toNat ∨ ∃ T0 ∈ p.table0, 32 < T0.length.toNat) .tableTooLongDouble,
       raisedWhen (p.sigDef1 = none) .nullPtrSigDef1,
       p.sigDef1.bind fun L => faultOf (checkSigDefs L),
       faultOf (checkTable T1)]
   | none => [raisedWhen (p.sigDef1 ≠ none) .wrgPtrSigDef1]) ++
  [raisedWhen (p.irqEvents ≠ 0 ∧ p.callback = none) .nullPtrCallback]

/-- The checks of ValidateTables, in the order of R176. -/
def validateTablesChecks (u : UpdateParams) : List (Option Status) :=
  [raisedWhen (u.table0 = none) .nullPtrTable0,
    u.table0.bind fun T => faultOf (checkTable T)] ++
  (match u.table1 with
   | some T1 =>
     [raisedWhen (32 < T1.length.toNat ∨ ∃ T0 ∈ u.table0, 32 < T0.length.toNat) .tableTooLongDouble,
       faultOf (checkTable T1)]
   | none => [])

/-- Why the definition `d` is not acceptable after the definitions `done` (R172): its type is none, or none of its
output's; or it differs in type from an SPT entry before it. -/
def sigDefFault (done : List SigDef) (d : SigDef) : Option Status :=
  if 3 < d.signalType.toNat then some .sigOutTypeWrg
  else if d.outputSignal.toNat ≤ 3 ∧ d.signalType ≠ 1 ∧ d.signalType ≠ 3 then some .sigOutTypeWrg
  else if d.outputSignal.toNat ≤ 3 ∧ ∃ x ∈ done, x.outputSignal.toNat ≤ 3 ∧ x.signalType ≠ d.signalType then
    some .sigOutDifType
  else if 14 ≤ d.outputSignal.toNat ∧ d.signalType ≠ 3 then some .sigOutTypeWrg
  else none

/-- The table of R402: code, status, class. -/
def statusTable : List (Nat × Status × StatusClass) :=
  [(0x00, .ok, .success), (0x01, .drvRunning, .warning), (0x02, .notInitialized, .state), (0x03, .notRunning, .state),
    (0x04, .notSlaveMode, .state), (0x05, .illegalCommand, .command), (0x10, .wrgMode, .parameter),
    (0x11, .wrgCsi2Unit, .parameter), (0x12, .wrgCsi2Vc, .parameter), (0x13, .nullClkFreq, .parameter),
    (0x14, .nullPtrTable0, .parameter), (0x15, .tableNotWellDefined, .parameter), (0x16, .tableTooLong, .parameter),
    (0x17, .nullPtrEvents, .parameter), (0x18, .nullPtrActions, .parameter), (0x19, .tooManyActions, .parameter)] ++
  [(0x1A, .nullPtrSigDef0, .parameter), (0x1B, .nullPtrSigDef1, .parameter), (0x1C, .wrgPtrSigDef1, .parameter),
    (0x1D, .tableTooLongDouble, .parameter), (0x1E, .sigDefTooLong, .parameter), (0x1F, .sigOutTypeWrg, .parameter),
    (0x20, .sigOutDifType, .parameter), (0x21, .nullPtrCallback, .parameter), (0x22, .wrgPtrTable1, .parameter),
    (0x30, .regBaseNull, .platform), (0x31, .irqRegFailed, .platform), (0x40, .nullClkPeriod, .resource),
    (0x41, .tooManyClocks, .resource), (0x42, .clkDividerError, .resource), (0x50, .sigNotDef, .actionMapping),
    (0x51, .sigOutStateWrg, .actionMapping)]

/-- The interrupt-registration collaborator was called (R425). -/
def isRegistration : Effect → Bool
  | .registerIrq _ _ _ => true
  | .write _ _ => false
  | .resolveBase => false
  | .callback _ _ => false

/-- The two conditions on a SETUP's action lists: no action is undefined or out of range (R255). -/
def planResolves (par : Params) (v : Plan) : Prop :=
  allResolve par v.sigDef0 v.table0.events ∧ ∀ T L, v.second = some (T, L) → allResolve par L T.events

/-- A SETUP of `p` in `s` gets as far as the compiler: `v` is what the validator read from it. -/
structure SetupCompiles (p : InitParams) (s : State) (v : Plan) : Prop where
  wellFormed : p.wf = true
  valid : validate s.params p = .ok v
  base : s.env.baseOk = true

/-- It gets as far as the clock solver. -/
structure SetupSolves (p : InitParams) (s : State) (v : Plan) : Prop extends SetupCompiles p s v where
  resolves : planResolves s.params v

/-- Everything a SETUP of `p` needs to succeed in `s`, as conditions on the operand and the state alone: `cs` are the
clusters the solver found. -/
structure SetupPasses (p : InitParams) (s : State) (v : Plan) (cs : List Cluster) : Prop extends SetupSolves p s v where
  clocks : solveClusters v.sigDef0 v.sigDef1 = .ok cs
  dividers : ∀ c ∈ cs, linearDivider c.rep p.clockFreq.toNat ≤ 192
  irq : p.irqEvents ≠ 0 → s.env.irqRegOk = true

/-- An UPDATE_TABLES of `u` in `s` gets as far as the compiler: `t0`, `t1` are the validated tables, `L0`, `L1` the
snapshot definitions they are compiled with. -/
structure UpdateCompiles (u : UpdateParams) (s : State) (t0 : CheckedTable) (t1 : Option CheckedTable)
    (L0 L1 : List SigDef) : Prop where
  wellFormed : u.wf = true
  setUp : s.drv.status ≠ .notInit
  presence : u.table1.isSome = s.drv.signalDef1.isSome
  valid : validateTables u = .ok (t0, t1)
  snapshot0 : s.drv.signalDef0 = some L0
  snapshot1 : t1.isSome = true → s.drv.signalDef1 = some L1

/-- Everything it needs to succeed. -/
structure UpdatePasses (u : UpdateParams) (s : State) (t0 : CheckedTable) (t1 : Option CheckedTable)
    (L0 L1 : List SigDef) : Prop extends UpdateCompiles u s t0 t1 L0 L1 where
  resolves0 : allResolve s.params L0 t0.events
  resolves1 : ∀ T, t1 = some T → allResolve s.params L1 T.events

/-- The Driver State of a SETUP that has raised a status (R349): NotInit, with the frequency and the divider of R334. -/
def failedSetupDriver (p : InitParams) (s : State) (v : Plan) : DriverState :=
  { s.drv with
    status := .notInit
    workingFreq := p.clockFreq
    mainClockDivider := BitVec.ofNat 8 (selectMainDivider s.params (maxDelay v.tables) p.clockFreq.toNat) }

/-- `t` is where a SETUP stopped in the compiler with the status `c` (R349, first rows): no checksum, the Driver State of
`failedSetupDriver`, and of the registers only the pulse, the checksum mode and the LUT have been written. -/
structure SetupStopped (p : InitParams) (s : State) (v : Plan) (c : Status) (t : State) : Prop where
  runs : exec (.setup p) s = .next t
  status : t.output.status = some c
  checksum : t.output.checksum = none
  driver : t.drv = failedSetupDriver p s v
  registers : t.regs =
    { RegImage.drawn s.params (Config.pulseDraw s.draws) with
      ctrlEn := 0, ctrlRst := 0, chksumEn := 1, lut := t.regs.lut }

/-- `t` is where an UPDATE_TABLES stopped in the compiler with the status `c` (R353–R357): no checksum, Initialized with a
running engine stopped, the divider of R355, and of the other registers only the checksum mode and the LUT written. -/
structure UpdateStopped (u : UpdateParams) (s : State) (t0 : CheckedTable) (t1 : Option CheckedTable) (c : Status)
    (t : State) : Prop where
  runs : exec (.updateTables u) s = .next t
  status : t.output.status = some c
  checksum : t.output.checksum = none
  driver : t.drv =
    { s.drv with
      status := .initialized
      mainClockDivider :=
        BitVec.ofNat 8 (selectMainDivider s.params (maxDelay (t0 :: t1.toList)) s.drv.workingFreq.toNat) }
  registers : t.regs =
    { s.regs with
      ctrlEn := if s.drv.status = .running then 0 else s.regs.ctrlEn, chksumEn := 1, lut := t.regs.lut }

/-- A time limit as the limit registers hold it (R343): 0 is unlimited, else ns to ticks by the 64-bit helper. -/
def limitOf (f d : Nat) (ns : U32) : U32 :=
  if ns = 0 then 0xFFFFFFFF#32 else BitVec.ofNat 32 (ns.toNat * f % 2 ^ 64 / d / 1000000000)

/-- Why one event's action pointer or list is not acceptable (R166). -/
def eventFault (e : Event) : Option Status :=
  match e.actions with
  | none => some .nullPtrActions
  | some as => if 16 < as.length then some .tooManyActions else none

/-- The delays of one table (R201): each event's time after the previous one's, from 0, a decrease charged with the
maximal delay. -/
def delaysFrom : Nat → List CheckedEvent → List Nat
  | _, [] => []
  | prev, e :: es =>
    (if prev ≤ e.absTime.toNat then e.absTime.toNat - prev else 0xFFFFFFFF) :: delaysFrom e.absTime.toNat es

/-- An action's output has a definition (R258). -/
def isDefined (sd : List SigDef) (a : Action) : Prop := ∃ d ∈ sd, d.outputSignal = a.outputSignal

/-- Why an action is not resolved (R255, R257–R259): a FLEX action only for its state; another first for a missing
definition, then for its state. -/
def actionFault (sd : List SigDef) (a : Action) (c : Status) : Prop :=
  if 14 ≤ a.outputSignal.toNat then c = .sigOutStateWrg ∧ 3 < a.newState.toNat
  else (c = .sigNotDef ∧ ¬ isDefined sd a) ∨ (c = .sigOutStateWrg ∧ isDefined sd a ∧ 3 < a.newState.toNat)

/-- Bit `b` of the mask is set by action `a` (R119): SPT's shared bit, the 2-bit field of CTEP, RCS and RFS, the FLEX
bits. -/
def setsMaskBit (par : Params) (a : Action) (b : Nat) : Prop :=
  let e := a.outputSignal.toNat
  if e ≤ 3 then a.newState ≠ 0 ∧ b = 28
  else if e ≤ 13 then (b = 32 + 2 * (e - 4) ∧ a.newState.getLsbD 0 = true) ∨
    (b = 32 + 2 * (e - 4) + 1 ∧ a.newState.getLsbD 1 = true)
  else if e = 14 then a.newState ≠ 0 ∧ b = par.flexBit0.val
  else a.newState ≠ 0 ∧ b = par.flexBit1.val

/-- The type of the LAST definition of output `e`, HiZ (0) with none (R302, R307). -/
def lastType (defs : List SigDef) (e : Nat) : U32 :=
  ((defs.filter fun d => decide (d.outputSignal.toNat = e)).getLast?.map SigDef.signalType).getD 0

/-- The period of the LAST Clock definition of output `e` (R227). -/
def lastClockPeriod (defs : List SigDef) (e : Nat) : Option Nat :=
  (defs.filter fun d => decide (d.outputSignal.toNat = e ∧ d.signalType.toNat = 2)).getLast?.map fun d =>
    d.clockPeriod.toNat

/-- The definitions table slot `q` is programmed with (R301, R306, R227, R358): Table 0's for slot 0; for slot 1 Table
1's, or Table 0's again when Table 0 alone, of `n0` events, spans both pages, or none. -/
def slotDefinitions (sd0 : List SigDef) (sd1 : Option (List SigDef)) (n0 : Nat) (q : Fin 2) : List SigDef :=
  if q = 0 then sd0
  else match sd1 with
    | some L => L
    | none => if 32 < n0 then sd0 else []

/-- The definition `d` writes bit `b` of SIGTYPE[q].A (R126, R303, R304): an SPT entry typed Toggle the SPT type bit; a
CTEP entry the 2-bit field of its output, from bit 16 up. -/
def writesTypeBit (par : Params) (b : Nat) (d : SigDef) : Bool :=
  decide ((d.outputSignal.toNat ≤ 3 ∧ d.signalType = 1 ∧ b = par.sptTypeBit.val) ∨
    (4 ≤ d.outputSignal.toNat ∧ d.outputSignal.toNat ≤ 11 ∧
      (b = 16 + 2 * (d.outputSignal.toNat - 4) ∨ b = 17 + 2 * (d.outputSignal.toNat - 4))))

/-- Bit `b` of SIGTYPE[q].A for the definitions `defs` (R302, R307), wherever the SPT type bit lies: what the LAST
definition that writes the bit writes there, 1 for SPT and a bit of the type for CTEP; 0 when none writes it. -/
def sigTypeBitA (par : Params) (defs : List SigDef) (b : Nat) : Bool :=
  match (defs.filter (writesTypeBit par b)).getLast? with
  | some d => if d.outputSignal.toNat ≤ 3 then true else d.signalType.getLsbD (b % 2)
  | none => false

/-- Bit `b` of SIGTYPE[q].B (R127, R302, R305, R307): the fields of RCS and RFS, and zeros. -/
def sigTypeBitB (defs : List SigDef) (b : Nat) : Bool := decide (b < 4) && (lastType defs (12 + b / 2)).getLsbD (b % 2)

/-- Bit `b` of CLKSEL[q] (R128, R227): each output's 2-bit field holds the cluster of its last Clock definition. -/
def clkSelBit (d : DriverState) (defs : List SigDef) (b : Nat) : Bool :=
  decide (b < 20) &&
    match lastClockPeriod defs (4 + b / 2) with
    | some p => (clusterOf d p).testBit (b % 2)
    | none => false

/-- The codes of the CLKDIV table of R222. -/
def clkDivCodeOf (div : Nat) : Nat :=
  if div ≤ 1 then 0 else if div ≤ 3 then 1 else if div ≤ 6 then 2 else if div ≤ 13 then 3 else if div ≤ 26 then 4
  else if div ≤ 53 then 5 else if div ≤ 106 then 6 else 7

/-! ### What a SETUP of `p`, read as `v`, leaves behind once its programming steps are done (R335–R344) -/

/-- The control, mode, repeat, run mode, limit, timing and divider fields (R335, R336, R340–R344). -/
structure SetupFields (p : InitParams) (v : Plan) (t : State) : Prop where
  ctrlEn : t.regs.ctrlEn = 0
  ctrlRst : t.regs.ctrlRst = 0
  chksumEn : t.regs.chksumEn = 1
  timingMode : t.regs.timingMode = 1
  mode : t.regs.mode.toNat = p.workingMode.toNat
  repeatCount : t.regs.repeatCount = p.repeatCount
  dpDiv : t.regs.dpDiv.toNat = t.drv.mainClockDivider.toNat % 2 ^ t.params.mainDivBits
  runMode : t.regs.runMode = (if p.table1 ≠ none ∨ 32 < v.table0.length then 1 else 0)
  tlim0 : t.regs.tlim[0] = limitOf p.clockFreq.toNat t.drv.mainClockDivider.toNat v.table0.execTimeLimit
  tlim1 : t.regs.tlim[1] =
    (match v.second with
     | some (T1, _) => limitOf p.clockFreq.toNat t.drv.mainClockDivider.toNat T1.execTimeLimit
     | none =>
       if 32 < v.table0.length then limitOf p.clockFreq.toNat t.drv.mainClockDivider.toNat v.table0.execTimeLimit
       else 0xFFFFFFFF#32)

/-- The slave fields (R340): those of the mode truncated to SLAVE_FIELD_BITS, the others as the pulse drew them (R451). -/
structure SetupSlaveFields (p : InitParams) (s t : State) : Prop where
  sources : p.workingMode.toNat = 1 ∨ p.workingMode.toNat = 2 →
    t.regs.slvRfsSrc.toNat = p.rfsSource.toNat % 2 ^ s.params.slaveFieldBits ∧
    t.regs.slvRcsSrc.toNat = p.rcsSource.toNat % 2 ^ s.params.slaveFieldBits ∧
    t.regs.slvDelay.toNat = p.slaveDelay.toNat % 2 ^ s.params.slaveFieldBits
  selectors : p.workingMode.toNat = 2 →
    t.regs.slvCsi2Unit.toNat = p.csi2Unit.toNat % 2 ^ s.params.slaveFieldBits ∧
    t.regs.slvCsi2Vc.toNat = p.csi2Vc.toNat % 2 ^ s.params.slaveFieldBits
  sourcesFree : p.workingMode.toNat = 0 →
    t.regs.slvRfsSrc = truncBits s.params.slaveFieldBits (Config.pulseDraw s.draws .slvRfsSrc) ∧
    t.regs.slvRcsSrc = truncBits s.params.slaveFieldBits (Config.pulseDraw s.draws .slvRcsSrc) ∧
    t.regs.slvDelay = truncBits s.params.slaveFieldBits (Config.pulseDraw s.draws .slvDelay)
  selectorsFree : p.workingMode.toNat ≠ 2 →
    t.regs.slvCsi2Unit = truncBits s.params.slaveFieldBits (Config.pulseDraw s.draws .slvCsi2Unit) ∧
    t.regs.slvCsi2Vc = truncBits s.params.slaveFieldBits (Config.pulseDraw s.draws .slvCsi2Vc)

/-- The LUT, slot by slot (R251–R254, R270, R451). -/
structure SetupLut (s : State) (v : Plan) (t : State) : Prop where
  page0 : ∀ k, lutAt t.regs.lut 0 k = firstPageSlot s.params t.drv v.sigDef0 v.table0.events k
  second : ∀ T L, v.second = some (T, L) → ∀ k, lutAt t.regs.lut 1 k = firstPageSlot s.params t.drv L T.events k
  spanning : v.second = none → 32 < v.table0.events.length →
    ∀ k, lutAt t.regs.lut 1 k = secondPageSlot s.params t.drv v.sigDef0 v.table0.events k
  free : v.second = none → v.table0.events.length ≤ 32 → ∀ k, lutAt t.regs.lut 1 k = drawnSlot s.draws 1 k

/-- The signal-type registers, bit by bit, for the definitions each table slot is programmed with. -/
def HoldsTypes (par : Params) (defs : Fin 2 → List SigDef) (r : RegImage) : Prop :=
  ∀ (q : Fin 2) (b : Nat), b < 32 →
    (r.sigTypeA[q]).getLsbD b = sigTypeBitA par (defs q) b ∧ (r.sigTypeB[q]).getLsbD b = sigTypeBitB (defs q) b

/-- CLKDIV_n holds the code of the n-th of the clusters `cs`, and past them what the pulse drew (R223, R451). -/
def HoldsDividers (f : Nat) (cs : List Cluster) (s : State) (r : RegImage) : Prop :=
  (∀ (n : Fin 4) (c : Cluster), cs[n.val]? = some c →
    r.clkDiv[n] = truncBits s.params.clkDivBits (clkDivCode s.params (linearDivider c.rep f))) ∧
  ∀ n : Fin 4, cs.length ≤ n.val → r.clkDiv[n] = truncBits s.params.clkDivBits (Config.pulseDraw s.draws (.clkDiv n))

/-- Everything the steps before the clock solver leave, which a failure from there on keeps (R349, third row). -/
structure SetupProgrammed (p : InitParams) (s : State) (v : Plan) (t : State) : Prop where
  fields : SetupFields p v t
  slaves : SetupSlaveFields p s t
  lut : SetupLut s v t
  types : HoldsTypes s.params (slotDefinitions v.sigDef0 v.sigDef1 v.table0.length) t.regs
  checksum : t.output.checksum = some ((Config.lutChecksum t.regs.lut).setWidth 64)

end Sys2Proof.Claims

open Sys2Proof Sys2Proof.Machine Sys2Proof.Claims

/-! ### The command word, and the step -/

/-- R141, the opcode map: each of the seven words, written out, is its command. -/
def Obligations.SevenWordsDecodeAsTheMapSays : Prop :=
  ∀ (p : InitParams) (u : UpdateParams),
    decode ⟨0b00000000000000000000000000000001#32, p, u⟩ = .ok (.setup p) ∧
    decode ⟨0b00000000000000000000000000000010#32, p, u⟩ = .ok .start ∧
    decode ⟨0b00000000000000000000000000000011#32, p, u⟩ = .ok .stop ∧
    decode ⟨0b00000000000000000000000000000100#32, p, u⟩ = .ok .restart ∧
    decode ⟨0b00000000000000000000000000000101#32, p, u⟩ = .ok .rfsGenerate ∧
    decode ⟨0b00000000000000000000000000000110#32, p, u⟩ = .ok (.updateTables u) ∧
    decode ⟨0b00000000000000000000000000000111#32, p, u⟩ = .ok .getLutChecksum

/-- R141: "The command word of opcode OP is exactly `OP`": every port content decodes to the command it carries and to
nothing else, and what the encoder puts at the port is read back, with every operand. -/
def Obligations.DecodeReadsExactlyWhatThePortCarries : Prop :=
  (∀ (c : Command) (i : Instr), decode c = .ok i ↔ portCarries c i) ∧ ∀ i : Instr, decode (encode i) = .ok i

/-- R142: a word the opcode map does not list is rejected, by the name of what is wrong with it: the bits 31:4 first.
-/
def Obligations.OtherWordsAreRejectedByName : Prop :=
  ∀ c : Command,
    (illegalWord c.word ↔ ∃ e, decode c = .error e) ∧
    (c.word.toNat / 16 ≠ 0 ↔ ∃ b, decode c = .error (.reservedBits b)) ∧
    ∀ b, decode c = .error (.reservedBits b) → b.toNat = c.word.toNat / 16

/-- R365: a reserved or illegal word returns ILLEGAL_COMMAND and no checksum, and writes nothing. That the item of the
stream is consumed and answered like a command, and that with HALT_ON_ERROR such a word halts the block (R403, R409), is
the model's reading (DEDUCED: notes/assumptions/8.md, 7.md). -/
def Obligations.IllegalWordIsAnsweredAndWritesNothing : Prop :=
  ∀ (s : State) (c : Command) (env : Env) (rest : List InputItem),
    s.halted = false → s.input = .command c env :: rest → illegalWord c.word →
      step s = .next (returned .illegalCommand none [] { s with env := env, input := rest })

/-- R320: a command at the head of the input stream is run, in the environment it comes with, as exec of the command
its word decodes to; the item is consumed, and nothing else is done around it. R426, R450: with no input the block waits,
its state unchanged. The stream is the model's: notes/assumptions/8.md. -/
def Obligations.StepRunsTheDecodedCommandOrWaits : Prop :=
  (∀ (s : State) (c : Command) (env : Env) (rest : List InputItem) (i : Instr),
    s.halted = false → s.input = .command c env :: rest → decode c = .ok i →
      step s = exec i { s with env := env, input := rest }) ∧
  ∀ s : State, s.halted = false → s.input = [] → step s = .next s

/-- R411: IrqStep writes no block state; it calls the application back with the raw status AND the requested events,
even when that is 0, exactly when events were requested, a callback is known and the driver is set up. That it is an item
of the input stream is the model's reading (DEDUCED: notes/assumptions/13.md, 8.md), and so is that it empties the held
status and checksum (DESIGN CHOICE: notes/assumptions/18.md). -/
def Obligations.IrqStepCallsTheApplicationBack : Prop :=
  ∀ (s : State) (env : Env) (rest : List InputItem),
    s.halted = false → s.input = .irqStep env :: rest →
      step s = .next
        { s with
          env := env
          input := rest
          output :=
            { status := none
              checksum := none
              effects :=
                if s.drv.requestedIrqEvents ≠ 0 ∧ s.drv.status ≠ .notInit then
                  match s.drv.callback with
                  | some cb => [.callback cb (truncBits s.params.irqRawBits env.irqStatus &&& s.drv.requestedIrqEvents)]
                  | none => []
                else [] } }

/-- R409: with HALT_ON_ERROR an error status leaves the block stuck, and a stuck block makes no step; without it, or
with OK or DRV_RUNNING, it does not; the default is false. -/
def Obligations.HaltOnErrorStopsTheBlock : Prop :=
  (∀ (i : Instr) (s t : State) (c : Status), exec i s = .next t → t.output.status = some c →
      t.halted = (s.halted || (s.params.haltOnError && decide (c ≠ .ok ∧ c ≠ .drvRunning)))) ∧
    (∀ s : State, s.halted = true → step s = .fault .haltedOnError) ∧ State.reset.params.haltOnError = false

/-! ### START, STOP, RESTART, RFS_GENERATE, GET_LUT_CHECKSUM -/

/-- R323: in NotInit the five guarded commands return NOT_INITIALIZED and write nothing. -/
def Obligations.GuardedCommandsRefuseBeforeSetup : Prop :=
  ∀ (i : Instr) (s : State), s.drv.status = .notInit →
    (i = .start ∨ i = .stop ∨ i = .restart ∨ i = .rfsGenerate ∨ ∃ u, i = .updateTables u ∧ u.wf = true) →
      exec i s = .next (returned .notInitialized none [] s)

/-- R360: START returns NOT_INITIALIZED in NotInit; from Initialized it writes CTRL_EN = 1, goes to Running and
returns OK; from Running it returns DRV_RUNNING with no state change while the engine reports that it still executes,
and otherwise re-arms it, CTRL_EN 0 then 1, and returns OK. Nothing else changes. -/
def Obligations.StartEnablesTheEngine : Prop :=
  ∀ s : State,
    exec .start s = .next
      (match s.drv.status with
       | .notInit => returned .notInitialized none [] s
       | .initialized => returned .ok none [.write .ctrlEn 1] (withStatus .running (withEnable 1 s))
       | .running =>
         if s.env.statusExec = 1 then returned .drvRunning none [] s
         else returned .ok none [.write .ctrlEn 1, .write .ctrlEn 0] (withEnable 1 s))

/-- R361: STOP returns NOT_INITIALIZED in NotInit and NOT_RUNNING in Initialized, changing nothing; from Running it
writes CTRL_EN = 0, goes to Initialized and returns OK. Nothing else changes. -/
def Obligations.StopDisablesTheEngine : Prop :=
  ∀ s : State,
    exec .stop s = .next
      (match s.drv.status with
       | .notInit => returned .notInitialized none [] s
       | .initialized => returned .notRunning none [] s
       | .running => returned .ok none [.write .ctrlEn 0] (withStatus .initialized (withEnable 0 s)))

/-- R362: RESTART is STOP, then START unless STOP raised a status: NOT_INITIALIZED in NotInit, NOT_RUNNING in
Initialized; from Running CTRL_EN goes to 0 and to 1, the status ends Running, and it returns OK. Nothing else
changes. -/
def Obligations.RestartIsStopThenStart : Prop :=
  ∀ s : State,
    exec .restart s = .next
      (match s.drv.status with
       | .notInit => returned .notInitialized none [] s
       | .initialized => returned .notRunning none [] s
       | .running => returned .ok none [.write .ctrlEn 1, .write .ctrlEn 0] (withEnable 1 s))

/-- R363: RFS_GENERATE returns NOT_INITIALIZED in NotInit, then NOT_SLAVE_MODE unless MODE is a Slave mode, then
NOT_RUNNING unless Running; else it writes RFS_GEN = 1 and returns OK. Nothing else changes. That the field reads back as
0 (R62) and so holds 0 after the write is the model's reading (DEDUCED: notes/assumptions/14.md). -/
def Obligations.RfsGenerateEmitsOneEvent : Prop :=
  ∀ s : State,
    exec .rfsGenerate s = .next
      (if s.drv.status = .notInit then returned .notInitialized none [] s
       else if s.regs.mode ≠ 1 ∧ s.regs.mode ≠ 2 then returned .notSlaveMode none [] s
       else if s.drv.status ≠ .running then returned .notRunning none [] s
       else returned .ok none [.write .rfsGen 1] { s with regs := { s.regs with rfsGen := 0 } })

/-- R364: GET_LUT_CHECKSUM has no state check, always returns OK and the 40 significant bits, and writes nothing. R133:
bits 31:8 of CHKSUM_HI read 0, whatever drives the register, and while the checksum mode is on the two registers together
hold the LUT's checksum, bits 39:32 and 31:0. -/
def Obligations.GetLutChecksumReadsTheRegisters : Prop :=
  ∀ s : State,
    exec .getLutChecksum s = .next (returned .ok (some (checksumOf s)) [] s) ∧
    s.chksumHi.toNat < 2 ^ 8 ∧
    (s.regs.chksumEn = 1 → s.chksumHi.toNat * 2 ^ 32 + s.chksumLo.toNat = (Config.lutChecksum s.regs.lut).toNat)

/-- R402, R403, R404: each status has the code and the class of the table, no two statuses share a code, and the errors
are all but OK and DRV_RUNNING. The numbers are the spec's own decision (notes/assumptions/17.md). -/
def Obligations.StatusCodesAreTheTable : Prop :=
  (∀ row ∈ statusTable, (statusCode row.2.1).toNat = row.1 ∧ statusClass row.2.1 = row.2.2) ∧
    (∀ c : Status, ∃ row ∈ statusTable, row.2.1 = c) ∧ (∀ c d : Status, statusCode c = statusCode d → c = d) ∧
    ∀ c : Status, isErrorStatus c = true ↔ c ≠ .ok ∧ c ≠ .drvRunning

/-! ### Rules of the whole machine -/

/-- R322: every command's status and next driver status are a cell of the state table. -/
def Obligations.EveryCommandFollowsTheStateTable : Prop :=
  ∀ (i : Instr) (s t : State), exec i s = .next t →
    ∃ c, t.output.status = some c ∧ allowedCell i s.drv.status c t.drv.status = true

/-- R406, R403 (the record of writes: notes/assumptions/11.md): a command that returns a status of class (a), (c) or
(e), REG_BASE_NULL or the warning has written no register and no LUT word, and has changed nothing of the Driver State
but the status. -/
def Obligations.EarlyStatusesLeaveEveryRegister : Prop :=
  ∀ (i : Instr) (s t : State) (c : Status), exec i s = .next t → t.output.status = some c →
    leavesRegisters c = true →
      t.regs = s.regs ∧ (∀ e ∈ t.output.effects, e.isWrite = false) ∧ t.drv = { s.drv with status := t.drv.status }

/-- R348, R360, R362: only START and RESTART write CTRL_EN = 1 (the record of writes: notes/assumptions/11.md). -/
def Obligations.OnlyStartAndRestartEnableTheEngine : Prop :=
  ∀ (i : Instr) (s t : State), exec i s = .next t → Effect.write .ctrlEn 1 ∈ t.output.effects →
    i = .start ∨ i = .restart

/-- R410, R354: what SETUP configured, no other command changes: the mode, the slave fields, the repeat count, the
timing mode, the interrupt enable, the clock dividers and the clock select; nor the working frequency, the request and
callback, the solver's record and the snapshots in the Driver State. -/
def Obligations.OnlySetupChangesTheConfiguration : Prop :=
  ∀ (i : Instr) (s t : State), (∀ p, i ≠ .setup p) → exec i s = .next t →
    t.regs =
        { t.regs with
          mode := s.regs.mode, slvRfsSrc := s.regs.slvRfsSrc, slvRcsSrc := s.regs.slvRcsSrc
          slvDelay := s.regs.slvDelay, slvCsi2Unit := s.regs.slvCsi2Unit, slvCsi2Vc := s.regs.slvCsi2Vc
          repeatCount := s.regs.repeatCount, timingMode := s.regs.timingMode, irqEn := s.regs.irqEn
          clkDiv := s.regs.clkDiv, clkSel := s.regs.clkSel, ctrlRst := s.regs.ctrlRst } ∧
      t.drv = { s.drv with status := t.drv.status, mainClockDivider := t.drv.mainClockDivider } ∧ t.draws = s.draws

/-- R9, R320 (fields of the model's own, notes/assumptions/2.md, 3.md, 6.md, 8.md): no command changes the parameters,
the environment it met, or the rest of the input stream; a reset pulse is drawn at most once. -/
def Obligations.CommandsConsumeNothingElse : Prop :=
  ∀ (i : Instr) (s t : State), exec i s = .next t →
    t.params = s.params ∧ t.env = s.env ∧ t.input = s.input ∧ s.draws ≤ t.draws ∧ t.draws ≤ s.draws + 1

/-- R353, R96 (the record of writes: notes/assumptions/11.md): an UPDATE_TABLES that writes the LUT of a Running
driver has first written CTRL_EN = 0: it is the oldest of its effects, and the engine is left disabled. -/
def Obligations.UpdateStopsTheEngineBeforeTheLut : Prop :=
  ∀ (u : UpdateParams) (s t : State), s.drv.status = .running → exec (.updateTables u) s = .next t →
    (∃ e ∈ t.output.effects, e.isLutWrite = true) →
      t.output.effects.getLast? = some (.write .ctrlEn 0) ∧ t.regs.ctrlEn = 0 ∧ t.drv.status = .initialized

/-- Power-on is NotInit with nothing to do (R66, R450), and the invariant holds there, with the values
notes/assumptions/1.md names. -/
def Obligations.InvariantHoldsAtReset : Prop :=
  State.reset.drv.status = .notInit ∧ State.reset.input = [] ∧ State.reset.Inv

/-- Every step keeps the invariant of Sys2Proof/Safety.lean (R36–R41, R44, R47–R50, R52, R53, R56, R57, R61). Two of its
clauses rest on the model's readings: that CTRL_RST holds 0 after the pulse (DEDUCED: notes/assumptions/14.md), and that
the five slave fields share one width (DESIGN CHOICE: notes/assumptions/25.md). -/
def Obligations.EveryStepKeepsTheInvariant : Prop :=
  ∀ s t : State, s.Inv → step s = .next t → t.Inv

/-! ### SETUP -/

/-- R332: a validation failure leaves every register as it was; only the driver status has changed, to NotInit. -/
def Obligations.SetupWithInvalidParametersChangesOnlyTheStatus : Prop :=
  ∀ (p : InitParams) (s : State) (c : Status), p.wf = true → validate s.params p = .error c →
    exec (.setup p) s = .next (returned c none [] (withStatus .notInit s))

/-- R333: with no register base the step raises REG_BASE_NULL, and no register is written. -/
def Obligations.SetupWithoutRegisterBase : Prop :=
  ∀ (p : InitParams) (s : State) (v : Plan), p.wf = true → validate s.params p = .ok v → s.env.baseOk = false →
    exec (.setup p) s = .next (returned .regBaseNull none [.resolveBase] (withStatus .notInit s))

/-- R330, R345–R348: SETUP completes: it returns OK with the checksum of the LUT it leaves, and the Driver State holds
the frequency, the divider, the request, the callback, the solver's result and the definitions; the solver's entries past
its clusters keep their values (R42). -/
def Obligations.SetupCompletes : Prop :=
  ∀ (p : InitParams) (s : State) (v : Plan) (cs : List Cluster), SetupPasses p s v cs →
    ∃ t, exec (.setup p) s = .next t ∧
      t.output.status = some .ok ∧ t.output.checksum = some ((Config.lutChecksum t.regs.lut).setWidth 64) ∧
      t.drv.status = .initialized ∧ t.drv.workingFreq = p.clockFreq ∧
      t.drv.mainClockDivider = BitVec.ofNat 8 (selectMainDivider s.params (maxDelay v.tables) p.clockFreq.toNat) ∧
      t.drv.requestedIrqEvents = p.irqEvents ∧ t.drv.callback = p.callback ∧
      t.drv.signalDef0 = p.sigDef0 ∧ t.drv.signalDef1 = p.sigDef1 ∧
      (cs = [] → t.drv.usedClockDividers = s.drv.usedClockDividers) ∧
      (cs ≠ [] → t.drv.usedClockDividers.toNat = cs.length) ∧
      (∀ (j : Fin 4) (c : Cluster), cs[j.val]? = some c →
        (t.drv.clockPeriods[j]).toNat = c.rep ∧ (t.drv.clusterLow[j]).toNat = c.low) ∧
      (∀ j : Fin 4, cs.length ≤ j.val →
        t.drv.clockPeriods[j] = s.drv.clockPeriods[j] ∧ t.drv.clusterLow[j] = s.drv.clusterLow[j]) ∧
      t.halted = s.halted ∧ t.env = s.env ∧ t.input = s.input ∧ t.params = s.params ∧ t.draws = s.draws + 1

/-- R335, R336, R340–R344, R346: the registers of a successful SETUP. The engine is disabled, the checksum mode on,
the timing relative; each field holds what its step programs; a clock divider no cluster uses, and RFS_GEN, hold the
free values the pulse drew (R451, notes/assumptions/2.md, 14.md). Two clauses rest on the model's readings: that CTRL_RST
holds 0 after the pulse (DEDUCED: notes/assumptions/14.md), and that the code of a divider of 0, which a wrapped
representative gives, is a free value (DESIGN CHOICE: notes/assumptions/26.md). -/
def Obligations.SetupProgramsTheRegisters : Prop :=
  ∀ (p : InitParams) (s : State) (v : Plan) (cs : List Cluster), SetupPasses p s v cs →
    ∃ t, exec (.setup p) s = .next t ∧ SetupFields p v t ∧
      t.regs.irqEn = truncBits s.params.irqRawBits p.irqEvents ∧
      HoldsDividers p.clockFreq.toNat cs s t.regs ∧
      t.regs.rfsGen = (Config.pulseDraw s.draws .rfsGen).setWidth 1

/-- R340: the slave fields of a successful SETUP, each truncated to SLAVE_FIELD_BITS; in a mode that does not program
one it keeps the free value the pulse drew (R451, notes/assumptions/2.md). One width for the five fields:
notes/assumptions/25.md. -/
def Obligations.SetupProgramsTheSlaveFields : Prop :=
  ∀ (p : InitParams) (s : State) (v : Plan) (cs : List Cluster), SetupPasses p s v cs →
    ∃ t, exec (.setup p) s = .next t ∧ SetupSlaveFields p s t

/-- R251–R254, R263–R267, R270, R451: the LUT of a successful SETUP, slot by slot: each event's delta and mask in its
slot, the initial patterns in the others, page 1 from Table 1, or the rest of a spanning Table 0, or the free values
the pulse drew (notes/assumptions/2.md). -/
def Obligations.SetupCompilesTheTablesIntoTheLut : Prop :=
  ∀ (p : InitParams) (s : State) (v : Plan) (cs : List Cluster), SetupPasses p s v cs →
    ∃ t, exec (.setup p) s = .next t ∧ SetupLut s v t

/-- R269, R270, R349, R353, R357, R401: a SETUP or an UPDATE_TABLES whose tables hold an action that does not resolve
returns that action's status and no checksum, and keeps what it has written. In Table 0: page 0 is initialized, the
earlier events are in place, and page 1 has been zeroed only if 32 events were; else it is as the compiler found it: what
the pulse drew (notes/assumptions/2.md) for SETUP, its previous contents for UPDATE_TABLES. In Table 1: page 0 holds all
of Table 0, page 1 the initial pattern with the earlier events of Table 1. SETUP ends in NotInit with the engine disabled,
UPDATE_TABLES in Initialized with a running engine stopped. That CTRL_RST holds 0 after the pulse of SETUP is the model's
reading (DEDUCED: notes/assumptions/14.md). -/
def Obligations.StoppedCompileKeepsThePartialLut : Prop :=
  ∀ (done : List CheckedEvent) (ev : CheckedEvent) (rest : List CheckedEvent) (c : Status),
    (∀ (p : InitParams) (s : State) (v : Plan), SetupCompiles p s v →
      (v.table0.events = done ++ ev :: rest → allResolve s.params v.sigDef0 done →
        resolveActions s.params v.sigDef0 ev.actions = .error c →
        ∃ t, SetupStopped p s v c t ∧
          (∀ k, lutAt t.regs.lut 0 k = firstPageSlot s.params t.drv v.sigDef0 done k) ∧
          (done.length < 32 → ∀ k, lutAt t.regs.lut 1 k = drawnSlot s.draws 1 k) ∧
          (32 ≤ done.length → ∀ k, lutAt t.regs.lut 1 k = secondPageSlot s.params t.drv v.sigDef0 done k)) ∧
      (∀ T L, v.second = some (T, L) → allResolve s.params v.sigDef0 v.table0.events →
        T.events = done ++ ev :: rest → allResolve s.params L done → resolveActions s.params L ev.actions = .error c →
        ∃ t, SetupStopped p s v c t ∧
          (∀ k, lutAt t.regs.lut 0 k = firstPageSlot s.params t.drv v.sigDef0 v.table0.events k) ∧
          ∀ k, lutAt t.regs.lut 1 k = firstPageSlot s.params t.drv L done k)) ∧
    (∀ (u : UpdateParams) (s : State) (t0 : CheckedTable) (t1 : Option CheckedTable) (L0 L1 : List SigDef),
      UpdateCompiles u s t0 t1 L0 L1 →
      (t0.events = done ++ ev :: rest → allResolve s.params L0 done → resolveActions s.params L0 ev.actions = .error c →
        ∃ t, UpdateStopped u s t0 t1 c t ∧
          (∀ k, lutAt t.regs.lut 0 k = firstPageSlot s.params t.drv L0 done k) ∧
          (done.length < 32 → ∀ k, lutAt t.regs.lut 1 k = lutAt s.regs.lut 1 k) ∧
          (32 ≤ done.length → ∀ k, lutAt t.regs.lut 1 k = secondPageSlot s.params t.drv L0 done k)) ∧
      (∀ T, t1 = some T → allResolve s.params L0 t0.events → T.events = done ++ ev :: rest →
        allResolve s.params L1 done → resolveActions s.params L1 ev.actions = .error c →
        ∃ t, UpdateStopped u s t0 t1 c t ∧
          (∀ k, lutAt t.regs.lut 0 k = firstPageSlot s.params t.drv L0 t0.events k) ∧
          ∀ k, lutAt t.regs.lut 1 k = firstPageSlot s.params t.drv L1 done k))

/-- R335, R349, R464: whatever a SETUP returns, either it failed before the reset pulse and left the engine enable as
it was, or it disabled the engine (the count of pulses: notes/assumptions/2.md). -/
def Obligations.SetupLeavesTheEngineDisabledOrUntouched : Prop :=
  ∀ (p : InitParams) (s t : State) (c : Status), exec (.setup p) s = .next t → t.output.status = some c →
    if statusClass c = .parameter ∨ c = .regBaseNull then t.regs.ctrlEn = s.regs.ctrlEn ∧ t.draws = s.draws
    else t.regs.ctrlEn = 0 ∧ t.draws = s.draws + 1

/-- R346: of a SETUP that gets through its clocks, the calls of the interrupt-registration collaborator are exactly one,
with the platform's line, core and priority, when an event is requested, and none otherwise (the record of calls:
notes/assumptions/11.md). A refused registration raises IRQ_REG_FAILED after everything else: R349's last row, the
checksum still returned (R338), the request, the callback and IRQ_EN not written: IRQ_EN, and a divider no cluster uses,
hold what the pulse drew (notes/assumptions/2.md). Three clauses rest on the model's readings: that CTRL_RST holds 0 after
the pulse (DEDUCED: notes/assumptions/14.md), that the five slave fields share one width (DESIGN CHOICE:
notes/assumptions/25.md), and that the code of a divider of 0 is a free value (DESIGN CHOICE: notes/assumptions/26.md).
RFS_GEN is not stated here. -/
def Obligations.SetupRegistersARequestedInterrupt : Prop :=
  ∀ (p : InitParams) (s : State) (v : Plan) (cs : List Cluster),
    SetupPasses p { s with env := { s.env with irqRegOk := true } } v cs →
    ∃ t, exec (.setup p) s = .next t ∧
      t.output.effects.filter isRegistration =
        (if p.irqEvents = 0 then [] else [.registerIrq s.params.irqLine s.params.irqCore s.params.irqPrio]) ∧
      (p.irqEvents ≠ 0 → s.env.irqRegOk = false →
        t.output.status = some .irqRegFailed ∧ t.drv.status = .notInit ∧ SetupProgrammed p s v t ∧
        HoldsDividers p.clockFreq.toNat cs s t.regs ∧
        (∀ (q : Fin 2) (b : Nat), b < 32 →
          (t.regs.clkSel[q]).getLsbD b = clkSelBit t.drv (slotDefinitions v.sigDef0 v.sigDef1 v.table0.length q) b) ∧
        t.regs.irqEn = truncBits s.params.irqRawBits (Config.pulseDraw s.draws .irqEn) ∧
        t.drv.requestedIrqEvents = s.drv.requestedIrqEvents ∧ t.drv.callback = s.drv.callback)

/-- R163: outside SLAVE_CSI2 the CSI2 selectors are not read and may hold any value. -/
def Obligations.Csi2SelectorsAreUnreadOutsideSlaveCsi2 : Prop :=
  ∀ (p : InitParams) (s : State) (a b : U32), p.workingMode.toNat ≠ 2 →
    exec (.setup { p with csi2Unit := a, csi2Vc := b }) s = exec (.setup p) s

/-- R32: "Elements of E beyond `length` are never read": whatever lines follow the first `length` events of Table 0, or
of Table 1, SETUP and UPDATE_TABLES do the same. -/
def Obligations.EventsBeyondTheLengthAreUnread : Prop :=
  ∀ (T : TimeTable) (E X : List Event) (s : State),
    T.events = some E → T.length.toNat ≤ E.length → X.all Event.wf = true →
    (∀ p : InitParams,
      (p.table0 = some T →
        exec (.setup { p with table0 := some { T with events := some (E ++ X) } }) s = exec (.setup p) s) ∧
      (p.table1 = some T →
        exec (.setup { p with table1 := some { T with events := some (E ++ X) } }) s = exec (.setup p) s)) ∧
    (∀ u : UpdateParams,
      (u.table0 = some T →
        exec (.updateTables { u with table0 := some { T with events := some (E ++ X) } }) s = exec (.updateTables u) s) ∧
      (u.table1 = some T →
        exec (.updateTables { u with table1 := some { T with events := some (E ++ X) } }) s = exec (.updateTables u) s))

/-! ### The validator -/

/-- R162, R163: CheckMode: a code above 2 raises WRG_MODE; in SLAVE_CSI2 alone, a CSI2 unit out of range raises
WRG_CSI2_UNIT, then a virtual channel out of range WRG_CSI2_VC. -/
def Obligations.ModeCheckReportsTheFirstFault : Prop :=
  ∀ (par : Params) (p : InitParams),
    checkMode par p =
      if 2 < p.workingMode.toNat then .error .wrgMode
      else if p.workingMode.toNat = 2 ∧ par.nCsi2Unit ≤ p.csi2Unit.toNat then .error .wrgCsi2Unit
      else if p.workingMode.toNat = 2 ∧ par.nCsi2Vc ≤ p.csi2Vc.toNat then .error .wrgCsi2Vc
      else .ok ()

/-- R166: CheckTableContent, the first fault in its order, or the first `length` events. -/
def Obligations.TableContentCheckReportsTheFirstFault : Prop :=
  ∀ T : TimeTable,
    checkTable T =
      if T.length.toNat = 0 then .error .tableNotWellDefined
      else if 64 < T.length.toNat then .error .tableTooLong
      else match T.events with
        | none => .error .nullPtrEvents
        | some E =>
          match (E.take T.length.toNat).findSome? eventFault with
          | some c => .error c
          | none =>
            .ok
              { length := T.length.toNat
                execTimeLimit := T.execTimeLimit
                events := (E.take T.length.toNat).map fun e =>
                  { absTime := e.absTime, actions := e.actions.getD [] } }

/-- R172, R173: a Signal Definition Table is accepted exactly when it has at most 16 entries, every type is a type,
every SPT entry is Toggle or Logic, all SPT entries of one type, and every FLEX entry is Logic; a rejected one reports
SIG_DEF_TOO_LONG, or the fault of its first entry that has one. -/
def Obligations.SignalDefinitionCheckReportsTheFirstFault : Prop :=
  ∀ L : List SigDef,
    (checkSigDefs L = .ok () ↔
      L.length ≤ 16 ∧ (∀ d ∈ L, d.signalType.toNat ≤ 3) ∧
      (∀ d ∈ L, d.outputSignal.toNat ≤ 3 → d.signalType = 1 ∨ d.signalType = 3) ∧
      (∀ d ∈ L, ∀ e ∈ L, d.outputSignal.toNat ≤ 3 → e.outputSignal.toNat ≤ 3 → d.signalType = e.signalType) ∧
      (∀ d ∈ L, 14 ≤ d.outputSignal.toNat → d.signalType = 3)) ∧
    ∀ c, checkSigDefs L = .error c ↔
      if 16 < L.length then c = .sigDefTooLong
      else ∃ (done : List SigDef) (d : SigDef) (rest : List SigDef), L = done ++ d :: rest ∧
        sigDefFault done d = some c ∧
        ∀ (pre : List SigDef) (x : SigDef) (post : List SigDef), done = pre ++ x :: post → sigDefFault pre x = none

/-- R161, R164, R165, R167–R171, R174: Validate accepts a record exactly when every check holds, and reads from it the
two tables with their definitions; a record it rejects reports the first fault in the order of R161. R176: the same of
ValidateTables, in its order. -/
def Obligations.ValidatorReportsTheFirstFault : Prop :=
  (∀ (par : Params) (p : InitParams),
    (∀ c, validate par p = .error c ↔ firstFault (validateChecks par p) = some c) ∧
    ∀ v, validate par p = .ok v ↔
      checkMode par p = .ok () ∧ p.clockFreq ≠ 0 ∧
      (∃ T0, p.table0 = some T0 ∧ checkTable T0 = .ok v.table0 ∧
        ((p.table1 = none ∧ p.sigDef1 = none ∧ v.second = none) ∨
          ∃ T1 L1 t1, p.table1 = some T1 ∧ p.sigDef1 = some L1 ∧ T0.length.toNat ≤ 32 ∧ T1.length.toNat ≤ 32 ∧
            checkSigDefs L1 = .ok () ∧ checkTable T1 = .ok t1 ∧ v.second = some (t1, L1))) ∧
      (p.sigDef0 = some v.sigDef0 ∧ checkSigDefs v.sigDef0 = .ok ()) ∧ (p.irqEvents ≠ 0 → p.callback ≠ none)) ∧
  ∀ u : UpdateParams,
    (∀ c, validateTables u = .error c ↔ firstFault (validateTablesChecks u) = some c) ∧
    ∀ t0 t1, validateTables u = .ok (t0, t1) ↔
      ∃ T0, u.table0 = some T0 ∧ checkTable T0 = .ok t0 ∧
        ((u.table1 = none ∧ t1 = none) ∨
          ∃ T1 c1, u.table1 = some T1 ∧ T0.length.toNat ≤ 32 ∧ T1.length.toNat ≤ 32 ∧ checkTable T1 = .ok c1 ∧
            t1 = some c1)

/-! ### The main divider -/

/-- R201: MaxDelay is the longest of the delays of the tables, each scanned from 0, a decrease charged with
0xFFFFFFFF. -/
def Obligations.MaxDelayIsTheLongestDelay : Prop :=
  ∀ tables : List CheckedTable,
    (∀ T ∈ tables, ∀ d ∈ delaysFrom 0 T.events, d ≤ maxDelay tables) ∧
    (maxDelay tables = 0 ∨ ∃ T ∈ tables, maxDelay tables ∈ delaysFrom 0 T.events)

/-- R202, with the arithmetic of R13, whose wrap at 2^64 is PRESUMED (notes/assumptions/24.md): the main divider is the
smallest of 1..63 whose ticks fit, and 63 when none does. -/
def Obligations.MainDividerIsTheSmallestThatFits : Prop :=
  ∀ (par : Params) (maxD f : Nat),
    1 ≤ selectMainDivider par maxD f ∧ selectMainDivider par maxD f ≤ 63 ∧
    (∀ d, 1 ≤ d → d < selectMainDivider par maxD f →
      ¬ maxD * f % 2 ^ 64 / 1000000000 / d < 2 ^ par.tickDeltaBits - 1) ∧
    (maxD * f % 2 ^ 64 / 1000000000 / selectMainDivider par maxD f < 2 ^ par.tickDeltaBits - 1 ∨
      selectMainDivider par maxD f = 63)

/-- R202 with R264: the margin suffices. When the selected divider fits, every delta of a table with non-decreasing
times fits the tick-delta field, so that it cannot spill into the mask bits (R456). -/
def Obligations.DeltasOfAFittingDividerFitTheField : Prop :=
  ∀ (par : Params) (tables : List CheckedTable) (d : DriverState),
    d.mainClockDivider = BitVec.ofNat 8 (selectMainDivider par (maxDelay tables) d.workingFreq.toNat) →
    maxDelay tables * d.workingFreq.toNat / 1000000000 / d.mainClockDivider.toNat < 2 ^ par.tickDeltaBits - 1 →
    ∀ T ∈ tables, (T.events.map fun e => e.absTime.toNat).Pairwise (· ≤ ·) →
      ∀ (i : Nat) (e : CheckedEvent), T.events[i]? = some e →
        (tickDelta (prevTick d T.events i) (eventTick d e.absTime)).toNat < 2 ^ par.tickDeltaBits

/-! ### The clock divider solver -/

/-- R214, R215: sorting and collapsing give the distinct periods, strictly ascending. -/
def Obligations.SortedPeriodsAreTheDistinctOnes : Prop :=
  ∀ P : List Nat,
    (dedupAdjacent (sortAscending P)).Pairwise (· < ·) ∧
    (∀ x, x ∈ dedupAdjacent (sortAscending P) ↔ x ∈ P) ∧
    (dedupAdjacent (sortAscending P)).length ≤ P.length ∧
    (P ≠ [] → 1 ≤ (dedupAdjacent (sortAscending P)).length)

/-- R211, R212: collection gives the Clock periods of Table 0's definitions, then of Table 1's, in definition order,
and a zero among them raises NULL_CLK_PERIOD. -/
def Obligations.CollectedPeriodsAreTheClockPeriods : Prop :=
  ∀ (sd0 : List SigDef) (sd1 : Option (List SigDef)),
    let clocks := (sd0 ++ sd1.getD []).filter fun d => decide (d.signalType = 2)
    collectPeriods sd0 sd1 =
      if ∃ d ∈ clocks, d.clockPeriod = 0 then .error .nullClkPeriod
      else .ok (clocks.map fun d => d.clockPeriod.toNat)

/-- R218 (R13's wrap: notes/assumptions/24.md): while the product does not wrap, the representative of a merged
cluster is four fifths of the last merged period, rounded down. -/
def Obligations.MergedRepresentativeIsFourFifths : Prop :=
  ∀ rep last : Nat, 1 ≤ rep → rep * last * 8 < 2 ^ 64 → mergedRepresentative rep last = 4 * last / 5

/-- R228, §8: five distinct periods, four within the doubling threshold of their smallest and one far outside, make
exactly two clusters, in whatever order and however often they were requested; the far one forms its own. -/
def Obligations.FourCloseAndOneFarMakeTwoClusters : Prop :=
  ∀ (P : List Nat) (a b c d x : Nat), 1 ≤ a → a < b → b < c → c < d → d < 2 * a →
    (∀ y, y ∈ P ↔ y = a ∨ y = b ∨ y = c ∨ y = d ∨ y = x) →
    (2 * a ≤ x →
      clustersOf (dedupAdjacent (sortAscending P)) = .ok [⟨a, mergedRepresentative a d⟩, ⟨x, x⟩]) ∧
    (1 ≤ x → 2 * x ≤ a →
      clustersOf (dedupAdjacent (sortAscending P)) = .ok [⟨x, x⟩, ⟨a, mergedRepresentative a d⟩])

/-- R216, R217, R226: at most four clusters. At most four distinct periods are their own clusters; more are merged: each
cluster's smallest member is at least twice the previous one's, and its representative is MergedRepresentative of its
smallest and its greatest member, or the one member it has (R218, notes/assumptions/24.md). ClusterOf finds the cluster
each collected period belongs to: the last whose smallest member is at most the period. -/
def Obligations.ClusterOfFindsThePeriodsCluster : Prop :=
  ∀ (sd0 : List SigDef) (sd1 : Option (List SigDef)) (P : List Nat) (cs : List Cluster),
    collectPeriods sd0 sd1 = .ok P → solveClusters sd0 sd1 = .ok cs →
      cs.length ≤ 4 ∧ (∀ c ∈ cs, c.low ∈ P) ∧
      (4 < (dedupAdjacent (sortAscending P)).length →
        (cs.map Cluster.low).Pairwise (fun a b => 2 * a ≤ b) ∧
        ∀ c ∈ cs, ∃ last ∈ P, c.low ≤ last ∧ last < 2 * c.low ∧ (∀ q ∈ P, q < 2 * c.low → q ≤ last) ∧
          c.rep = if last = c.low then c.low else mergedRepresentative c.low last) ∧
      ∀ (s : State) (p : Nat), p ∈ P →
        ∃ c, cs[clusterOf (persistClusters cs s).drv p]? = some c ∧ c.low ≤ p ∧ p < 2 * c.low ∧
          (∀ (k : Nat) (c' : Cluster), cs[k]? = some c' → clusterOf (persistClusters cs s).drv p < k → p < c'.low) ∧
          ((dedupAdjacent (sortAscending P)).length ≤ 4 → c.low = p ∧ c.rep = p)

/-- R219: more than four distinct periods that still make more than four clusters raise TOO_MANY_CLOCKS, before any
register write; and no other number of clusters does. -/
def Obligations.TooManyClustersRaiseBeforeAnyWrite : Prop :=
  ∀ (sd0 : List SigDef) (sd1 : Option (List SigDef)) (P : List Nat) (s : State), collectPeriods sd0 sd1 = .ok P →
    (solveClocks sd0 sd1 s = .raised .tooManyClocks s ↔
      4 < (dedupAdjacent (sortAscending P)).length ∧ 4 < (mergeClusters (dedupAdjacent (sortAscending P))).length)

/-- R220, R221, R223, R345, R349: a solver error at the level of the command. The dividers are checked and written
cluster by cluster: the first representative whose divider is above 192 raises CLK_DIVIDER_ERROR, with the fields of the
clusters before it written and the others unchanged. A SETUP whose solver raises a status (NULL_CLK_PERIOD or
TOO_MANY_CLOCKS before any divider, or CLK_DIVIDER_ERROR) returns it in NotInit, the checksum of its LUT returned
(R338): everything up to DPDIV is programmed, with CLKDIV_1..CLKDIV_j of the clusters `written`, and nothing after; the
dividers not written, CLKSEL and IRQ_EN hold what the pulse drew (notes/assumptions/2.md). Three clauses rest on the
model's readings: that CTRL_RST holds 0 after the pulse (DEDUCED: notes/assumptions/14.md), that the five slave fields
share one width (DESIGN CHOICE: notes/assumptions/25.md), and that the code of a divider of 0 is a free value (DESIGN
CHOICE: notes/assumptions/26.md). RFS_GEN is not stated here. -/
def Obligations.SolverErrorKeepsTheEarlierWrites : Prop :=
  (∀ (f : Nat) (done : List Cluster) (bad : Cluster) (rest : List Cluster) (s : State),
    (done ++ bad :: rest).length ≤ 4 → (∀ c ∈ done, linearDivider c.rep f ≤ 192) → 192 < linearDivider bad.rep f →
      ∃ t, writeDividers f (numbered (done ++ bad :: rest)) s = .raised .clkDividerError t ∧
        t.drv = s.drv ∧ t.regs = { s.regs with clkDiv := t.regs.clkDiv } ∧
        (∀ (n : Fin 4) (c : Cluster), done[n.val]? = some c →
          t.regs.clkDiv[n] = truncBits s.params.clkDivBits (clkDivCode s.params (linearDivider c.rep f))) ∧
        (∀ n : Fin 4, done.length ≤ n.val → t.regs.clkDiv[n] = s.regs.clkDiv[n])) ∧
  ∀ (p : InitParams) (s : State) (v : Plan) (c : Status) (written : List Cluster), SetupSolves p s v →
    (solveClusters v.sigDef0 v.sigDef1 = .error c ∧ written = [] ∨
      c = .clkDividerError ∧ ∃ bad rest, solveClusters v.sigDef0 v.sigDef1 = .ok (written ++ bad :: rest) ∧
        (∀ x ∈ written, linearDivider x.rep p.clockFreq.toNat ≤ 192) ∧ 192 < linearDivider bad.rep p.clockFreq.toNat) →
    ∃ t, exec (.setup p) s = .next t ∧ t.output.status = some c ∧ t.drv = failedSetupDriver p s v ∧
      SetupProgrammed p s v t ∧ HoldsDividers p.clockFreq.toNat written s t.regs ∧
      (∀ q : Fin 2, t.regs.clkSel[q] = Config.pulseDraw s.draws (.clkSel q)) ∧
      t.regs.irqEn = truncBits s.params.irqRawBits (Config.pulseDraw s.draws .irqEn)

/-- R220: the linear divider is the period times the frequency over 10^9, rounded up. -/
def Obligations.LinearDividerRoundsUp : Prop :=
  ∀ rep f d : Nat, linearDivider rep f ≤ d ↔ rep * f ≤ d * 1000000000

/-- R222: the doubling algorithm gives the table of codes for every legal divider, and the default parameters hold it
in a field of their width. R222 calls the table the spec's choice (notes/assumptions/19.md). -/
def Obligations.ClkDivCodesAreTheTable : Prop :=
  ∀ div : Fin 193, 1 ≤ div.val →
    (clkDivEncode div.val).toNat = clkDivCodeOf div.val ∧ clkDivCode defaultParams div.val = clkDivEncode div.val ∧
      truncBits defaultParams.clkDivBits (clkDivEncode div.val) = clkDivEncode div.val

/-- R128, R227: the clock-select registers of a successful SETUP, bit by bit: each output's 2-bit field holds the
cluster of its last Clock definition, every other bit is 0, and a table slot with no definitions has none set. -/
def Obligations.ClockSelectHoldsEachOutputsCluster : Prop :=
  ∀ (p : InitParams) (s : State) (v : Plan) (cs : List Cluster), SetupPasses p s v cs →
    ∃ t, exec (.setup p) s = .next t ∧
      ∀ (q : Fin 2) (b : Nat), b < 32 →
        (t.regs.clkSel[q]).getLsbD b = clkSelBit t.drv (slotDefinitions v.sigDef0 v.sigDef1 v.table0.length q) b

/-! ### The table compiler and the output types -/

/-- R119, R256, R260–R262: the action mask, bit by bit: a bit is set exactly when some action of the event sets it. -/
def Obligations.ActionMaskBitsComeFromTheActions : Prop :=
  ∀ (par : Params) (sd : List SigDef) (A : List Action) (m : U64),
    (∀ a ∈ A, a.outputSignal.toNat < 16) → resolveActions par sd A = .ok m →
      ∀ b, b < 64 → (m.getLsbD b = true ↔ ∃ a ∈ A, setsMaskBit par a b)

/-- R255, R257–R259: the first action that is undefined, or out of range, gives the status; with none the list
resolves. -/
def Obligations.FirstUnresolvedActionGivesTheStatus : Prop :=
  ∀ (par : Params) (sd : List SigDef) (A : List Action),
    ((∃ m, resolveActions par sd A = .ok m) ↔ ∀ a ∈ A, ∀ c, ¬ actionFault sd a c) ∧
    ∀ c, resolveActions par sd A = .error c ↔
      ∃ done a rest, A = done ++ a :: rest ∧ (∀ x ∈ done, ∀ c', ¬ actionFault sd x c') ∧ actionFault sd a c

/-- R264: the delta is the difference mod 2^32, a zero forced to 1: it is never 0. -/
def Obligations.TickDeltaIsTheDifferenceNeverZero : Prop :=
  ∀ prev tick : Nat,
    tickDelta prev tick ≠ 0 ∧
    (tick % 2 ^ 32 = prev % 2 ^ 32 → tickDelta prev tick = 1) ∧
    (tick % 2 ^ 32 ≠ prev % 2 ^ 32 → ((tickDelta prev tick).toNat + prev) % 2 ^ 32 = tick % 2 ^ 32)

/-- R126, R127, R300–R307, R358: the signal-type registers of a successful SETUP, and of a successful UPDATE_TABLES,
bit by bit, wherever the SPT type bit lies: a bit of register A holds what the last definition that writes it wrote there
(the SPT bit for an SPT Toggle entry, a CTEP output's 2-bit field its type); each RCS and RFS field of register B holds
the type of its output's last definition; a bit that none writes is 0, so a field with no definition is HiZ. -/
def Obligations.SignalTypeRegistersHoldTheLastTypes : Prop :=
  (∀ (p : InitParams) (s : State) (v : Plan) (cs : List Cluster), SetupPasses p s v cs →
    ∃ t, exec (.setup p) s = .next t ∧
      HoldsTypes s.params (slotDefinitions v.sigDef0 v.sigDef1 v.table0.length) t.regs) ∧
  ∀ (u : UpdateParams) (s : State) (t0 : CheckedTable) (t1 : Option CheckedTable) (L0 L1 : List SigDef),
    UpdatePasses u s t0 t1 L0 L1 →
    ∃ t, exec (.updateTables u) s = .next t ∧
      HoldsTypes s.params (slotDefinitions L0 s.drv.signalDef1 t0.length) t.regs

/-- R84, R85: a masked write takes the value's bits inside the mask and keeps the register's outside, and a masked read
gives back, shifted down, what was written. On a part whose layout keeps the fields apart and within their widths
(REG_LAYOUT is open: notes/assumptions/10.md), writing a field by name is exactly one masked access, the newest, and it
changes of the block-written bits of all registers only those of its mask, to the value shifted into place; RFS_GEN, the
pulse, is not held (R62). -/
def Obligations.MaskedWriteKeepsTheBitsOutsideTheMask : Prop :=
  (∀ (reg mask value : U32) (b : Nat),
    (maskedWrite reg mask value).getLsbD b = if mask.getLsbD b then value.getLsbD b else reg.getLsbD b) ∧
  (∀ (reg value : U32) (pos : Nat), pos ≤ 30 → value.toNat ≤ 3 →
    maskedRead (maskedWrite reg (mask2 pos) (value <<< pos)) (mask2 pos) pos = value) ∧
  (∀ (s : State) (f : RegField) (v : U32),
    let pl := placeOf s.params.layout f
    (s.write f v).accesses = s.accesses ++ [⟨pl.offset, pl.mask, v <<< pl.shift⟩] ∧
    (LayoutOk s.params → f ≠ .rfsGen → ∀ off,
      (s.write f v).blockWord off =
        if pl.offset = off then maskedWrite (s.blockWord off) pl.mask (v <<< pl.shift) else s.blockWord off))

/-! ### UPDATE_TABLES -/

/-- R351: UPDATE_TABLES with Table 1 present where SETUP had none, or absent where it had one, raises WRG_PTR_TABLE1
and leaves the Driver State and the registers unchanged. -/
def Obligations.UpdateRefusesAChangeOfTableMode : Prop :=
  ∀ (u : UpdateParams) (s : State), u.wf = true → s.drv.status ≠ .notInit →
    u.table1.isSome ≠ s.drv.signalDef1.isSome →
      exec (.updateTables u) s = .next (returned .wrgPtrTable1 none [] s)

/-- R352: UPDATE_TABLES with tables that do not validate leaves everything unchanged. -/
def Obligations.UpdateWithInvalidTablesChangesNothing : Prop :=
  ∀ (u : UpdateParams) (s : State) (c : Status), u.wf = true → s.drv.status ≠ .notInit →
    u.table1.isSome = s.drv.signalDef1.isSome → validateTables u = .error c →
      exec (.updateTables u) s = .next (returned c none [] s)

/-- R350, R353–R355, R342–R344: UPDATE_TABLES completes: it returns OK with the checksum of the LUT it leaves, in
Initialized with a running engine stopped, and the divider, the run mode, the limits and DPDIV are those of the new
tables. -/
def Obligations.UpdateTablesCompletes : Prop :=
  ∀ (u : UpdateParams) (s : State) (t0 : CheckedTable) (t1 : Option CheckedTable) (L0 L1 : List SigDef),
    UpdatePasses u s t0 t1 L0 L1 →
    ∃ t, exec (.updateTables u) s = .next t ∧
      t.output.status = some .ok ∧ t.output.checksum = some ((Config.lutChecksum t.regs.lut).setWidth 64) ∧
      t.drv =
        { s.drv with
          status := .initialized
          mainClockDivider :=
            BitVec.ofNat 8 (selectMainDivider s.params (maxDelay (t0 :: t1.toList)) s.drv.workingFreq.toNat) } ∧
      t.regs.ctrlEn = (if s.drv.status = .running then 0 else s.regs.ctrlEn) ∧ t.regs.chksumEn = 1 ∧
      t.regs.rfsGen = s.regs.rfsGen ∧
      t.regs.dpDiv.toNat = t.drv.mainClockDivider.toNat % 2 ^ s.params.mainDivBits ∧
      t.regs.runMode = (if t1 ≠ none ∨ 32 < t0.length then 1 else 0) ∧
      t.regs.tlim[0] = limitOf s.drv.workingFreq.toNat t.drv.mainClockDivider.toNat t0.execTimeLimit ∧
      t.regs.tlim[1] =
        (match t1 with
         | some T1 => limitOf s.drv.workingFreq.toNat t.drv.mainClockDivider.toNat T1.execTimeLimit
         | none =>
           if 32 < t0.length then limitOf s.drv.workingFreq.toNat t.drv.mainClockDivider.toNat t0.execTimeLimit
           else 0xFFFFFFFF#32) ∧
      t.halted = s.halted ∧ t.env = s.env ∧ t.input = s.input ∧ t.params = s.params ∧ t.draws = s.draws

/-- R357, R252–R254: the LUT of a successful UPDATE_TABLES, compiled with the snapshot definitions; page 1 keeps its
previous contents when the update does not write it. -/
def Obligations.UpdateTablesRecompilesTheLut : Prop :=
  ∀ (u : UpdateParams) (s : State) (t0 : CheckedTable) (t1 : Option CheckedTable) (L0 L1 : List SigDef),
    UpdatePasses u s t0 t1 L0 L1 →
    ∃ t, exec (.updateTables u) s = .next t ∧
      (∀ k, lutAt t.regs.lut 0 k = firstPageSlot s.params t.drv L0 t0.events k) ∧
      (∀ T, t1 = some T → ∀ k, lutAt t.regs.lut 1 k = firstPageSlot s.params t.drv L1 T.events k) ∧
      (t1 = none → 32 < t0.events.length →
        ∀ k, lutAt t.regs.lut 1 k = secondPageSlot s.params t.drv L0 t0.events k) ∧
      (t1 = none → t0.events.length ≤ 32 → ∀ k, lutAt t.regs.lut 1 k = lutAt s.regs.lut 1 k)

/-- R359, §8: a SETUP, then an UPDATE_TABLES with identical tables, gives the same checksum; indeed it leaves every
register and the whole Driver State as SETUP left them. -/
def Obligations.UpdateWithTheSameTablesChangesNothing : Prop :=
  ∀ (p : InitParams) (s t : State) (v : Plan) (cs : List Cluster), SetupPasses p s v cs →
    exec (.setup p) s = .next t →
      ∃ u, exec (.updateTables { table0 := p.table0, table1 := p.table1 }) t = .next u ∧
        u.output.status = some .ok ∧ u.output.checksum = t.output.checksum ∧ u.regs = t.regs ∧ u.drv = t.drv
end

