-- ==== Sys2Proof/Laws/State.lean ====
section
/-! SUPPORT. What each update of the state does to each field, one lemma a field, so that no later proof unfolds a record
update. -/

namespace Sys2Proof.Machine

@[simp] theorem State.emit_drv (s : State) (e : Effect) : (s.emit e).drv = s.drv := rfl
@[simp] theorem State.emit_regs (s : State) (e : Effect) : (s.emit e).regs = s.regs := rfl
@[simp] theorem State.emit_env (s : State) (e : Effect) : (s.emit e).env = s.env := rfl
@[simp] theorem State.emit_input (s : State) (e : Effect) : (s.emit e).input = s.input := rfl
@[simp] theorem State.emit_output (s : State) (e : Effect) : (s.emit e).output = { s.output with effects := e :: s.output.effects } := rfl
@[simp] theorem State.emit_halted (s : State) (e : Effect) : (s.emit e).halted = s.halted := rfl
@[simp] theorem State.emit_draws (s : State) (e : Effect) : (s.emit e).draws = s.draws := rfl
@[simp] theorem State.emit_params (s : State) (e : Effect) : (s.emit e).params = s.params := rfl

@[simp] theorem State.write_drv (s : State) (f : RegField) (v : U32) : (s.write f v).drv = s.drv := rfl
@[simp] theorem State.write_regs (s : State) (f : RegField) (v : U32) : (s.write f v).regs = s.regs.write s.params f v := rfl
@[simp] theorem State.write_env (s : State) (f : RegField) (v : U32) : (s.write f v).env = s.env := rfl
@[simp] theorem State.write_input (s : State) (f : RegField) (v : U32) : (s.write f v).input = s.input := rfl
@[simp] theorem State.write_output (s : State) (f : RegField) (v : U32) : (s.write f v).output = { s.output with effects := .write f v :: s.output.effects } := rfl
@[simp] theorem State.write_halted (s : State) (f : RegField) (v : U32) : (s.write f v).halted = s.halted := rfl
@[simp] theorem State.write_draws (s : State) (f : RegField) (v : U32) : (s.write f v).draws = s.draws := rfl
@[simp] theorem State.write_params (s : State) (f : RegField) (v : U32) : (s.write f v).params = s.params := rfl

@[simp] theorem State.writeMasked_drv (s : State) (f : RegField) (m v : U32) : (s.writeMasked f m v).drv = s.drv := rfl
@[simp] theorem State.writeMasked_regs (s : State) (f : RegField) (m v : U32) : (s.writeMasked f m v).regs = s.regs.write s.params f (maskedWrite (s.regs.read f) m v) := rfl
@[simp] theorem State.writeMasked_env (s : State) (f : RegField) (m v : U32) : (s.writeMasked f m v).env = s.env := rfl
@[simp] theorem State.writeMasked_input (s : State) (f : RegField) (m v : U32) : (s.writeMasked f m v).input = s.input := rfl
@[simp] theorem State.writeMasked_output (s : State) (f : RegField) (m v : U32) : (s.writeMasked f m v).output = { s.output with effects := .write f (maskedWrite (s.regs.read f) m v) :: s.output.effects } := rfl
@[simp] theorem State.writeMasked_halted (s : State) (f : RegField) (m v : U32) : (s.writeMasked f m v).halted = s.halted := rfl
@[simp] theorem State.writeMasked_draws (s : State) (f : RegField) (m v : U32) : (s.writeMasked f m v).draws = s.draws := rfl
@[simp] theorem State.writeMasked_params (s : State) (f : RegField) (m v : U32) : (s.writeMasked f m v).params = s.params := rfl

@[simp] theorem State.setStatus_drv (s : State) (d : DrvStatus) : (s.setStatus d).drv = { s.drv with status := d } := rfl
@[simp] theorem State.setStatus_regs (s : State) (d : DrvStatus) : (s.setStatus d).regs = s.regs := rfl
@[simp] theorem State.setStatus_env (s : State) (d : DrvStatus) : (s.setStatus d).env = s.env := rfl
@[simp] theorem State.setStatus_input (s : State) (d : DrvStatus) : (s.setStatus d).input = s.input := rfl
@[simp] theorem State.setStatus_output (s : State) (d : DrvStatus) : (s.setStatus d).output = s.output := rfl
@[simp] theorem State.setStatus_halted (s : State) (d : DrvStatus) : (s.setStatus d).halted = s.halted := rfl
@[simp] theorem State.setStatus_draws (s : State) (d : DrvStatus) : (s.setStatus d).draws = s.draws := rfl
@[simp] theorem State.setStatus_params (s : State) (d : DrvStatus) : (s.setStatus d).params = s.params := rfl

@[simp] theorem State.snapshotChecksum_drv (s : State) : (s.snapshotChecksum).drv = s.drv := rfl
@[simp] theorem State.snapshotChecksum_regs (s : State) : (s.snapshotChecksum).regs = s.regs := rfl
@[simp] theorem State.snapshotChecksum_env (s : State) : (s.snapshotChecksum).env = s.env := rfl
@[simp] theorem State.snapshotChecksum_input (s : State) : (s.snapshotChecksum).input = s.input := rfl
@[simp] theorem State.snapshotChecksum_output (s : State) : (s.snapshotChecksum).output = { s.output with checksum := some s.readChecksum } := rfl
@[simp] theorem State.snapshotChecksum_halted (s : State) : (s.snapshotChecksum).halted = s.halted := rfl
@[simp] theorem State.snapshotChecksum_draws (s : State) : (s.snapshotChecksum).draws = s.draws := rfl
@[simp] theorem State.snapshotChecksum_params (s : State) : (s.snapshotChecksum).params = s.params := rfl

@[simp] theorem State.beginCommand_drv (s : State) : (s.beginCommand).drv = s.drv := rfl
@[simp] theorem State.beginCommand_regs (s : State) : (s.beginCommand).regs = s.regs := rfl
@[simp] theorem State.beginCommand_env (s : State) : (s.beginCommand).env = s.env := rfl
@[simp] theorem State.beginCommand_input (s : State) : (s.beginCommand).input = s.input := rfl
@[simp] theorem State.beginCommand_output (s : State) : (s.beginCommand).output = Output.empty := rfl
@[simp] theorem State.beginCommand_halted (s : State) : (s.beginCommand).halted = s.halted := rfl
@[simp] theorem State.beginCommand_draws (s : State) : (s.beginCommand).draws = s.draws := rfl
@[simp] theorem State.beginCommand_params (s : State) : (s.beginCommand).params = s.params := rfl

@[simp] theorem State.finish_drv (s : State) (c : Status) : (s.finish c).drv = s.drv := rfl
@[simp] theorem State.finish_regs (s : State) (c : Status) : (s.finish c).regs = s.regs := rfl
@[simp] theorem State.finish_env (s : State) (c : Status) : (s.finish c).env = s.env := rfl
@[simp] theorem State.finish_input (s : State) (c : Status) : (s.finish c).input = s.input := rfl
@[simp] theorem State.finish_output (s : State) (c : Status) : (s.finish c).output = { s.output with status := some c } := rfl
@[simp] theorem State.finish_halted (s : State) (c : Status) : (s.finish c).halted = (s.halted || (s.params.haltOnError && isErrorStatus c)) := rfl
@[simp] theorem State.finish_draws (s : State) (c : Status) : (s.finish c).draws = s.draws := rfl
@[simp] theorem State.finish_params (s : State) (c : Status) : (s.finish c).params = s.params := rfl

@[simp] theorem State.takeInput_drv (s : State) (env : Env) (rest : List InputItem) : (s.takeInput env rest).drv = s.drv := rfl
@[simp] theorem State.takeInput_regs (s : State) (env : Env) (rest : List InputItem) : (s.takeInput env rest).regs = s.regs := rfl
@[simp] theorem State.takeInput_env (s : State) (env : Env) (rest : List InputItem) : (s.takeInput env rest).env = env := rfl
@[simp] theorem State.takeInput_input (s : State) (env : Env) (rest : List InputItem) : (s.takeInput env rest).input = rest := rfl
@[simp] theorem State.takeInput_output (s : State) (env : Env) (rest : List InputItem) : (s.takeInput env rest).output = s.output := rfl
@[simp] theorem State.takeInput_halted (s : State) (env : Env) (rest : List InputItem) : (s.takeInput env rest).halted = s.halted := rfl
@[simp] theorem State.takeInput_draws (s : State) (env : Env) (rest : List InputItem) : (s.takeInput env rest).draws = s.draws := rfl
@[simp] theorem State.takeInput_params (s : State) (env : Env) (rest : List InputItem) : (s.takeInput env rest).params = s.params := rfl

@[simp] theorem State.pulseReset_drv (s : State) : (s.pulseReset).drv = s.drv := rfl
@[simp] theorem State.pulseReset_regs (s : State) : (s.pulseReset).regs = { RegImage.drawn s.params (Config.pulseDraw s.draws) with ctrlEn := 0, ctrlRst := 0 } := rfl
@[simp] theorem State.pulseReset_env (s : State) : (s.pulseReset).env = s.env := rfl
@[simp] theorem State.pulseReset_input (s : State) : (s.pulseReset).input = s.input := rfl
@[simp] theorem State.pulseReset_output (s : State) : (s.pulseReset).output = { s.output with effects := .write .ctrlRst 0 :: .write .ctrlRst 1 :: s.output.effects } := rfl
@[simp] theorem State.pulseReset_halted (s : State) : (s.pulseReset).halted = s.halted := rfl
@[simp] theorem State.pulseReset_draws (s : State) : (s.pulseReset).draws = s.draws + 1 := rfl
@[simp] theorem State.pulseReset_params (s : State) : (s.pulseReset).params = s.params := rfl

@[simp] theorem computeMainDivider_drv (s : State) (T : List CheckedTable) (f : U32) : (computeMainDivider T f s).drv = { s.drv with workingFreq := f, mainClockDivider := BitVec.ofNat 8 (selectMainDivider s.params (maxDelay T) f.toNat) } := rfl
@[simp] theorem computeMainDivider_regs (s : State) (T : List CheckedTable) (f : U32) : (computeMainDivider T f s).regs = s.regs := rfl
@[simp] theorem computeMainDivider_env (s : State) (T : List CheckedTable) (f : U32) : (computeMainDivider T f s).env = s.env := rfl
@[simp] theorem computeMainDivider_input (s : State) (T : List CheckedTable) (f : U32) : (computeMainDivider T f s).input = s.input := rfl
@[simp] theorem computeMainDivider_output (s : State) (T : List CheckedTable) (f : U32) : (computeMainDivider T f s).output = s.output := rfl
@[simp] theorem computeMainDivider_halted (s : State) (T : List CheckedTable) (f : U32) : (computeMainDivider T f s).halted = s.halted := rfl
@[simp] theorem computeMainDivider_draws (s : State) (T : List CheckedTable) (f : U32) : (computeMainDivider T f s).draws = s.draws := rfl
@[simp] theorem computeMainDivider_params (s : State) (T : List CheckedTable) (f : U32) : (computeMainDivider T f s).params = s.params := rfl

@[simp] theorem persistClusters_drv (s : State) (cs : List Cluster) : (persistClusters cs s).drv = { s.drv with usedClockDividers := BitVec.ofNat 8 cs.length, clockPeriods := storeFirst (cs.map Cluster.rep) s.drv.clockPeriods, clusterLow := storeFirst (cs.map Cluster.low) s.drv.clusterLow } := rfl
@[simp] theorem persistClusters_regs (s : State) (cs : List Cluster) : (persistClusters cs s).regs = s.regs := rfl
@[simp] theorem persistClusters_env (s : State) (cs : List Cluster) : (persistClusters cs s).env = s.env := rfl
@[simp] theorem persistClusters_input (s : State) (cs : List Cluster) : (persistClusters cs s).input = s.input := rfl
@[simp] theorem persistClusters_output (s : State) (cs : List Cluster) : (persistClusters cs s).output = s.output := rfl
@[simp] theorem persistClusters_halted (s : State) (cs : List Cluster) : (persistClusters cs s).halted = s.halted := rfl
@[simp] theorem persistClusters_draws (s : State) (cs : List Cluster) : (persistClusters cs s).draws = s.draws := rfl
@[simp] theorem persistClusters_params (s : State) (cs : List Cluster) : (persistClusters cs s).params = s.params := rfl

@[simp] theorem storeIrq_drv (s : State) (p : InitParams) : (storeIrq p s).drv = { s.drv with requestedIrqEvents := p.irqEvents, callback := p.callback } := rfl
@[simp] theorem storeIrq_regs (s : State) (p : InitParams) : (storeIrq p s).regs = s.regs := rfl
@[simp] theorem storeIrq_env (s : State) (p : InitParams) : (storeIrq p s).env = s.env := rfl
@[simp] theorem storeIrq_input (s : State) (p : InitParams) : (storeIrq p s).input = s.input := rfl
@[simp] theorem storeIrq_output (s : State) (p : InitParams) : (storeIrq p s).output = s.output := rfl
@[simp] theorem storeIrq_halted (s : State) (p : InitParams) : (storeIrq p s).halted = s.halted := rfl
@[simp] theorem storeIrq_draws (s : State) (p : InitParams) : (storeIrq p s).draws = s.draws := rfl
@[simp] theorem storeIrq_params (s : State) (p : InitParams) : (storeIrq p s).params = s.params := rfl

@[simp] theorem setupCommit_drv (s : State) (v : Plan) : (setupCommit v s).drv = { s.drv with signalDef0 := some v.sigDef0, signalDef1 := v.sigDef1, status := .initialized } := rfl
@[simp] theorem setupCommit_regs (s : State) (v : Plan) : (setupCommit v s).regs = s.regs := rfl
@[simp] theorem setupCommit_env (s : State) (v : Plan) : (setupCommit v s).env = s.env := rfl
@[simp] theorem setupCommit_input (s : State) (v : Plan) : (setupCommit v s).input = s.input := rfl
@[simp] theorem setupCommit_output (s : State) (v : Plan) : (setupCommit v s).output = s.output := rfl
@[simp] theorem setupCommit_halted (s : State) (v : Plan) : (setupCommit v s).halted = s.halted := rfl
@[simp] theorem setupCommit_draws (s : State) (v : Plan) : (setupCommit v s).draws = s.draws := rfl
@[simp] theorem setupCommit_params (s : State) (v : Plan) : (setupCommit v s).params = s.params := rfl

@[simp] theorem Flow.andThen_go (s : State) (k : State → Flow) : (Flow.go s).andThen k = k s := rfl
@[simp] theorem Flow.andThen_raised (c : Status) (s : State) (k : State → Flow) :
    (Flow.raised c s).andThen k = .raised c s := rfl
@[simp] theorem Flow.result_go (s : State) : (Flow.go s).result = s.finish .ok := rfl
@[simp] theorem Flow.result_raised (c : Status) (s : State) : (Flow.raised c s).result = s.finish c := rfl

/-- The power-on state's fields, each at the value State.reset names. -/
@[simp] theorem State.reset_status : State.reset.drv.status = .notInit := rfl
@[simp] theorem State.reset_regs : State.reset.regs = RegImage.zero := rfl
@[simp] theorem State.reset_input : State.reset.input = [] := rfl
@[simp] theorem State.reset_halted : State.reset.halted = false := rfl
@[simp] theorem State.reset_params : State.reset.params = defaultParams := rfl

end Sys2Proof.Machine
end

