-- ==== Sys2Proof/Laws/Registers.lean ====
section
/-! SUPPORT. The register image: what one write does, and what a run of writes to a set of fields can do. Every
register-programming operation of the model is such a run, so its frame is one lemma here and one line there. -/

namespace Sys2Proof.Machine

/-! ### One write -/

/-- Truncating to the same width twice is truncating once. -/
@[simp] theorem truncBits_truncBits (b : Nat) (v : U32) : truncBits b (truncBits b v) = truncBits b v := by
  have h : v.toNat % 2 ^ b < 2 ^ 32 := lt_of_le_of_lt (Nat.mod_le _ _) v.isLt
  apply BitVec.eq_of_toNat_eq
  simp only [truncBits, BitVec.toNat_ofNat, Nat.mod_eq_of_lt h, Nat.mod_mod]

/-- Setting one entry of an array leaves the others. -/
theorem getElem_set_other {α : Type} {n : Nat} (xs : Vector α n) {i j : Fin n} (v : α) (h : i ≠ j) :
    (xs.set i v)[j] = xs[j] := by
  simp [Fin.val_ne_of_ne h]

/-- One slot of the LUT after another, or the same, has been set. -/
@[simp] theorem lutAt_lutSet (l : Lut) (p q : Fin 2) (k m : Fin 32) (x : LutSlot) :
    lutAt (lutSet l p k x) q m = if p = q ∧ k = m then x else lutAt l q m := by
  unfold lutAt lutSet
  by_cases hp : p = q
  · subst hp
    by_cases hk : k = m
    · subst hk; simp
    · simp [hk, Fin.val_ne_of_ne hk]
  · simp [hp, Fin.val_ne_of_ne hp]

/-- Two LUTs with the same slots are the same. -/
theorem lut_ext {l m : Lut} (h : ∀ p k, lutAt l p k = lutAt m p k) : l = m := by
  apply Vector.ext
  intro i hi
  apply Vector.ext
  intro j hj
  exact h ⟨i, hi⟩ ⟨j, hj⟩

/-- A write leaves what every other field reads as alone (R85). -/
theorem RegImage.read_write_ne (par : Params) (r : RegImage) {f g : RegField} (v : U32) (h : g ≠ f) :
    (r.write par f v).read g = r.read g := by
  cases f <;> cases g <;> first
    | exact absurd rfl h
    | rfl
    | exact getElem_set_other _ _ fun e => h (congrArg _ e.symm)
    | (simp only [RegImage.read, RegImage.write, lutAt_lutSet]
       split
       · rename_i hpk; obtain ⟨rfl, rfl⟩ := hpk; first | rfl | exact absurd rfl h
       · rfl)

/-- What a field reads as after a write to it: the value at the field's width, and 0 for the pulse RFS_GEN (R62). -/
def fieldValue (par : Params) (f : RegField) (v : U32) : U32 :=
  match f with
  | .ctrlEn | .ctrlRst | .chksumEn | .runMode | .timingMode => (v.setWidth 1).setWidth 32
  | .mode => (v.setWidth 2).setWidth 32
  | .dpDiv => truncBits par.mainDivBits v
  | .clkDiv _ => truncBits par.clkDivBits v
  | .slvRfsSrc | .slvRcsSrc | .slvDelay | .slvCsi2Unit | .slvCsi2Vc => truncBits par.slaveFieldBits v
  | .irqEn => truncBits par.irqRawBits v
  | .rfsGen => 0
  | _ => v

theorem RegImage.read_write_same (par : Params) (r : RegImage) (f : RegField) (v : U32) :
    (r.write par f v).read f = fieldValue par f v := by
  cases f <;> simp [RegImage.read, RegImage.write, fieldValue]

/-! ### Runs of writes -/

/-- `t` is `s` after a run of writes to fields of `F`. -/
inductive Writes (F : RegField → Prop) : State → State → Prop where
  | refl (s : State) : Writes F s s
  | step {s t : State} (f : RegField) (v : U32) (hf : F f) (h : Writes F (s.write f v) t) : Writes F s t

namespace Writes

variable {F G : RegField → Prop} {s t u : State}

theorem one (f : RegField) (v : U32) (hf : F f) (s : State) : Writes F s (s.write f v) := .step f v hf (.refl _)

theorem masked (f : RegField) (m v : U32) (hf : F f) (s : State) : Writes F s (s.writeMasked f m v) := .step f _ hf (.refl _)

theorem trans (h : Writes F s t) (k : Writes F t u) : Writes F s u := by
  induction h with
  | refl => exact k
  | step f v hf _ ih => exact .step f v hf (ih k)

theorem mono (h : Writes F s t) (hFG : ∀ f, F f → G f) : Writes G s t := by
  induction h with
  | refl => exact .refl _
  | step f v hf _ ih => exact .step f v (hFG f hf) ih

theorem foldl {α : Type} (k : State → α → State) (hk : ∀ s a, Writes F s (k s a)) (l : List α) (s : State) :
    Writes F s (l.foldl k s) := by
  induction l generalizing s with
  | nil => exact .refl _
  | cons a l ih => exact (hk s a).trans (ih _)

theorem drv (h : Writes F s t) : t.drv = s.drv := by induction h <;> simp_all
theorem env (h : Writes F s t) : t.env = s.env := by induction h <;> simp_all
theorem input (h : Writes F s t) : t.input = s.input := by induction h <;> simp_all
theorem halted (h : Writes F s t) : t.halted = s.halted := by induction h <;> simp_all
theorem draws (h : Writes F s t) : t.draws = s.draws := by induction h <;> simp_all
theorem params (h : Writes F s t) : t.params = s.params := by induction h <;> simp_all
theorem checksum (h : Writes F s t) : t.output.checksum = s.output.checksum := by induction h <;> simp_all
theorem status (h : Writes F s t) : t.output.status = s.output.status := by induction h <;> simp_all

/-- A run of writes adds only writes to its own fields to what the command has done, the newest first. -/
theorem effects (h : Writes F s t) :
    ∃ es, t.output.effects = es ++ s.output.effects ∧ ∀ e ∈ es, ∃ f v, F f ∧ e = .write f v := by
  induction h with
  | refl s => exact ⟨[], by simp⟩
  | @step s t f v hf _ ih =>
    obtain ⟨es, he, hes⟩ := ih
    refine ⟨es ++ [.write f v], by simp [he], ?_⟩
    intro e hmem
    rcases List.mem_append.1 hmem with h1 | h1
    · exact hes e h1
    · exact ⟨f, v, hf, by simpa using h1⟩

/-- A run of writes leaves every field outside its own reading as before. -/
theorem read (h : Writes F s t) {g : RegField} (hg : ¬ F g) : t.regs.read g = s.regs.read g := by
  induction h with
  | refl => rfl
  | @step s t f v hf _ ih =>
    rw [ih, State.write_regs]
    exact RegImage.read_write_ne _ _ _ fun he => hg (he ▸ hf)

/-! A property of the register image that no write to `F` can change holds through the whole run; for one field that is
not in `F` this gives the field itself. -/

theorem keep {α : Type} (π : RegImage → α) (hπ : ∀ b r f v, F f → π (RegImage.write b f v r) = π r) (h : Writes F s t) :
    π t.regs = π s.regs := by
  induction h with
  | refl => rfl
  | @step s t f v hf _ ih => rw [ih, State.write_regs, hπ _ _ _ _ hf]

theorem ctrlEn (h : Writes F s t) (hF : ¬ F .ctrlEn) : t.regs.ctrlEn = s.regs.ctrlEn :=
  h.keep (·.ctrlEn) fun _ _ f _ hf => by cases f <;> first | rfl | exact absurd hf hF
theorem ctrlRst (h : Writes F s t) (hF : ¬ F .ctrlRst) : t.regs.ctrlRst = s.regs.ctrlRst :=
  h.keep (·.ctrlRst) fun _ _ f _ hf => by cases f <;> first | rfl | exact absurd hf hF
theorem chksumEn (h : Writes F s t) (hF : ¬ F .chksumEn) : t.regs.chksumEn = s.regs.chksumEn :=
  h.keep (·.chksumEn) fun _ _ f _ hf => by cases f <;> first | rfl | exact absurd hf hF
theorem mode (h : Writes F s t) (hF : ¬ F .mode) : t.regs.mode = s.regs.mode :=
  h.keep (·.mode) fun _ _ f _ hf => by cases f <;> first | rfl | exact absurd hf hF
theorem runMode (h : Writes F s t) (hF : ¬ F .runMode) : t.regs.runMode = s.regs.runMode :=
  h.keep (·.runMode) fun _ _ f _ hf => by cases f <;> first | rfl | exact absurd hf hF
theorem timingMode (h : Writes F s t) (hF : ¬ F .timingMode) : t.regs.timingMode = s.regs.timingMode :=
  h.keep (·.timingMode) fun _ _ f _ hf => by cases f <;> first | rfl | exact absurd hf hF
theorem dpDiv (h : Writes F s t) (hF : ¬ F .dpDiv) : t.regs.dpDiv = s.regs.dpDiv :=
  h.keep (·.dpDiv) fun _ _ f _ hf => by cases f <;> first | rfl | exact absurd hf hF
theorem repeatCount (h : Writes F s t) (hF : ¬ F .repeatCount) : t.regs.repeatCount = s.regs.repeatCount :=
  h.keep (·.repeatCount) fun _ _ f _ hf => by cases f <;> first | rfl | exact absurd hf hF
theorem tlim (h : Writes F s t) (hF : ∀ i, ¬ F (.tlim i)) : t.regs.tlim = s.regs.tlim :=
  h.keep (·.tlim) fun _ _ f _ hf => by cases f <;> first | rfl | exact absurd hf (hF _)
theorem slvRfsSrc (h : Writes F s t) (hF : ¬ F .slvRfsSrc) : t.regs.slvRfsSrc = s.regs.slvRfsSrc :=
  h.keep (·.slvRfsSrc) fun _ _ f _ hf => by cases f <;> first | rfl | exact absurd hf hF
theorem slvRcsSrc (h : Writes F s t) (hF : ¬ F .slvRcsSrc) : t.regs.slvRcsSrc = s.regs.slvRcsSrc :=
  h.keep (·.slvRcsSrc) fun _ _ f _ hf => by cases f <;> first | rfl | exact absurd hf hF
theorem slvDelay (h : Writes F s t) (hF : ¬ F .slvDelay) : t.regs.slvDelay = s.regs.slvDelay :=
  h.keep (·.slvDelay) fun _ _ f _ hf => by cases f <;> first | rfl | exact absurd hf hF
theorem slvCsi2Unit (h : Writes F s t) (hF : ¬ F .slvCsi2Unit) : t.regs.slvCsi2Unit = s.regs.slvCsi2Unit :=
  h.keep (·.slvCsi2Unit) fun _ _ f _ hf => by cases f <;> first | rfl | exact absurd hf hF
theorem slvCsi2Vc (h : Writes F s t) (hF : ¬ F .slvCsi2Vc) : t.regs.slvCsi2Vc = s.regs.slvCsi2Vc :=
  h.keep (·.slvCsi2Vc) fun _ _ f _ hf => by cases f <;> first | rfl | exact absurd hf hF
theorem clkDiv (h : Writes F s t) (hF : ∀ i, ¬ F (.clkDiv i)) : t.regs.clkDiv = s.regs.clkDiv :=
  h.keep (·.clkDiv) fun _ _ f _ hf => by cases f <;> first | rfl | exact absurd hf (hF _)
theorem clkSel (h : Writes F s t) (hF : ∀ i, ¬ F (.clkSel i)) : t.regs.clkSel = s.regs.clkSel :=
  h.keep (·.clkSel) fun _ _ f _ hf => by cases f <;> first | rfl | exact absurd hf (hF _)
theorem sigTypeA (h : Writes F s t) (hF : ∀ i, ¬ F (.sigTypeA i)) : t.regs.sigTypeA = s.regs.sigTypeA :=
  h.keep (·.sigTypeA) fun _ _ f _ hf => by cases f <;> first | rfl | exact absurd hf (hF _)
theorem sigTypeB (h : Writes F s t) (hF : ∀ i, ¬ F (.sigTypeB i)) : t.regs.sigTypeB = s.regs.sigTypeB :=
  h.keep (·.sigTypeB) fun _ _ f _ hf => by cases f <;> first | rfl | exact absurd hf (hF _)
theorem irqEn (h : Writes F s t) (hF : ¬ F .irqEn) : t.regs.irqEn = s.regs.irqEn :=
  h.keep (·.irqEn) fun _ _ f _ hf => by cases f <;> first | rfl | exact absurd hf hF
theorem rfsGen (h : Writes F s t) (hF : ¬ F .rfsGen) : t.regs.rfsGen = s.regs.rfsGen :=
  h.keep (·.rfsGen) fun _ _ f _ hf => by cases f <;> first | rfl | exact absurd hf hF
theorem lut (h : Writes F s t) (hL : ∀ p k, ¬ F (.lutLsb p k)) (hM : ∀ p k, ¬ F (.lutMsb p k)) :
    t.regs.lut = s.regs.lut :=
  h.keep (·.lut) fun _ _ f _ hf => by
    cases f <;> first | rfl | exact absurd hf (hL _ _) | exact absurd hf (hM _ _)

end Writes

/-! ### The fields each operation writes -/

/-- A word of the LUT. -/
def isLutField : RegField → Prop
  | .lutLsb _ _ | .lutMsb _ _ => True
  | _ => False

/-- Writes to the LUT leave every other field. -/
theorem Writes.onlyLut {s t : State} (h : Writes isLutField s t) : t.regs = { s.regs with lut := t.regs.lut } := by
  dsimp only
  rw [← h.ctrlEn id, ← h.ctrlRst id, ← h.chksumEn id, ← h.mode id, ← h.runMode id, ← h.timingMode id, ← h.dpDiv id,
    ← h.repeatCount id, ← h.tlim (fun _ => id), ← h.slvRfsSrc id, ← h.slvRcsSrc id, ← h.slvDelay id, ← h.slvCsi2Unit id,
    ← h.slvCsi2Vc id, ← h.clkDiv (fun _ => id), ← h.clkSel (fun _ => id), ← h.sigTypeA (fun _ => id),
    ← h.sigTypeB (fun _ => id), ← h.irqEn id, ← h.rfsGen id]

/-- A signal-type register. -/
def isSigTypeField : RegField → Prop
  | .sigTypeA _ | .sigTypeB _ => True
  | _ => False

/-- A mode or slave field. -/
def isModeField : RegField → Prop
  | .mode | .slvRfsSrc | .slvRcsSrc | .slvDelay | .slvCsi2Unit | .slvCsi2Vc => True
  | _ => False

/-- A time limit. -/
def isTlimField : RegField → Prop
  | .tlim _ => True
  | _ => False

/-- A clock divider. -/
def isClkDivField : RegField → Prop
  | .clkDiv _ => True
  | _ => False

/-- A clock select. -/
def isClkSelField : RegField → Prop
  | .clkSel _ => True
  | _ => False

end Sys2Proof.Machine
end

