-- ==== Sys2Proof/Laws/Operations.lean ====
section
/-! SUPPORT. For each register-programming operation, once: which fields it writes, and what it leaves in them. -/

namespace Sys2Proof.Machine

/-- The state a body's part ends in, whether it goes on or has raised a status. -/
def Flow.final : Flow → State
  | .go s => s
  | .raised _ s => s

@[simp] theorem Flow.final_go (s : State) : (Flow.go s).final = s := rfl
@[simp] theorem Flow.final_raised (c : Status) (s : State) : (Flow.raised c s).final = s := rfl

/-- What runs after a part of a body sees the state the part ended in (R401). -/
theorem Flow.andThen_writes {F : RegField → Prop} {s : State} {f : Flow} {k : State → Flow} (h : Writes F s f.final)
    (hk : ∀ t, f = .go t → Writes F t (k t).final) : Writes F s (f.andThen k).final := by
  cases f with
  | go t => exact h.trans (hk t rfl)
  | raised c t => exact h

/-- The NotInit guard (R323), in each of its two cases. -/
theorem guardInitialized_notInit {s : State} (h : s.drv.status = .notInit) :
    guardInitialized s = .raised .notInitialized s := if_pos h
theorem guardInitialized_setUp {s : State} (h : s.drv.status ≠ .notInit) : guardInitialized s = .go s := if_neg h

/-! ### The table compiler writes the LUT only -/

theorem writeSlot_writes (p : Fin 2) (k : Fin 32) (l m : U32) (s : State) : Writes isLutField s (s.writeSlot p k l m) :=
  (Writes.one (.lutLsb p k) l trivial s).trans (Writes.one (.lutMsb p k) m trivial _)

theorem fillPage_writes (p : Fin 2) (msb : Fin 32 → U32) (s : State) : Writes isLutField s (s.fillPage p msb) :=
  Writes.foldl _ (fun s k => writeSlot_writes p k _ _ s) _ _

theorem initFirstPage_writes (p : Fin 2) (s : State) : Writes isLutField s (s.initFirstPage p) := fillPage_writes _ _ _

theorem zeroPage_writes (p : Fin 2) (s : State) : Writes isLutField s (s.zeroPage p) := fillPage_writes _ _ _

theorem compileEvents_writes (sd : List SigDef) (p : Nat) (evs : List CheckedEvent) :
    ∀ (i prev : Nat) (s : State), Writes isLutField s (compileEvents sd p i prev evs s).final := by
  induction evs with
  | nil => intro i prev s; exact .refl s
  | cons ev evs ih =>
    intro i prev s
    have hz : Writes isLutField s (if i = Config.nSlots then s.zeroPage (lutPage (p + 1)) else s) := by
      split
      · exact zeroPage_writes _ _
      · exact .refl _
    unfold compileEvents
    dsimp only
    split
    · exact hz
    · exact hz.trans ((writeSlot_writes _ _ _ _ _).trans (ih _ _ _))

theorem compileTable_writes (T : CheckedTable) (sd : List SigDef) (p : Nat) (s : State) :
    Writes isLutField s (compileTable T sd p s).final :=
  (initFirstPage_writes _ s).trans (compileEvents_writes _ _ _ _ _ _)

theorem compileTables_writes (t0 : CheckedTable) (sd0 : List SigDef) (second : Option (CheckedTable × List SigDef))
    (s : State) : Writes isLutField s (compileTables t0 sd0 second s).final := by
  unfold compileTables
  split
  · exact compileTable_writes _ _ _ _
  · exact Flow.andThen_writes (compileTable_writes _ _ _ _) fun _ _ => compileTable_writes _ _ _ _

/-! ### The other programming steps -/

theorem programType_writes (t : Fin 2) (s : State) (d : SigDef) : Writes isSigTypeField s (programType t s d) := by
  unfold programType
  dsimp only
  split
  · split
    · exact .masked _ _ _ trivial s
    · exact .refl s
  · split
    · exact .masked _ _ _ trivial s
    · split
      · exact .masked _ _ _ trivial s
      · exact .refl s

theorem programFamily_writes (t : Fin 2) (defs : List SigDef) (s : State) :
    Writes isSigTypeField s (programFamily t defs s) :=
  ((Writes.one (.sigTypeA t) 0 trivial s).trans (Writes.one (.sigTypeB t) 0 trivial _)).trans
    (Writes.foldl _ (programType_writes t) _ _)

theorem programOutputTypes_writes (sd0 : List SigDef) (sd1 : Option (List SigDef)) (spans : Bool) (s : State) :
    Writes isSigTypeField s (programOutputTypes sd0 sd1 spans s) :=
  (programFamily_writes 0 sd0 s).trans (programFamily_writes 1 _ _)

theorem programMode_writes (p : InitParams) (s : State) : Writes isModeField s (programMode p s) := by
  have slave : ∀ s : State, Writes isModeField s
      (((s.write .slvRfsSrc p.rfsSource).write .slvRcsSrc p.rcsSource).write .slvDelay p.slaveDelay) := fun s =>
    ((Writes.one .slvRfsSrc _ trivial s).trans (Writes.one .slvRcsSrc _ trivial _)).trans
      (Writes.one .slvDelay _ trivial _)
  have csi : ∀ s : State, Writes isModeField s ((s.write .slvCsi2Unit p.csi2Unit).write .slvCsi2Vc p.csi2Vc) := fun s =>
    (Writes.one .slvCsi2Unit _ trivial s).trans (Writes.one .slvCsi2Vc _ trivial _)
  have mode := Writes.one (F := isModeField) .mode p.workingMode trivial s
  unfold programMode
  dsimp only
  split <;> split
  · exact (mode.trans (slave _)).trans (csi _)
  · exact mode.trans (csi _)
  · exact mode.trans (slave _)
  · exact mode

theorem programRunMode_writes (t0 : CheckedTable) (t1 : Option CheckedTable) (s : State) :
    Writes (· = .runMode) s (programRunMode t0 t1 s) := .one (F := (· = .runMode)) .runMode _ rfl s

theorem programLimits_writes (t0 : CheckedTable) (t1 : Option CheckedTable) (s : State) :
    Writes isTlimField s (programLimits t0 t1 s) :=
  (Writes.one (.tlim 0) _ trivial s).trans (Writes.one (.tlim 1) _ trivial _)

theorem programDpDiv_writes (s : State) : Writes (· = .dpDiv) s (programDpDiv s) := .one (F := (· = .dpDiv)) .dpDiv _ rfl s

theorem writeDividers_writes (f : Nat) (l : List (Fin 4 × Cluster)) :
    ∀ s : State, Writes isClkDivField s (writeDividers f l s).final := by
  induction l with
  | nil => intro s; exact .refl s
  | cons a l ih =>
    intro s
    unfold writeDividers
    split
    · exact .refl s
    · exact (Writes.one (.clkDiv a.1) _ trivial s).trans (ih _)

theorem programClockSelect_writes (sd0 : List SigDef) (sd1 : Option (List SigDef)) (spans : Bool) (s : State) :
    Writes isClkSelField s (programClockSelect sd0 sd1 spans s) :=
  (Writes.one (.clkSel 0) _ trivial s).trans (Writes.one (.clkSel 1) _ trivial _)

/-! ### A part of a body that ends by going on, or by raising -/

/-- A sequence that goes on: both its parts went on. -/
theorem Flow.andThen_eq_go {f : Flow} {k : State → Flow} {u : State} (h : f.andThen k = .go u) :
    ∃ t, f = .go t ∧ k t = .go u := by
  cases f with
  | go t => exact ⟨t, rfl, h⟩
  | raised c t => simp at h

/-- A sequence that raises: its first part raised, or its second did. -/
theorem Flow.andThen_eq_raised {f : Flow} {k : State → Flow} {c : Status} {u : State} (h : f.andThen k = .raised c u) :
    f = .raised c u ∨ ∃ t, f = .go t ∧ k t = .raised c u := by
  cases f with
  | go t => exact .inr ⟨t, rfl, h⟩
  | raised d t => exact .inl (by simpa using h)

end Sys2Proof.Machine
end

