-- ==== Sys2Proof/Laws/Compile.lean ====
section
/-! SUPPORT. What the table compiler leaves in the LUT, slot by slot. -/

namespace Sys2Proof.Machine

/-- One slot after another, or the same, has been written (R60, R254). -/
@[simp] theorem writeSlot_lut (p q : Fin 2) (k m : Fin 32) (l h : U32) (s : State) :
    lutAt (s.writeSlot p k l h).regs.lut q m = if p = q ∧ k = m then { lsb := l, msb := h } else lutAt s.regs.lut q m := by
  simp only [State.writeSlot, State.write_regs, RegImage.write, lutAt_lutSet]
  split
  · simp
  · rfl

/-- Filling part of a page, slot by slot. -/
theorem foldl_writeSlot_lut (p q : Fin 2) (m : Fin 32) (msb : Fin 32 → U32) (l : List (Fin 32)) (s : State) :
    lutAt (l.foldl (fun s k => s.writeSlot p k 0 (msb k)) s).regs.lut q m =
      if p = q ∧ m ∈ l then { lsb := 0, msb := msb m } else lutAt s.regs.lut q m := by
  induction l generalizing s with
  | nil => simp
  | cons a l ih =>
    rw [List.foldl_cons, ih, writeSlot_lut]
    by_cases hp : p = q <;> by_cases hm : m ∈ l <;> by_cases ha : a = m
    all_goals simp [hp, hm, ha, eq_comm (a := m)]

/-- A filled page (R251, R253). -/
@[simp] theorem fillPage_lut (p q : Fin 2) (m : Fin 32) (msb : Fin 32 → U32) (s : State) :
    lutAt (s.fillPage p msb).regs.lut q m = if p = q then { lsb := 0, msb := msb m } else lutAt s.regs.lut q m := by
  rw [State.fillPage, foldl_writeSlot_lut]
  simp

theorem initFirstPage_lut (p q : Fin 2) (m : Fin 32) (s : State) :
    lutAt (s.initFirstPage p).regs.lut q m = if p = q then initialSlot m.val else lutAt s.regs.lut q m := by
  simp only [State.initFirstPage, fillPage_lut, initialSlot]
  by_cases h : m = 0
  · subst h; rfl
  · have h' : m.val ≠ 0 := fun e => h (Fin.ext e)
    simp [h, h']

theorem zeroPage_lut (p q : Fin 2) (m : Fin 32) (s : State) :
    lutAt (s.zeroPage p).regs.lut q m = if p = q then LutSlot.zero else lutAt s.regs.lut q m := by
  rw [State.zeroPage, fillPage_lut]
  rfl

/-- The state in which event `i` of a table is about to be written: the earlier ones are in place. -/
def CompiledTo (sd : List SigDef) (evs : List CheckedEvent) (p n : Nat) (zeroed : Bool) (s t : State) : Prop :=
  ∀ q k, lutAt t.regs.lut q k = slotAfter s.params s.drv sd evs s.regs.lut p n zeroed q k

/-- A page is page 0 or page 1. -/
theorem page_cases (q : Fin 2) : q = 0 ∨ q = 1 := by omega

/-- Zeroing the second page in its turn (R253). -/
theorem CompiledTo.zeroStep {sd : List SigDef} {evs : List CheckedEvent} {p n : Nat} {s t : State}
    (hp : p = 0 ∨ (p = 1 ∧ n < 32)) (h : CompiledTo sd evs p n (decide (n > 32)) s t) :
    CompiledTo sd evs p n (decide (n ≥ 32)) s (if n = Config.nSlots then t.zeroPage (lutPage (p + 1)) else t) := by
  intro q k
  have hk := k.isLt
  by_cases hn : n = 32
  · obtain rfl : p = 0 := by omega
    subst hn
    rcases page_cases q with rfl | rfl <;> simp [Config.nSlots, zeroPage_lut, slotAfter, lutPage, h _ _]
  · have h1 : (decide (n ≥ 32)) = decide (n > 32) := by
      rcases lt_or_gt_of_ne hn with h2 | h2 <;> simp [h2] <;> omega
    rw [show Config.nSlots = 32 from rfl, if_neg hn, h1]
    exact h q k

/-- The event's own slot in its turn (R252, R254). -/
theorem CompiledTo.eventStep {sd : List SigDef} {evs : List CheckedEvent} {p n : Nat} {s t : State}
    (hp : (p = 0 ∧ n < 64) ∨ (p = 1 ∧ n < 32)) (x : LutSlot) (hx : eventSlot s.params s.drv sd evs n = x)
    (h : CompiledTo sd evs p n (decide (n ≥ 32)) s t) :
    CompiledTo sd evs p (n + 1) (decide (n + 1 > 32)) s
      (t.writeSlot (lutPage (p + n / Config.nSlots)) (lutSlot n) x.lsb x.msb) := by
  intro q k
  have hk := k.isLt
  have hz : decide (n + 1 > 32) = decide (n ≥ 32) := by simp
  have hs : lutSlot n = k ↔ n % 32 = k.val := by simp [lutSlot, Fin.ext_iff]
  rw [writeSlot_lut, h q k, hz]
  simp only [slotAfter, Config.nSlots, hs]
  rcases hp with ⟨rfl, hn⟩ | ⟨rfl, hn⟩
  · by_cases h32 : n < 32
    · have e1 : n / 32 = 0 := by omega
      have e2 : n % 32 = n := by omega
      rcases page_cases q with rfl | rfl
      · by_cases hkn : n = k.val
        · simp [lutPage, e1, e2, ← hkn, hx]
        · simp [lutPage, e1, e2, hkn, show k.val < n + 1 ↔ k.val < n by omega]
      · simp [lutPage, e1, show ¬ n ≥ 32 by omega]
    · have e1 : n / 32 = 1 := by omega
      have e2 : n % 32 = n - 32 := by omega
      rcases page_cases q with rfl | rfl
      · simp [lutPage, e1, show k.val < n by omega, show k.val < n + 1 by omega]
      · by_cases hkn : n = k.val + 32
        · simp [lutPage, e1, e2, ← hkn, show n - 32 = k.val by omega, show 32 ≤ n by omega, hx]
        · simp [lutPage, e1, e2, show 32 ≤ n by omega, show ¬ n - 32 = k.val by omega,
            show k.val + 32 < n + 1 ↔ k.val + 32 < n by omega]
  · have e1 : n / 32 = 0 := by omega
    have e2 : n % 32 = n := by omega
    rcases page_cases q with rfl | rfl
    · simp [lutPage, e1, show ¬ n ≥ 32 by omega]
    · by_cases hkn : n = k.val
      · simp [lutPage, e1, e2, ← hkn, hx]
      · simp [lutPage, e1, e2, hkn, show k.val < n + 1 ↔ k.val < n by omega]

/-- A table fits the pages it is compiled into: one page for a table of two, two for Table 0 alone (R253). -/
def Fits (p n : Nat) : Prop := (p = 0 ∧ n ≤ 64) ∨ (p = 1 ∧ n ≤ 32)

/-- The event loop, from an intermediate event on (R254, R269): if every event left resolves, it goes on with all of them in
place; if one raises a status, the earlier ones are in place and its own slot is as it was. -/
theorem compileEvents_spec (sd : List SigDef) (p : Nat) (s : State) (post : List CheckedEvent) :
    ∀ (pre : List CheckedEvent) (t : State), Fits p (pre ++ post).length → t.params = s.params → t.drv = s.drv →
      CompiledTo sd (pre ++ post) p pre.length (decide (pre.length > 32)) s t →
      (∃ u, compileEvents sd p pre.length (prevTick s.drv (pre ++ post) pre.length) post t = .go u ∧
          allResolve s.params sd post ∧
          CompiledTo sd (pre ++ post) p (pre ++ post).length (decide ((pre ++ post).length > 32)) s u) ∨
      (∃ mid ev rest c u, post = mid ++ ev :: rest ∧ allResolve s.params sd mid ∧
          resolveActions s.params sd ev.actions = .error c ∧
          compileEvents sd p pre.length (prevTick s.drv (pre ++ post) pre.length) post t = .raised c u ∧
          CompiledTo sd (pre ++ post) p (pre ++ mid).length (decide ((pre ++ mid).length ≥ 32)) s u) := by
  induction post with
  | nil =>
    intro pre t _ _ _ h
    exact .inl ⟨t, by simp [compileEvents], by simp [allResolve], by simpa using h⟩
  | cons ev evs ih =>
    intro pre t hfit hpar hdrv h
    have hlen : (pre ++ ev :: evs).length = pre.length + 1 + evs.length := by simp; omega
    have hp : (p = 0 ∧ pre.length < 64) ∨ (p = 1 ∧ pre.length < 32) := by
      rcases hfit with ⟨rfl, h1⟩ | ⟨rfl, h1⟩ <;> simp only [hlen] at h1 <;> omega
    have hz := h.zeroStep (by omega)
    set t1 := if pre.length = Config.nSlots then t.zeroPage (lutPage (p + 1)) else t with ht1
    have hw : Writes isLutField t t1 := by
      rw [ht1]; split
      · exact zeroPage_writes _ _
      · exact .refl _
    have hpar1 : t1.params = s.params := hw.params.trans hpar
    have hdrv1 : t1.drv = s.drv := hw.drv.trans hdrv
    have hget : (pre ++ ev :: evs)[pre.length]? = some ev := by simp
    cases hres : resolveActions s.params sd ev.actions with
    | error c =>
      refine .inr ⟨[], ev, evs, c, t1, by simp, by simp [allResolve], hres, ?_, by simpa using hz⟩
      unfold compileEvents
      simp only [← ht1, hpar1, hres]
    | ok mask =>
      have hslot : eventSlot s.params s.drv sd (pre ++ ev :: evs) pre.length =
          { lsb := lsbWord (tickDelta (prevTick s.drv (pre ++ ev :: evs) pre.length) (eventTick s.drv ev.absTime)) mask,
            msb := msbWord mask } := by
        simp only [eventSlot, hget, hres]
      have hstep := hz.eventStep hp _ hslot
      have happ : (pre ++ [ev]) ++ evs = pre ++ ev :: evs := by simp
      have hpl : (pre ++ [ev]).length = pre.length + 1 := by simp
      have hprev : prevTick s.drv (pre ++ ev :: evs) (pre.length + 1) = eventTick s.drv ev.absTime := by
        simp only [prevTick, hget]
      have := ih (pre ++ [ev]) _ (by rw [happ]; exact hfit)
        ((writeSlot_writes (lutPage (p + pre.length / Config.nSlots)) (lutSlot pre.length)
          (lsbWord (tickDelta (prevTick s.drv (pre ++ ev :: evs) pre.length) (eventTick s.drv ev.absTime)) mask)
          (msbWord mask) t1).params.trans hpar1)
        ((writeSlot_writes _ _ _ _ _).drv.trans hdrv1) (by rw [happ, hpl]; exact hstep)
      rw [happ, hpl, hprev] at this
      have hunf : compileEvents sd p pre.length (prevTick s.drv (pre ++ ev :: evs) pre.length) (ev :: evs) t =
          compileEvents sd p (pre.length + 1) (eventTick s.drv ev.absTime) evs
            (t1.writeSlot (lutPage (p + pre.length / Config.nSlots)) (lutSlot pre.length)
              (lsbWord (tickDelta (prevTick s.drv (pre ++ ev :: evs) pre.length) (eventTick s.drv ev.absTime)) mask)
              (msbWord mask)) := by
        conv_lhs => unfold compileEvents
        simp only [← ht1, hpar1, hdrv1, hres]
      rcases this with ⟨u, hu, hall, hc⟩ | ⟨mid, ev', rest, c, u, hpost, hall, hbad, hu, hc⟩
      · refine .inl ⟨u, by rw [hunf]; exact hu, ?_, hc⟩
        intro e he
        rcases List.mem_cons.1 he with rfl | he
        · exact ⟨mask, hres⟩
        · exact hall e he
      · refine .inr ⟨ev :: mid, ev', rest, c, u, by simp [hpost], ?_, hbad, by rw [hunf]; exact hu, ?_⟩
        · intro e he
          rcases List.mem_cons.1 he with rfl | he
          · exact ⟨mask, hres⟩
          · exact hall e he
        · have e1 : (pre ++ [ev] ++ mid).length = (pre ++ ev :: mid).length := by simp
          rw [← e1]; exact hc

/-- CompileTable (R254, R269), whole: either every event resolves and the table is in place, or the first event that does
not raises its status and leaves the earlier ones in place. -/
theorem compileTable_spec (T : CheckedTable) (sd : List SigDef) (p : Nat) (s : State) (hfit : Fits p T.events.length) :
    (∃ u, compileTable T sd p s = .go u ∧ allResolve s.params sd T.events ∧
        CompiledTo sd T.events p T.events.length (decide (T.events.length > 32)) s u) ∨
    (∃ mid ev rest c u, T.events = mid ++ ev :: rest ∧ allResolve s.params sd mid ∧
        resolveActions s.params sd ev.actions = .error c ∧ compileTable T sd p s = .raised c u ∧
        CompiledTo sd T.events p mid.length (decide (mid.length ≥ 32)) s u) := by
  have hw := initFirstPage_writes (lutPage p) s
  have h0 : CompiledTo sd ([] ++ T.events) p 0 (decide (0 > 32)) s (s.initFirstPage (lutPage p)) := by
    intro q k
    rw [initFirstPage_lut]
    simp [slotAfter, eq_comm]
  simpa [compileTable, prevTick] using compileEvents_spec sd p s T.events [] _ (by simpa using hfit) hw.params hw.drv h0

end Sys2Proof.Machine
end

