-- ==== Sys2Proof/Laws/Commands.lean ====
section
/-! SUPPORT. For each part of a command's body, once, everything it can do: how it can go on, which statuses it can raise,
and what it has written by then. -/

namespace Sys2Proof.Machine

/-! ### The states the two compiling commands prepare, field by field -/

/-- The driver status after StopIfRunning (R353). -/
def stoppedStatus : DrvStatus → DrvStatus
  | .running => .initialized
  | .initialized => .initialized
  | .notInit => .notInit

/-- The engine enable after StopIfRunning. -/
def stoppedEnable : DrvStatus → BitVec 1 → BitVec 1
  | .running, _ => 0
  | .initialized, e => e
  | .notInit, e => e

/-- The writes of StopIfRunning. -/
def stopEffects : DrvStatus → List Effect
  | .running => [.write .ctrlEn 0]
  | .initialized => []
  | .notInit => []

@[simp] theorem stoppedStatus_running : stoppedStatus .running = .initialized := rfl
@[simp] theorem stoppedStatus_initialized : stoppedStatus .initialized = .initialized := rfl
@[simp] theorem stoppedEnable_running (e : BitVec 1) : stoppedEnable .running e = 0 := rfl
@[simp] theorem stoppedEnable_initialized (e : BitVec 1) : stoppedEnable .initialized e = e := rfl
@[simp] theorem stopEffects_running : stopEffects .running = [.write .ctrlEn 0] := rfl
@[simp] theorem stopEffects_initialized : stopEffects .initialized = [] := rfl

/-- StopIfRunning (R353), field by field. -/
@[simp] theorem stopIfRunning_drv (s : State) :
    (stopIfRunning s).drv = { s.drv with status := stoppedStatus s.drv.status } := by
  unfold stopIfRunning
  cases h : s.drv.status <;> simp [stoppedStatus] <;> rw [← h]
@[simp] theorem stopIfRunning_regs (s : State) :
    (stopIfRunning s).regs = { s.regs with ctrlEn := stoppedEnable s.drv.status s.regs.ctrlEn } := by
  unfold stopIfRunning
  cases h : s.drv.status <;> simp [stoppedEnable, RegImage.write]
@[simp] theorem stopIfRunning_output (s : State) :
    (stopIfRunning s).output = { s.output with effects := stopEffects s.drv.status ++ s.output.effects } := by
  unfold stopIfRunning
  cases h : s.drv.status <;> simp [stopEffects]
@[simp] theorem stopIfRunning_env (s : State) : (stopIfRunning s).env = s.env := by
  unfold stopIfRunning; split <;> rfl
@[simp] theorem stopIfRunning_input (s : State) : (stopIfRunning s).input = s.input := by
  unfold stopIfRunning; split <;> rfl
@[simp] theorem stopIfRunning_halted (s : State) : (stopIfRunning s).halted = s.halted := by
  unfold stopIfRunning; split <;> rfl
@[simp] theorem stopIfRunning_draws (s : State) : (stopIfRunning s).draws = s.draws := by
  unfold stopIfRunning; split <;> rfl
@[simp] theorem stopIfRunning_params (s : State) : (stopIfRunning s).params = s.params := by
  unfold stopIfRunning; split <;> rfl

/-- Where UPDATE_TABLES compiles from (R353–R355), field by field. -/
@[simp] theorem updatePrepare_drv (T : List CheckedTable) (s : State) :
    (updatePrepare T s).drv =
      { s.drv with
        status := stoppedStatus s.drv.status
        mainClockDivider := BitVec.ofNat 8 (selectMainDivider s.params (maxDelay T) s.drv.workingFreq.toNat) } := by
  simp [updatePrepare]
@[simp] theorem updatePrepare_regs (T : List CheckedTable) (s : State) :
    (updatePrepare T s).regs =
      { s.regs with ctrlEn := stoppedEnable s.drv.status s.regs.ctrlEn, chksumEn := 1 } := by
  simp [updatePrepare, RegImage.write]
@[simp] theorem updatePrepare_output (T : List CheckedTable) (s : State) :
    (updatePrepare T s).output =
      { s.output with
        effects := .write .chksumEn 1 :: (stopEffects s.drv.status ++ s.output.effects) } := by
  simp [updatePrepare]
@[simp] theorem updatePrepare_env (T : List CheckedTable) (s : State) : (updatePrepare T s).env = s.env := by
  simp [updatePrepare]
@[simp] theorem updatePrepare_input (T : List CheckedTable) (s : State) : (updatePrepare T s).input = s.input := by
  simp [updatePrepare]
@[simp] theorem updatePrepare_halted (T : List CheckedTable) (s : State) : (updatePrepare T s).halted = s.halted := by
  simp [updatePrepare]
@[simp] theorem updatePrepare_draws (T : List CheckedTable) (s : State) : (updatePrepare T s).draws = s.draws := by
  simp [updatePrepare]
@[simp] theorem updatePrepare_params (T : List CheckedTable) (s : State) : (updatePrepare T s).params = s.params := by
  simp [updatePrepare]

/-- Where SETUP compiles from (R334–R336), field by field. -/
@[simp] theorem setupPrepare_drv (v : Plan) (p : InitParams) (s : State) :
    (setupPrepare v p s).drv =
      { s.drv with
        workingFreq := p.clockFreq
        mainClockDivider := BitVec.ofNat 8 (selectMainDivider s.params (maxDelay v.tables) p.clockFreq.toNat) } := rfl
@[simp] theorem setupPrepare_regs (v : Plan) (p : InitParams) (s : State) :
    (setupPrepare v p s).regs =
      { RegImage.drawn s.params (Config.pulseDraw s.draws) with ctrlEn := 0, ctrlRst := 0, chksumEn := 1 } := rfl
@[simp] theorem setupPrepare_output (v : Plan) (p : InitParams) (s : State) :
    (setupPrepare v p s).output =
      { s.output with
        effects := .write .chksumEn 1 :: .write .ctrlRst 0 :: .write .ctrlRst 1 :: s.output.effects } := rfl
@[simp] theorem setupPrepare_env (v : Plan) (p : InitParams) (s : State) : (setupPrepare v p s).env = s.env := rfl
@[simp] theorem setupPrepare_input (v : Plan) (p : InitParams) (s : State) : (setupPrepare v p s).input = s.input := rfl
@[simp] theorem setupPrepare_halted (v : Plan) (p : InitParams) (s : State) : (setupPrepare v p s).halted = s.halted := rfl
@[simp] theorem setupPrepare_draws (v : Plan) (p : InitParams) (s : State) :
    (setupPrepare v p s).draws = s.draws + 1 := rfl
@[simp] theorem setupPrepare_params (v : Plan) (p : InitParams) (s : State) : (setupPrepare v p s).params = s.params := rfl

/-! ### Parts of a body -/

/-- The part goes on only in states of `G`, and raises `c` in `t` only when `R c t`. -/
def Flow.Sat (f : Flow) (G : State → Prop) (R : Status → State → Prop) : Prop :=
  match f with
  | .go s => G s
  | .raised c s => R c s

@[simp] theorem Flow.sat_go (s : State) (G : State → Prop) (R : Status → State → Prop) : (Flow.go s).Sat G R ↔ G s := .rfl
@[simp] theorem Flow.sat_raised (c : Status) (s : State) (G : State → Prop) (R : Status → State → Prop) :
    (Flow.raised c s).Sat G R ↔ R c s := .rfl

theorem Flow.Sat.mono {f : Flow} {G G' : State → Prop} {R R' : Status → State → Prop} (h : f.Sat G R)
    (hG : ∀ s, G s → G' s) (hR : ∀ c s, R c s → R' c s) : f.Sat G' R' := by
  cases f with
  | go s => exact hG s h
  | raised c s => exact hR c s h

/-- A sequence of two parts (R401). -/
theorem Flow.Sat.andThen {f : Flow} {k : State → Flow} {G G' : State → Prop} {R : Status → State → Prop} (h : f.Sat G R)
    (hk : ∀ t, G t → (k t).Sat G' R) : (f.andThen k).Sat G' R := by
  cases f with
  | go s => exact hk s h
  | raised c s => exact h

/-- How a command ends: with OK in a state its body goes on in, or with a status its body raised. -/
theorem Flow.Sat.result {f : Flow} {G : State → Prop} {R : Status → State → Prop} (h : f.Sat G R) :
    ∃ c u, f.result = u.finish c ∧ ((c = .ok ∧ G u) ∨ R c u) := by
  cases f with
  | go s => exact ⟨.ok, s, rfl, .inl ⟨rfl, h⟩⟩
  | raised c s => exact ⟨c, s, rfl, .inr h⟩

/-! ### The statuses each part can raise -/

theorem failIf_error {b : Bool} {c d : Status} : failIf b c = .error d ↔ b = true ∧ d = c := by
  cases b <;> simp [failIf, eq_comm]

theorem failIf_ok {b : Bool} {c : Status} : failIf b c = .ok () ↔ b = false := by
  cases b <;> simp [failIf]

theorem orRaise_error {α : Type} {c d : Status} {o : Option α} : orRaise c o = .error d ↔ o = none ∧ d = c := by
  cases o <;> simp [orRaise, eq_comm]

theorem orRaise_ok {α : Type} {c : Status} {o : Option α} {x : α} : orRaise c o = .ok x ↔ o = some x := by
  cases o <;> simp [orRaise]

/-- A check, then the rest: an error is the check's, or the rest's. -/
theorem bind_error {α β : Type} {x : Except Status α} {k : α → Except Status β} {d : Status} :
    (x >>= k) = .error d ↔ x = .error d ∨ ∃ a, x = .ok a ∧ k a = .error d := by
  cases x <;> simp [bind, Except.bind]

theorem bind_ok {α β : Type} {x : Except Status α} {k : α → Except Status β} {b : β} :
    (x >>= k) = .ok b ↔ ∃ a, x = .ok a ∧ k a = .ok b := by
  cases x <;> simp [bind, Except.bind]

/-- Every status of the check is of class (a). -/
def RaisesParameter {α : Type} (x : Except Status α) : Prop := ∀ c, x = .error c → statusClass c = .parameter

theorem RaisesParameter.bind {α β : Type} {x : Except Status α} {k : α → Except Status β} (h : RaisesParameter x)
    (hk : ∀ a, RaisesParameter (k a)) : RaisesParameter (x >>= k) := by
  intro c hc
  rcases bind_error.1 hc with h1 | ⟨a, _, h1⟩
  · exact h c h1
  · exact hk a c h1

theorem RaisesParameter.ok {α : Type} (a : α) : RaisesParameter (.ok a : Except Status α) := by intro c hc; cases hc
theorem RaisesParameter.pure {α : Type} (a : α) : RaisesParameter (Pure.pure a : Except Status α) := by intro c hc; cases hc

theorem RaisesParameter.failIf {b : Bool} {c : Status} (h : statusClass c = .parameter) : RaisesParameter (failIf b c) := by
  intro d hd
  rw [(failIf_error.1 hd).2, h]

theorem RaisesParameter.orRaise {α : Type} {c : Status} {o : Option α} (h : statusClass c = .parameter) :
    RaisesParameter (orRaise c o) := by
  intro d hd
  rw [(orRaise_error.1 hd).2, h]

theorem checkEvents_status (E : List Event) : RaisesParameter (checkEvents E) := by
  induction E with
  | nil => exact .ok _
  | cons e es ih => exact (RaisesParameter.orRaise rfl).bind fun _ => (RaisesParameter.failIf rfl).bind fun _ => ih.bind fun _ => .pure _

theorem checkTable_status (T : TimeTable) : RaisesParameter (checkTable T) :=
  (RaisesParameter.failIf rfl).bind fun _ => (RaisesParameter.failIf rfl).bind fun _ => (RaisesParameter.orRaise rfl).bind
    fun _ => (checkEvents_status _).bind fun _ => .pure _

theorem checkSigDefsFrom_status (L : List SigDef) : ∀ lock, RaisesParameter (checkSigDefsFrom lock L) := by
  induction L with
  | nil => intro _; exact .ok _
  | cons d ds ih =>
    intro lock
    unfold checkSigDefsFrom
    refine (RaisesParameter.failIf rfl).bind fun _ => ?_
    split
    · refine (RaisesParameter.failIf rfl).bind fun _ => ?_
      split
      · exact ih _
      · exact (RaisesParameter.failIf rfl).bind fun _ => ih _
    · split
      · exact (RaisesParameter.failIf rfl).bind fun _ => ih _
      · exact ih _

theorem checkSigDefs_status (L : List SigDef) : RaisesParameter (checkSigDefs L) :=
  (RaisesParameter.failIf rfl).bind fun _ => checkSigDefsFrom_status _ _

theorem checkMode_status (par : Params) (p : InitParams) : RaisesParameter (checkMode par p) := by
  refine (RaisesParameter.failIf rfl).bind fun _ => ?_
  split
  · exact (RaisesParameter.failIf rfl).bind fun _ => .failIf rfl
  · exact .ok _

theorem checkSecond_status (T0 : TimeTable) (t1 : Option TimeTable) (sd1 : Option (List SigDef)) :
    RaisesParameter (checkSecond T0 t1 sd1) := by
  unfold checkSecond
  split
  · exact (RaisesParameter.failIf rfl).bind fun _ => (RaisesParameter.orRaise rfl).bind fun _ =>
      (checkSigDefs_status _).bind fun _ => (checkTable_status _).bind fun _ => .pure _
  · exact (RaisesParameter.failIf rfl).bind fun _ => .pure _

/-- Validate raises class (a) only (R160). -/
theorem validate_status (par : Params) (p : InitParams) : RaisesParameter (validate par p) :=
  (checkMode_status par p).bind fun _ => (RaisesParameter.failIf rfl).bind fun _ => (RaisesParameter.orRaise rfl).bind
    fun _ => (checkTable_status _).bind fun _ => (RaisesParameter.orRaise rfl).bind fun _ => (checkSigDefs_status _).bind
    fun _ => (checkSecond_status _ _ _).bind fun _ => (RaisesParameter.failIf rfl).bind fun _ => .pure _

theorem checkSecondTable_status (T0 : TimeTable) (t1 : Option TimeTable) : RaisesParameter (checkSecondTable T0 t1) := by
  unfold checkSecondTable
  split
  · exact (RaisesParameter.failIf rfl).bind fun _ => (checkTable_status _).bind fun _ => .pure _
  · exact .ok _

/-- ValidateTables raises class (a) only (R176). -/
theorem validateTables_status (u : UpdateParams) : RaisesParameter (validateTables u) :=
  (RaisesParameter.orRaise rfl).bind fun _ => (checkTable_status _).bind fun _ => (checkSecondTable_status _ _).bind
    fun _ => .pure _

theorem actionMask_status {par : Params} {sd : List SigDef} {a : Action} {c : Status}
    (h : actionMask par sd a = .error c) : c = .sigNotDef ∨ c = .sigOutStateWrg := by
  unfold actionMask flexMask definedMask at h
  split at h
  · split at h <;> simp_all
  · split at h
    · simp_all
    · split at h <;> simp_all

/-- ResolveActions raises SIG_NOT_DEF or SIG_OUT_STATE_WRG only (R255). -/
theorem resolveFrom_status {par : Params} {sd : List SigDef} {c : Status} (A : List Action) :
    ∀ m, resolveFrom par sd m A = .error c → c = .sigNotDef ∨ c = .sigOutStateWrg := by
  induction A with
  | nil => intro m h; cases h
  | cons a as ih =>
    intro m h
    unfold resolveFrom at h
    split at h
    · rename_i d hd
      cases h
      exact actionMask_status hd
    · exact ih _ h

theorem collectFrom_status {c : Status} (L : List SigDef) (h : collectFrom L = .error c) : c = .nullClkPeriod := by
  induction L with
  | nil => cases h
  | cons d ds ih =>
    unfold collectFrom at h
    split at h
    · rcases bind_error.1 h with h1 | ⟨_, _, h1⟩
      · exact (failIf_error.1 h1).2
      · rcases bind_error.1 h1 with h2 | ⟨_, _, h2⟩
        · exact ih h2
        · cases h2
    · exact ih h

theorem collectPeriods_status {sd0 : List SigDef} {sd1 : Option (List SigDef)} {c : Status}
    (h : collectPeriods sd0 sd1 = .error c) : c = .nullClkPeriod := by
  rcases bind_error.1 h with h1 | ⟨_, _, h1⟩
  · exact collectFrom_status _ h1
  · rcases bind_error.1 h1 with h2 | ⟨_, _, h2⟩
    · exact collectFrom_status _ h2
    · cases h2

theorem clustersOf_status {Q : List Nat} {c : Status} (h : clustersOf Q = .error c) : c = .tooManyClocks := by
  unfold clustersOf at h
  split at h
  · cases h
  · split at h <;> simp_all

theorem solveClusters_status {sd0 : List SigDef} {sd1 : Option (List SigDef)} {c : Status}
    (h : solveClusters sd0 sd1 = .error c) : c = .nullClkPeriod ∨ c = .tooManyClocks := by
  rcases bind_error.1 h with h1 | ⟨_, _, h1⟩
  · exact .inl (collectPeriods_status h1)
  · exact .inr (clustersOf_status h1)

/-- There are at most four clusters (R219). -/
theorem clustersOf_length {Q : List Nat} {cs : List Cluster} (h : clustersOf Q = .ok cs) : cs.length ≤ 4 := by
  unfold clustersOf at h
  split at h
  · cases h; simpa [Config.maxClocks] using ‹Q.length ≤ Config.maxClocks›
  · split at h
    · cases h
    · cases h; simpa [Config.maxClocks] using ‹¬ (mergeClusters Q).length > Config.maxClocks›

theorem solveClusters_length {sd0 : List SigDef} {sd1 : Option (List SigDef)} {cs : List Cluster}
    (h : solveClusters sd0 sd1 = .ok cs) : cs.length ≤ 4 := by
  obtain ⟨P, _, h1⟩ := bind_ok.1 h
  exact clustersOf_length h1

/-! ### What each part of SETUP and UPDATE_TABLES can do -/

theorem compileEvents_sat (sd : List SigDef) (p i prev : Nat) (evs : List CheckedEvent) (s : State) :
    (compileEvents sd p i prev evs s).Sat (Writes isLutField s)
      (fun c t => statusClass c = .actionMapping ∧ Writes isLutField s t) := by
  have hw := compileEvents_writes sd p evs i prev s
  cases hf : compileEvents sd p i prev evs s with
  | go t => simpa [hf] using hw
  | raised c t =>
    refine ⟨?_, by simpa [hf] using hw⟩
    clear hw
    induction evs generalizing i prev s with
    | nil => simp [compileEvents] at hf
    | cons ev evs ih =>
      unfold compileEvents at hf
      dsimp only at hf
      split at hf
      · rename_i d hd
        cases hf
        rcases resolveFrom_status _ _ hd with rfl | rfl <;> rfl
      · exact ih _ _ _ hf

theorem compileTable_sat (T : CheckedTable) (sd : List SigDef) (p : Nat) (s : State) :
    (compileTable T sd p s).Sat (Writes isLutField s)
      (fun c t => statusClass c = .actionMapping ∧ Writes isLutField s t) :=
  (compileEvents_sat _ _ _ _ _ _).mono (fun _ h => (initFirstPage_writes _ _).trans h)
    fun _ _ h => ⟨h.1, (initFirstPage_writes _ _).trans h.2⟩

/-- CompileTables writes the LUT only, and raises class (d) only (R270, R269). -/
theorem compileTables_sat (t0 : CheckedTable) (sd0 : List SigDef) (second : Option (CheckedTable × List SigDef))
    (s : State) :
    (compileTables t0 sd0 second s).Sat (Writes isLutField s)
      (fun c t => statusClass c = .actionMapping ∧ Writes isLutField s t) := by
  unfold compileTables
  split
  · exact compileTable_sat _ _ _ _
  · exact (compileTable_sat _ _ _ _).andThen fun u hu =>
      (compileTable_sat _ _ _ _).mono (fun _ h => hu.trans h) fun _ _ h => ⟨h.1, hu.trans h.2⟩

theorem writeDividers_sat (f : Nat) (l : List (Fin 4 × Cluster)) (s : State) :
    (writeDividers f l s).Sat (Writes isClkDivField s)
      (fun c t => c = .clkDividerError ∧ Writes isClkDivField s t) := by
  have hw := writeDividers_writes f l s
  cases hf : writeDividers f l s with
  | go t => simpa [hf] using hw
  | raised c t =>
    refine ⟨?_, by simpa [hf] using hw⟩
    clear hw
    induction l generalizing s with
    | nil => simp [writeDividers] at hf
    | cons a l ih =>
      unfold writeDividers at hf
      split at hf
      · cases hf; rfl
      · exact ih _ hf

/-- SolveClocks writes clock dividers only, raises class (b) only, and persists what it found (R210, R213, R219, R221). -/
theorem solveClocks_sat (sd0 : List SigDef) (sd1 : Option (List SigDef)) (s : State) :
    (solveClocks sd0 sd1 s).Sat
      (fun t => ∃ cs, solveClusters sd0 sd1 = .ok cs ∧ ∃ u, Writes isClkDivField s u ∧
        ((cs = [] ∧ t = u) ∨ (cs ≠ [] ∧ t = persistClusters cs u)))
      (fun c t => statusClass c = .resource ∧ Writes isClkDivField s t) := by
  unfold solveClocks
  split
  · rename_i c hc
    refine ⟨?_, .refl _⟩
    rcases solveClusters_status hc with rfl | rfl <;> rfl
  · rename_i hc
    exact ⟨[], hc, s, .refl _, .inl ⟨rfl, rfl⟩⟩
  · rename_i cs hne hc
    have h1 : (writeDividers s.drv.workingFreq.toNat (numbered cs) s).Sat (Writes isClkDivField s)
        (fun c t => statusClass c = .resource ∧ Writes isClkDivField s t) :=
      (writeDividers_sat _ _ _).mono (fun _ h => h) fun _ _ h => ⟨by rw [h.1]; rfl, h.2⟩
    exact h1.andThen fun u hu => ⟨cs, hc, u, hu, .inr ⟨hne, rfl⟩⟩

/-! ### Whole bodies -/

/-- CTRL_EN, CTRL_RST, CHKSUM_EN: the fields that control the engine and the checksum unit. -/
def isControlField : RegField → Prop
  | .ctrlEn | .ctrlRst | .chksumEn => True
  | _ => False

/-- A field UPDATE_TABLES programs after the stop and the checksum mode (R357, R358, R342–R344). -/
def isUpdateField : RegField → Prop
  | .lutLsb _ _ | .lutMsb _ _ | .sigTypeA _ | .sigTypeB _ | .runMode | .tlim _ | .dpDiv => True
  | _ => False

/-- What is left of `s` in `t` after programming that writes no control field and does not touch the driver status. -/
structure Programs (s t : State) : Prop where
  env : t.env = s.env
  input : t.input = s.input
  halted : t.halted = s.halted
  params : t.params = s.params
  draws : t.draws = s.draws
  returned : t.output.status = s.output.status
  status : t.drv.status = s.drv.status
  ctrlEn : t.regs.ctrlEn = s.regs.ctrlEn
  ctrlRst : t.regs.ctrlRst = s.regs.ctrlRst
  chksumEn : t.regs.chksumEn = s.regs.chksumEn
  effects : ∃ es, t.output.effects = es ++ s.output.effects ∧
    ∀ e ∈ es, (∃ f v, ¬ isControlField f ∧ e = .write f v) ∨ ∃ l c p, e = .registerIrq l c p

theorem Programs.refl (s : State) : Programs s s := ⟨rfl, rfl, rfl, rfl, rfl, rfl, rfl, rfl, rfl, rfl, [], by simp⟩

theorem Programs.trans {s t u : State} (h : Programs s t) (k : Programs t u) : Programs s u := by
  obtain ⟨es, h1, h2⟩ := h.effects
  obtain ⟨es', k1, k2⟩ := k.effects
  refine ⟨k.env.trans h.env, k.input.trans h.input, k.halted.trans h.halted, k.params.trans h.params,
    k.draws.trans h.draws, k.returned.trans h.returned, k.status.trans h.status, k.ctrlEn.trans h.ctrlEn,
    k.ctrlRst.trans h.ctrlRst, k.chksumEn.trans h.chksumEn, es' ++ es, by simp [k1, h1], ?_⟩
  intro e he
  rcases List.mem_append.1 he with h3 | h3
  · exact k2 e h3
  · exact h2 e h3

theorem Writes.programs {F : RegField → Prop} {s t : State} (h : Writes F s t) (hF : ∀ f, F f → ¬ isControlField f) :
    Programs s t := by
  obtain ⟨es, h1, h2⟩ := h.effects
  refine ⟨h.env, h.input, h.halted, h.params, h.draws, h.status, by rw [h.drv], h.ctrlEn (fun hf => hF _ hf trivial),
    h.ctrlRst (fun hf => hF _ hf trivial), h.chksumEn (fun hf => hF _ hf trivial), es, h1, ?_⟩
  intro e he
  obtain ⟨f, v, hf, rfl⟩ := h2 e he
  exact .inl ⟨f, v, hF f hf, rfl⟩

theorem persistClusters_programs (cs : List Cluster) (s : State) : Programs s (persistClusters cs s) :=
  ⟨rfl, rfl, rfl, rfl, rfl, rfl, rfl, rfl, rfl, rfl, [], by simp⟩

theorem storeIrq_programs (p : InitParams) (s : State) : Programs s (storeIrq p s) :=
  ⟨rfl, rfl, rfl, rfl, rfl, rfl, rfl, rfl, rfl, rfl, [], by simp⟩

theorem snapshotChecksum_programs (s : State) : Programs s s.snapshotChecksum :=
  ⟨rfl, rfl, rfl, rfl, rfl, rfl, rfl, rfl, rfl, rfl, [], by simp⟩

theorem emit_registerIrq_programs (l c p : Nat) (s : State) : Programs s (s.emit (.registerIrq l c p)) :=
  ⟨rfl, rfl, rfl, rfl, rfl, rfl, rfl, rfl, rfl, rfl, [.registerIrq l c p], rfl, fun _ h => .inr ⟨l, c, p, by simpa using h⟩⟩

theorem isLutField_not_control (f : RegField) (h : isLutField f) : ¬ isControlField f := by
  cases f <;> first | exact fun k => k | exact absurd h id
theorem isClkDivField_not_control (f : RegField) (h : isClkDivField f) : ¬ isControlField f := by
  cases f <;> first | exact fun k => k | exact absurd h id

/-- Between the reset pulse and the clock solver SETUP programs these fields (R339–R344). -/
def isSetupField : RegField → Prop
  | .sigTypeA _ | .sigTypeB _ | .mode | .slvRfsSrc | .slvRcsSrc | .slvDelay | .slvCsi2Unit | .slvCsi2Vc => True
  | .repeatCount | .runMode | .tlim _ | .timingMode | .dpDiv => True
  | _ => False

theorem setupProgram_writes (v : Plan) (p : InitParams) (s : State) : Writes isSetupField s (setupProgram v p s) := by
  have h1 := (programOutputTypes_writes v.sigDef0 v.sigDef1 (spansBoth v.table0 v.table1) s).mono (G := isSetupField)
    (by intro f; cases f <;> simp [isSigTypeField, isSetupField])
  have h2 : ∀ s, Writes isSetupField s (programMode p s) := fun s => (programMode_writes p s).mono
    (by intro f; cases f <;> simp [isModeField, isSetupField])
  have h3 : ∀ s, Writes isSetupField s (programRunMode v.table0 v.table1 s) := fun s =>
    (programRunMode_writes _ _ s).mono (by intro f; cases f <;> simp [isSetupField])
  have h4 : ∀ s, Writes isSetupField s (programLimits v.table0 v.table1 s) := fun s =>
    (programLimits_writes _ _ s).mono (by intro f; cases f <;> simp [isTlimField, isSetupField])
  have h5 : ∀ s, Writes isSetupField s (programDpDiv s) := fun s =>
    (programDpDiv_writes s).mono (by intro f; cases f <;> simp [isSetupField])
  exact (((((h1.trans (h2 _)).trans (.one .repeatCount _ trivial _)).trans (h3 _)).trans (h4 _)).trans
    (.one .timingMode _ trivial _)).trans (h5 _)

theorem isSetupField_not_control (f : RegField) (h : isSetupField f) : ¬ isControlField f := by
  cases f <;> first | exact fun k => k | exact absurd h id

theorem setupClocks_sat (v : Plan) (s : State) :
    (setupClocks v s).Sat (Programs s) (fun c t => statusClass c = .resource ∧ Programs s t) := by
  have h : (solveClocks v.sigDef0 v.sigDef1 s).Sat (Programs s) (fun c t => statusClass c = .resource ∧ Programs s t) := by
    refine (solveClocks_sat _ _ s).mono ?_ fun _ _ h => ⟨h.1, h.2.programs isClkDivField_not_control⟩
    rintro t ⟨cs, _, u, hu, ⟨_, rfl⟩ | ⟨_, rfl⟩⟩
    · exact hu.programs isClkDivField_not_control
    · exact (hu.programs isClkDivField_not_control).trans (persistClusters_programs _ _)
  exact h.andThen fun t ht => ht.trans ((programClockSelect_writes _ _ _ t).programs
    (by intro f h; cases f <;> first | exact fun k => k | exact absurd h id))

theorem configureInterrupts_sat (p : InitParams) (s : State) :
    (configureInterrupts p s).Sat (Programs s) (fun c t => c = .irqRegFailed ∧ Programs s t) := by
  have hw : ∀ v s, Programs s (s.write .irqEn v) := fun v s => (Writes.one (F := (· = .irqEn)) .irqEn v rfl s).programs
    (by rintro _ rfl; exact fun k => k)
  unfold configureInterrupts
  split
  · dsimp only
    split
    · exact ((emit_registerIrq_programs _ _ _ s).trans (hw _ _)).trans (storeIrq_programs _ _)
    · exact ⟨rfl, emit_registerIrq_programs _ _ _ s⟩
  · exact (hw _ s).trans (storeIrq_programs _ _)

/-- Everything past the register base (R334–R349). -/
theorem setupRun_sat (v : Plan) (p : InitParams) (s : State) :
    (setupRun v p s).Sat (fun t => ∃ u, Programs (setupPrepare v p s) u ∧ t = setupCommit v u)
      (fun c t => (statusClass c = .actionMapping ∨ statusClass c = .resource ∨ c = .irqRegFailed) ∧
        Programs (setupPrepare v p s) t) := by
  have h1 : (compileTables v.table0 v.sigDef0 v.second (setupPrepare v p s)).Sat (Programs (setupPrepare v p s))
      (fun c t => (statusClass c = .actionMapping ∨ statusClass c = .resource ∨ c = .irqRegFailed) ∧
        Programs (setupPrepare v p s) t) :=
    (compileTables_sat _ _ _ _).mono (fun _ h => h.programs isLutField_not_control) fun _ _ h =>
      ⟨.inl h.1, h.2.programs isLutField_not_control⟩
  refine h1.andThen fun t ht => ?_
  have ht2 := (ht.trans (snapshotChecksum_programs t)).trans
    ((setupProgram_writes v p t.snapshotChecksum).programs isSetupField_not_control)
  have h2 := (setupClocks_sat v (setupProgram v p t.snapshotChecksum)).mono (fun _ h => ht2.trans h)
    (R' := fun c t => (statusClass c = .actionMapping ∨ statusClass c = .resource ∨ c = .irqRegFailed) ∧
        Programs (setupPrepare v p s) t) fun _ _ h => ⟨.inr (.inl h.1), ht2.trans h.2⟩
  refine h2.andThen fun t ht => ?_
  refine ((configureInterrupts_sat p t).mono (fun _ h => ht.trans h) fun _ _ h => ⟨.inr (.inr h.1), ht.trans h.2⟩).andThen
    fun u hu => ⟨u, hu, rfl⟩

/-- SETUP up to its register base (R331–R333). -/
def setupEntry (s : State) : State := (s.beginCommand.setStatus .notInit).emit .resolveBase

/-- Everything SETUP can do (R330, R349): fail in the validator, fail at the register base, or pulse the reset and go on from
there, to OK or to a later status. -/
theorem setup_cases {p : InitParams} {s t : State} (h : exec (.setup p) s = .next t) :
    p.wf = true ∧
    ((∃ c, validate s.params p = .error c ∧ t = (s.beginCommand.setStatus .notInit).finish c) ∨
      ∃ v, validate s.params p = .ok v ∧
        ((s.env.baseOk = false ∧ t = (setupEntry s).finish .regBaseNull) ∨
          (s.env.baseOk = true ∧ ∃ u, Programs (setupPrepare v p (setupEntry s)) u ∧
            (t = (setupCommit v u).finish .ok ∨
              ∃ c, (statusClass c = .actionMapping ∨ statusClass c = .resource ∨ c = .irqRegFailed) ∧
                t = u.finish c)))) := by
  have hx : exec (.setup p) s = execSetup p s := rfl
  rw [hx, execSetup] at h
  split at h
  · rename_i hwf
    refine ⟨hwf, ?_⟩
    cases h
    unfold runCommand setupBody
    dsimp only
    rw [State.setStatus_params, State.beginCommand_params]
    cases hv : validate s.params p with
    | error c => exact .inl ⟨c, rfl, rfl⟩
    | ok v =>
      refine .inr ⟨v, rfl, ?_⟩
      dsimp only
      rw [State.emit_env, State.setStatus_env, State.beginCommand_env]
      cases hb : s.env.baseOk with
      | false => exact .inl ⟨rfl, rfl⟩
      | true =>
        refine .inr ⟨rfl, ?_⟩
        obtain ⟨c, u, hu, ⟨rfl, w, hw, rfl⟩ | ⟨hc, hw⟩⟩ := (setupRun_sat v p (setupEntry s)).result
        · exact ⟨w, hw, .inl hu⟩
        · exact ⟨u, hw, .inr ⟨c, hc, hu⟩⟩
  · cases h

theorem updateProgram_writes (t0 : CheckedTable) (t1 : Option CheckedTable) (s : State) :
    ∃ u, Writes isUpdateField s u ∧ updateProgram t0 t1 s = u.setStatus .initialized := by
  refine ⟨_, ?_, rfl⟩
  have h1 := (programOutputTypes_writes (s.drv.signalDef0.getD []) s.drv.signalDef1 (spansBoth t0 t1) s).mono
    (G := isUpdateField) (by intro f; cases f <;> simp [isSigTypeField, isUpdateField])
  have h3 : ∀ s, Writes isUpdateField s (programRunMode t0 t1 s) := fun s =>
    (programRunMode_writes _ _ s).mono (by intro f; cases f <;> simp [isUpdateField])
  have h4 : ∀ s, Writes isUpdateField s (programLimits t0 t1 s) := fun s =>
    (programLimits_writes _ _ s).mono (by intro f; cases f <;> simp [isTlimField, isUpdateField])
  have h5 : ∀ s, Writes isUpdateField s (programDpDiv s) := fun s =>
    (programDpDiv_writes s).mono (by intro f; cases f <;> simp [isUpdateField])
  exact ((h1.trans (h3 _)).trans (h4 _)).trans (h5 _)

theorem updateRun_sat (t0 : CheckedTable) (t1 : Option CheckedTable) (s : State) :
    (updateRun t0 t1 s).Sat
      (fun t => ∃ w u, Writes isLutField (updatePrepare (t0 :: t1.toList) s) w ∧ Writes isUpdateField w.snapshotChecksum u ∧
        t = u.setStatus .initialized)
      (fun c t => statusClass c = .actionMapping ∧ Writes isLutField (updatePrepare (t0 :: t1.toList) s) t) := by
  refine (compileTables_sat _ _ _ _).andThen fun t ht => ?_
  obtain ⟨u, hu, he⟩ := updateProgram_writes t0 t1 t.snapshotChecksum
  exact ⟨t, u, ht, hu, he⟩

/-- Everything UPDATE_TABLES can do (R350): stop before any write with one of the statuses of R323, R351 and R352, or stop
the engine and go on from there, to OK or to a later status. -/
theorem update_cases {u : UpdateParams} {s t : State} (h : exec (.updateTables u) s = .next t) :
    u.wf = true ∧
    ((s.drv.status = .notInit ∧ t = s.beginCommand.finish .notInitialized) ∨
      (s.drv.status ≠ .notInit ∧
        ((∃ c, statusClass c = .parameter ∧ t = s.beginCommand.finish c) ∨
          ∃ t0 t1, u.table1.isSome = s.drv.signalDef1.isSome ∧ validateTables u = .ok (t0, t1) ∧
            ((∃ w x, Writes isLutField (updatePrepare (t0 :: t1.toList) s.beginCommand) w ∧
                Writes isUpdateField w.snapshotChecksum x ∧ t = (x.setStatus .initialized).finish .ok) ∨
              ∃ c w, statusClass c = .actionMapping ∧
                Writes isLutField (updatePrepare (t0 :: t1.toList) s.beginCommand) w ∧ t = w.finish c)))) := by
  have hx : exec (.updateTables u) s = execUpdateTables u s := rfl
  rw [hx, execUpdateTables] at h
  split at h
  · rename_i hwf
    refine ⟨hwf, ?_⟩
    cases h
    unfold runCommand updateBody guardInitialized
    rw [State.beginCommand_drv]
    by_cases hs : s.drv.status = .notInit
    · simp only [hs, if_true]
      exact .inl ⟨trivial, rfl⟩
    · simp only [hs, if_false, Flow.andThen_go, State.beginCommand_drv]
      refine .inr ⟨hs, ?_⟩
      by_cases hp : table1PresenceDiffers u s.drv = true
      · simp only [hp, if_true]
        exact .inl ⟨.wrgPtrTable1, rfl, rfl⟩
      · simp only [hp]
        have hp' : u.table1.isSome = s.drv.signalDef1.isSome := by
          simpa [table1PresenceDiffers] using hp
        cases hv : validateTables u with
        | error c => exact .inl ⟨c, validateTables_status u c hv, rfl⟩
        | ok tt =>
          obtain ⟨t0, t1⟩ := tt
          refine .inr ⟨t0, t1, hp', rfl, ?_⟩
          obtain ⟨c, x, hx, ⟨rfl, w, y, hw, hy, rfl⟩ | ⟨hc, hw⟩⟩ := (updateRun_sat t0 t1 s.beginCommand).result
          · exact .inl ⟨w, y, hw, hy, hx⟩
          · exact .inr ⟨c, x, hc, hw, hx⟩
  · cases h

end Sys2Proof.Machine
end

