-- ==== Sys2Proof/Laws/Validated.lean ====
section
/-! SUPPORT. What a record that the validator accepts holds, and what fits the LUT because of it. -/

namespace Sys2Proof.Machine

/-- CheckTableContent keeps the number of events it is given (R166). -/
theorem checkEvents_length {E : List Event} : ∀ {es : List CheckedEvent}, checkEvents E = .ok es → es.length = E.length := by
  induction E with
  | nil => intro es h; cases h; rfl
  | cons e rest ih =>
    intro es h
    obtain ⟨as, _, h⟩ := bind_ok.1 h
    obtain ⟨_, _, h⟩ := bind_ok.1 h
    obtain ⟨rs, hr, h⟩ := bind_ok.1 h
    cases h
    simp [ih hr]

/-- An accepted table of a well-formed record holds `length` events, 1 to 64 of them (R32, R166). -/
theorem checkTable_length {T : TimeTable} {t : CheckedTable} (hwf : T.wf = true) (h : checkTable T = .ok t) :
    t.length = T.length.toNat ∧ t.events.length = t.length ∧ 1 ≤ t.length ∧ t.length ≤ 64 := by
  obtain ⟨_, h0, h⟩ := bind_ok.1 h
  obtain ⟨_, h1, h⟩ := bind_ok.1 h
  obtain ⟨E, hE, h⟩ := bind_ok.1 h
  obtain ⟨es, hes, h⟩ := bind_ok.1 h
  cases h
  have h0 := of_decide_eq_false (failIf_ok.1 h0)
  have h1 := of_decide_eq_false (failIf_ok.1 h1)
  have hE := orRaise_ok.1 hE
  simp only [TimeTable.wf, hE, Bool.and_eq_true, decide_eq_true_eq] at hwf
  simp only [Config.maxEventsSingle] at h1
  have := checkEvents_length hes
  rw [List.length_take] at this
  rw [Nat.min_eq_left hwf.1] at this
  refine ⟨rfl, this, ?_, ?_⟩ <;> dsimp only <;> omega

/-- The table of an accepted length (R166), for any record. -/
theorem checkTable_limit {T : TimeTable} {t : CheckedTable} (h : checkTable T = .ok t) :
    t.length = T.length.toNat ∧ t.execTimeLimit = T.execTimeLimit := by
  obtain ⟨_, _, h⟩ := bind_ok.1 h
  obtain ⟨_, _, h⟩ := bind_ok.1 h
  obtain ⟨_, _, h⟩ := bind_ok.1 h
  obtain ⟨_, _, h⟩ := bind_ok.1 h
  cases h
  exact ⟨rfl, rfl⟩

/-- Table 1 with its definitions, or neither (R168–R171). -/
theorem checkSecond_ok {T0 : TimeTable} {o1 : Option TimeTable} {sd1 : Option (List SigDef)}
    {r : Option (CheckedTable × List SigDef)} (h : checkSecond T0 o1 sd1 = .ok r) :
    (o1 = none ∧ sd1 = none ∧ r = none) ∨
      ∃ T1 L1 t1, o1 = some T1 ∧ sd1 = some L1 ∧ r = some (t1, L1) ∧ T0.length.toNat ≤ 32 ∧ T1.length.toNat ≤ 32 ∧
        checkSigDefs L1 = .ok () ∧ checkTable T1 = .ok t1 := by
  unfold checkSecond at h
  split at h
  · rename_i T1
    obtain ⟨_, h0, h⟩ := bind_ok.1 h
    obtain ⟨L1, h1, h⟩ := bind_ok.1 h
    obtain ⟨_, h2, h⟩ := bind_ok.1 h
    obtain ⟨t1, h3, h⟩ := bind_ok.1 h
    cases h
    have h0 := of_decide_eq_false (failIf_ok.1 h0)
    simp only [Config.maxEventsDouble] at h0
    exact .inr ⟨T1, L1, t1, rfl, orRaise_ok.1 h1, rfl, by omega, by omega, h2, h3⟩
  · obtain ⟨_, h0, h⟩ := bind_ok.1 h
    cases h
    exact .inl ⟨rfl, by simpa using failIf_ok.1 h0, rfl⟩

/-- What an accepted SETUP record holds (R161). -/
structure Accepted (par : Params) (p : InitParams) (v : Plan) : Prop where
  mode : checkMode par p = .ok ()
  freq : p.clockFreq ≠ 0
  table0 : ∃ T0, p.table0 = some T0 ∧ checkTable T0 = .ok v.table0 ∧ checkSecond T0 p.table1 p.sigDef1 = .ok v.second
  sigDef0 : p.sigDef0 = some v.sigDef0
  defs0 : checkSigDefs v.sigDef0 = .ok ()
  callback : p.irqEvents ≠ 0 → p.callback ≠ none

theorem validate_ok {par : Params} {p : InitParams} {v : Plan} (h : validate par p = .ok v) : Accepted par p v := by
  obtain ⟨_, h0, h⟩ := bind_ok.1 h
  obtain ⟨_, h1, h⟩ := bind_ok.1 h
  obtain ⟨T0, h2, h⟩ := bind_ok.1 h
  obtain ⟨t0, h3, h⟩ := bind_ok.1 h
  obtain ⟨sd0, h4, h⟩ := bind_ok.1 h
  obtain ⟨_, h5, h⟩ := bind_ok.1 h
  obtain ⟨snd, h6, h⟩ := bind_ok.1 h
  obtain ⟨_, h7, h⟩ := bind_ok.1 h
  cases h
  refine ⟨h0, of_decide_eq_false (failIf_ok.1 h1), ⟨T0, orRaise_ok.1 h2, h3, h6⟩, orRaise_ok.1 h4, h5, ?_⟩
  have h7 := failIf_ok.1 h7
  intro hi hc
  rw [hc, decide_eq_true hi] at h7
  cases h7

/-- An accepted mode is a working mode (R118, R162). -/
theorem checkMode_le {par : Params} {p : InitParams} (h : checkMode par p = .ok ()) : p.workingMode.toNat ≤ 2 := by
  obtain ⟨_, h0, _⟩ := bind_ok.1 h
  simpa [isWorkingMode] using failIf_ok.1 h0

theorem Accepted.sigDef1 {par : Params} {p : InitParams} {v : Plan} (h : Accepted par p v) :
    p.sigDef1 = v.sigDef1 ∧ p.table1.isSome = v.second.isSome := by
  obtain ⟨T0, _, _, h2⟩ := h.table0
  rcases checkSecond_ok h2 with ⟨h3, h4, h5⟩ | ⟨T1, L1, t1, h3, h4, h5, _⟩ <;> simp [Plan.sigDef1, h3, h4, h5]

/-- The definitions of Table 1 are accepted too (R169). -/
theorem Accepted.defs1 {par : Params} {p : InitParams} {v : Plan} (h : Accepted par p v) {T : CheckedTable}
    {L : List SigDef} (hs : v.second = some (T, L)) : checkSigDefs L = .ok () := by
  obtain ⟨T0, _, _, h2⟩ := h.table0
  rcases checkSecond_ok h2 with ⟨_, _, h5⟩ | ⟨T1, L1, t1, _, _, h5, _, _, h6, _⟩
  · simp [h5] at hs
  · rw [h5] at hs
    cases hs
    exact h6

/-- The tables of an accepted, well-formed record fit their pages (R168, R253). -/
theorem Accepted.fits {par : Params} {p : InitParams} {v : Plan} (h : Accepted par p v) (hwf : p.wf = true) :
    v.table0.events.length = v.table0.length ∧ 1 ≤ v.table0.length ∧ v.table0.length ≤ 64 ∧
      ∀ T L, v.second = some (T, L) →
        T.events.length = T.length ∧ 1 ≤ T.length ∧ T.length ≤ 32 ∧ v.table0.length ≤ 32 := by
  simp only [InitParams.wf, Bool.and_eq_true] at hwf
  obtain ⟨T0, h0, h1, h2⟩ := h.table0
  have hw0 : T0.wf = true := by simpa [h0, optWf] using hwf.1.1.1
  obtain ⟨e0, e1, e2, e3⟩ := checkTable_length hw0 h1
  refine ⟨e1, e2, e3, ?_⟩
  intro T L hs
  rcases checkSecond_ok h2 with ⟨_, _, h5⟩ | ⟨T1, L1, t1, h3, _, h5, h6, h7, _, h8⟩
  · simp [h5] at hs
  · rw [h5] at hs
    cases hs
    have hw1 : T1.wf = true := by simpa [h3, optWf] using hwf.1.1.2
    obtain ⟨f0, f1, f2, f3⟩ := checkTable_length hw1 h8
    exact ⟨f1, f2, by omega, by omega⟩

/-- The accepted definitions of a well-formed record hold no terminator (R32). -/
theorem Accepted.sigDefsWf {par : Params} {p : InitParams} {v : Plan} (h : Accepted par p v) (hwf : p.wf = true) :
    Sys2Proof.sigDefsWf v.sigDef0 = true ∧ ∀ L, v.sigDef1 = some L → Sys2Proof.sigDefsWf L = true := by
  simp only [InitParams.wf, Bool.and_eq_true] at hwf
  refine ⟨by simpa [h.sigDef0, optWf] using hwf.1.2, ?_⟩
  intro L hL
  simpa [h.sigDef1.1, hL, optWf] using hwf.2

/-- What an accepted UPDATE_TABLES record holds (R176). -/
theorem validateTables_ok {u : UpdateParams} {t0 : CheckedTable} {t1 : Option CheckedTable}
    (h : validateTables u = .ok (t0, t1)) :
    ∃ T0, u.table0 = some T0 ∧ checkTable T0 = .ok t0 ∧
      ((u.table1 = none ∧ t1 = none) ∨
        ∃ T1 c1, u.table1 = some T1 ∧ t1 = some c1 ∧ checkTable T1 = .ok c1 ∧ T0.length.toNat ≤ 32 ∧
          T1.length.toNat ≤ 32) := by
  obtain ⟨T0, h0, h⟩ := bind_ok.1 h
  obtain ⟨c0, h1, h⟩ := bind_ok.1 h
  obtain ⟨c1, h2, h⟩ := bind_ok.1 h
  cases h
  refine ⟨T0, orRaise_ok.1 h0, h1, ?_⟩
  unfold checkSecondTable at h2
  split at h2
  · rename_i T1 hT1
    obtain ⟨_, h3, h2⟩ := bind_ok.1 h2
    obtain ⟨d1, h4, h2⟩ := bind_ok.1 h2
    cases h2
    have h3 := of_decide_eq_false (failIf_ok.1 h3)
    simp only [Config.maxEventsDouble] at h3
    exact .inr ⟨T1, d1, hT1, rfl, h4, by omega, by omega⟩
  · rename_i hT1
    cases h2
    exact .inl ⟨hT1, rfl⟩

/-- The tables of an accepted, well-formed UPDATE_TABLES record fit their pages. -/
theorem validateTables_fits {u : UpdateParams} {t0 : CheckedTable} {t1 : Option CheckedTable} (hwf : u.wf = true)
    (h : validateTables u = .ok (t0, t1)) :
    u.table1.isSome = t1.isSome ∧ t0.events.length = t0.length ∧ 1 ≤ t0.length ∧ t0.length ≤ 64 ∧
      ∀ T, t1 = some T → T.events.length = T.length ∧ 1 ≤ T.length ∧ T.length ≤ 32 ∧ t0.length ≤ 32 := by
  simp only [UpdateParams.wf, Bool.and_eq_true] at hwf
  obtain ⟨T0, h0, h1, h2⟩ := validateTables_ok h
  have hw0 : T0.wf = true := by simpa [h0, optWf] using hwf.1
  obtain ⟨e0, e1, e2, e3⟩ := checkTable_length hw0 h1
  refine ⟨by rcases h2 with ⟨h3, h4⟩ | ⟨T1, c1, h3, h4, _⟩ <;> simp [h3, h4], e1, e2, e3, ?_⟩
  intro T hT
  rcases h2 with ⟨_, h4⟩ | ⟨T1, c1, h3, h4, h5, h6, h7⟩
  · rw [h4] at hT; cases hT
  · rw [h4] at hT
    cases hT
    have hw1 : T1.wf = true := by simpa [h3, optWf] using hwf.2
    obtain ⟨f0, f1, f2, f3⟩ := checkTable_length hw1 h5
    exact ⟨f1, f2, by omega, by omega⟩

/-- The main divider is 1..63 (R202), whatever the tables. -/
theorem selectMainDivider_range (par : Params) (maxD f : Nat) :
    1 ≤ selectMainDivider par maxD f ∧ selectMainDivider par maxD f ≤ 63 := by
  unfold selectMainDivider
  cases h : (List.range' 1 Config.maxMainDiv).find? (dividerFits par (ticksAtOne maxD f)) with
  | none => simp [Config.maxMainDiv]
  | some d =>
    have := List.mem_of_find?_eq_some h
    simp [Config.maxMainDiv] at this ⊢
    omega

/-- So it fits the driver state's eight bits. -/
theorem selectMainDivider_toNat (par : Params) (maxD f : Nat) :
    (BitVec.ofNat 8 (selectMainDivider par maxD f)).toNat = selectMainDivider par maxD f := by
  have := selectMainDivider_range par maxD f
  rw [BitVec.toNat_ofNat]
  omega

end Sys2Proof.Machine
end

