-- ==== Sys2Proof/Laws/Outcomes.lean ====
section
/-! SUPPORT. The runs of SETUP and UPDATE_TABLES that get all the way through, and those that stop in their tables: the
states in between, and what is known of each. -/

namespace Sys2Proof.Machine

/-! ### The tables -/

/-- The words of an event depend on the driver state through the frequency and the main divider only (R263). -/
theorem eventSlot_congr {par : Params} {d e : DriverState} {sd : List SigDef} {evs : List CheckedEvent}
    (hf : d.workingFreq = e.workingFreq) (hm : d.mainClockDivider = e.mainClockDivider) (i : Nat) :
    eventSlot par d sd evs i = eventSlot par e sd evs i := by
  have ht : ∀ t, eventTick d t = eventTick e t := fun t => by simp only [eventTick, nsToTicks, hf, hm]
  have hp : prevTick d evs i = prevTick e evs i := by cases i <;> simp only [prevTick, ht]
  simp only [eventSlot, hp, ht]

/-- An event's words depend on the events up to it only. -/
theorem eventSlot_append {par : Params} {d : DriverState} {sd : List SigDef} (pre post : List CheckedEvent) {i : Nat}
    (hi : i < pre.length) : eventSlot par d sd (pre ++ post) i = eventSlot par d sd pre i := by
  have hg : ∀ j, j < pre.length → (pre ++ post)[j]? = pre[j]? := fun j hj => List.getElem?_append_left hj
  have hp : prevTick d (pre ++ post) i = prevTick d pre i := by
    cases i with
    | zero => rfl
    | succ j => simp only [prevTick, hg j (by omega)]
  simp only [eventSlot, hg i hi, hp]

/-- A table whose every action resolves compiles to the end (R254). -/
theorem compileTable_go {T : CheckedTable} {sd : List SigDef} {p : Nat} {s : State} (hfit : Fits p T.events.length)
    (hres : allResolve s.params sd T.events) :
    ∃ u, compileTable T sd p s = .go u ∧ Writes isLutField s u ∧
      CompiledTo sd T.events p T.events.length (decide (T.events.length > 32)) s u := by
  have hw := compileTable_writes T sd p s
  rcases compileTable_spec T sd p s hfit with ⟨u, hu, _, hc⟩ | ⟨mid, ev, rest, c, u, he, _, hbad, _, _⟩
  · exact ⟨u, hu, by simpa [hu] using hw, hc⟩
  · obtain ⟨m, hm⟩ := hres ev (by simp [he])
    rw [hm] at hbad
    cases hbad

/-- The tables of a plan fit the LUT (R168, R253). -/
def TablesFit (t0 : CheckedTable) (second : Option (CheckedTable × List SigDef)) : Prop :=
  t0.events.length ≤ 64 ∧ ∀ T L, second = some (T, L) → T.events.length ≤ 32 ∧ t0.events.length ≤ 32

/-- Slot `k` of page 1 once both tables are compiled over the LUT `base`. -/
def compiledPage1 (par : Params) (d : DriverState) (sd0 : List SigDef) (evs0 : List CheckedEvent)
    (second : Option (CheckedTable × List SigDef)) (base : Lut) (k : Fin 32) : LutSlot :=
  match second with
  | some (T, L) => if k.val < T.events.length then eventSlot par d L T.events k.val else initialSlot k.val
  | none => slotAfter par d sd0 evs0 base 0 evs0.length (decide (evs0.length > 32)) 1 k

/-- Both tables resolve: CompileTables goes on, each page as its table leaves it (R270, R251–R254). -/
theorem compileTables_go {t0 : CheckedTable} {sd0 : List SigDef} {second : Option (CheckedTable × List SigDef)} {s : State}
    (hfit : TablesFit t0 second) (hres0 : allResolve s.params sd0 t0.events)
    (hres1 : ∀ T L, second = some (T, L) → allResolve s.params L T.events) :
    ∃ u, compileTables t0 sd0 second s = .go u ∧ Writes isLutField s u ∧
      (∀ k, lutAt u.regs.lut 0 k =
        slotAfter s.params s.drv sd0 t0.events s.regs.lut 0 t0.events.length (decide (t0.events.length > 32)) 0 k) ∧
      (∀ k, lutAt u.regs.lut 1 k = compiledPage1 s.params s.drv sd0 t0.events second s.regs.lut k) := by
  obtain ⟨u, hu, hw, hc⟩ := compileTable_go (p := 0) (.inl ⟨rfl, hfit.1⟩) hres0
  cases second with
  | none => exact ⟨u, hu, hw, fun k => hc 0 k, fun k => hc 1 k⟩
  | some x =>
    obtain ⟨T, L⟩ := x
    obtain ⟨h1, h0⟩ := hfit.2 T L rfl
    obtain ⟨w, hw1, hww, hcw⟩ := compileTable_go (T := T) (sd := L) (p := 1) (s := u) (.inr ⟨rfl, h1⟩)
      (by rw [hw.params]; exact hres1 T L rfl)
    refine ⟨w, by simp only [compileTables, hu, Flow.andThen_go, hw1], hw.trans hww, ?_, ?_⟩
    · intro k
      have e := hcw 0 k
      rw [e, slotAfter, if_neg (by decide), if_neg (by simpa using h1), hc 0 k]
    · intro k
      have e := hcw 1 k
      rw [e, slotAfter, if_pos (by decide), hw.drv, hw.params]
      rfl

/-- A table whose first unresolved event is `ev` raises that event's status there, the earlier events in place (R269). -/
theorem compileTable_raised {T : CheckedTable} {sd : List SigDef} {p : Nat} {s : State} {done : List CheckedEvent}
    {ev : CheckedEvent} {rest : List CheckedEvent} {c : Status} (hfit : Fits p T.events.length)
    (he : T.events = done ++ ev :: rest) (hres : allResolve s.params sd done)
    (hbad : resolveActions s.params sd ev.actions = .error c) :
    ∃ u, compileTable T sd p s = .raised c u ∧ Writes isLutField s u ∧
      CompiledTo sd T.events p done.length (decide (done.length ≥ 32)) s u := by
  have hwr := compileTable_writes T sd p s
  rcases compileTable_spec T sd p s hfit with ⟨u, _, hall, _⟩ | ⟨mid, ev', rest', d, u, he', hmid, hbad', hu, hc⟩
  · obtain ⟨m, hm⟩ := hall ev (by simp [he])
    rw [hbad] at hm
    cases hm
  · have hsame : mid = done ∧ d = c := by
      have h1 : done ++ ev :: rest = mid ++ ev' :: rest' := he.symm.trans he'
      rcases List.append_eq_append_iff.1 h1 with ⟨xs, h2, h3⟩ | ⟨xs, h2, h3⟩
      · cases xs with
        | nil =>
          simp only [List.nil_append, List.cons.injEq] at h3
          obtain ⟨rfl, _⟩ := h3
          have : Except.error (α := U64) d = .error c := hbad'.symm.trans hbad
          cases this
          exact ⟨by simpa using h2, rfl⟩
        | cons x xs =>
          simp only [List.cons_append, List.cons.injEq] at h3
          obtain ⟨m, hm⟩ := hmid ev (by simp [h2, h3.1])
          rw [hbad] at hm
          cases hm
      · cases xs with
        | nil =>
          simp only [List.nil_append, List.cons.injEq] at h3
          obtain ⟨rfl, _⟩ := h3
          have : Except.error (α := U64) d = .error c := hbad'.symm.trans hbad
          cases this
          exact ⟨by simpa using h2.symm, rfl⟩
        | cons x xs =>
          simp only [List.cons_append, List.cons.injEq] at h3
          obtain ⟨m, hm⟩ := hres ev' (by simp [h2, h3.1])
          rw [hm] at hbad'
          cases hbad'
    obtain ⟨rfl, rfl⟩ := hsame
    rw [hu, Flow.final_raised] at hwr
    exact ⟨u, hu, hwr, hc⟩

/-- CompileTables stopped in Table 0 (R269, R270). -/
theorem compileTables_raised0 {t0 : CheckedTable} {sd0 : List SigDef} {second : Option (CheckedTable × List SigDef)}
    {s : State} {done : List CheckedEvent} {ev : CheckedEvent} {rest : List CheckedEvent} {c : Status}
    (hfit : t0.events.length ≤ 64) (he : t0.events = done ++ ev :: rest) (hres : allResolve s.params sd0 done)
    (hbad : resolveActions s.params sd0 ev.actions = .error c) :
    ∃ u, compileTables t0 sd0 second s = .raised c u ∧ Writes isLutField s u ∧
      CompiledTo sd0 t0.events 0 done.length (decide (done.length ≥ 32)) s u := by
  obtain ⟨u, hu, hw, hc⟩ := compileTable_raised (.inl ⟨rfl, hfit⟩) he hres hbad
  refine ⟨u, ?_, hw, hc⟩
  cases second with
  | none => exact hu
  | some x => simp only [compileTables, hu, Flow.andThen_raised]

/-- CompileTables stopped in Table 1 (R269, R270): page 0 holds Table 0, page 1 Table 1's earlier events. -/
theorem compileTables_raised1 {t0 : CheckedTable} {sd0 : List SigDef} {T : CheckedTable} {L : List SigDef}
    {s : State} {done : List CheckedEvent} {ev : CheckedEvent} {rest : List CheckedEvent} {c : Status}
    (hfit0 : t0.events.length ≤ 32) (hfit1 : T.events.length ≤ 32) (hres0 : allResolve s.params sd0 t0.events)
    (he : T.events = done ++ ev :: rest) (hres : allResolve s.params L done)
    (hbad : resolveActions s.params L ev.actions = .error c) :
    ∃ u, compileTables t0 sd0 (some (T, L)) s = .raised c u ∧ Writes isLutField s u ∧
      (∀ k : Fin 32, lutAt u.regs.lut 0 k =
        if k.val < t0.events.length then eventSlot s.params s.drv sd0 t0.events k.val else initialSlot k.val) ∧
      ∀ k : Fin 32, lutAt u.regs.lut 1 k =
        if k.val < done.length then eventSlot s.params s.drv L T.events k.val else initialSlot k.val := by
  obtain ⟨w, hw, hww, hc0⟩ := compileTable_go (p := 0) (.inl ⟨rfl, by omega⟩) hres0
  obtain ⟨u, hu, hwu, hc1⟩ := compileTable_raised (T := T) (sd := L) (p := 1) (s := w) (.inr ⟨rfl, hfit1⟩) he
    (by rw [hww.params]; exact hres) (by rw [hww.params]; exact hbad)
  have hd : done.length < 32 := by
    have : T.events.length = done.length + (rest.length + 1) := by rw [he]; simp
    omega
  refine ⟨u, by simp only [compileTables, hw, Flow.andThen_go, hu], hww.trans hwu, fun k => ?_, fun k => ?_⟩
  · rw [hc1 0 k, slotAfter, if_neg (by decide), if_neg (by simp only [decide_eq_true_eq]; omega), hc0 0 k, slotAfter,
      if_pos (by decide)]
  · rw [hc1 1 k, slotAfter, if_pos (by decide), hww.drv, hww.params]

/-! ### The clock dividers -/

/-- A divider that is not in the list is not written. -/
theorem writeDividers_keep {f : Nat} {n : Fin 4} (l : List (Fin 4 × Cluster)) :
    ∀ s : State, n ∉ l.map Prod.fst → (writeDividers f l s).final.regs.clkDiv[n] = s.regs.clkDiv[n] := by
  induction l with
  | nil => intro s _; rfl
  | cons a l ih =>
    intro s hn
    simp only [List.map_cons, List.mem_cons, not_or] at hn
    unfold writeDividers
    split
    · rfl
    · rw [ih _ hn.2, State.write_regs]
      exact getElem_set_other _ _ fun e => hn.1 e.symm

/-- Dividers that are all legal are all written (R223). -/
theorem writeDividers_legal {f : Nat} (l : List (Fin 4 × Cluster)) :
    ∀ s : State, (l.map Prod.fst).Nodup → (∀ x ∈ l, linearDivider x.2.rep f ≤ 192) →
      writeDividers f l s = .go (writeDividers f l s).final ∧
        ∀ x ∈ l, (writeDividers f l s).final.regs.clkDiv[x.1] =
          truncBits s.params.clkDivBits (clkDivCode s.params (linearDivider x.2.rep f)) := by
  induction l with
  | nil => intro s _ _; exact ⟨rfl, by simp⟩
  | cons a l ih =>
    intro s hd hl
    simp only [List.map_cons, List.nodup_cons] at hd
    have ha : ¬ linearDivider a.2.rep f > Config.maxClkDiv := by
      have := hl a (by simp); simp only [Config.maxClkDiv]; omega
    obtain ⟨h1, h2⟩ := ih (s.write (.clkDiv a.1) (clkDivCode s.params (linearDivider a.2.rep f))) hd.2
      fun x hx => hl x (by simp [hx])
    have hunf : writeDividers f (a :: l) s = writeDividers f l
        (s.write (.clkDiv a.1) (clkDivCode s.params (linearDivider a.2.rep f))) := by
      rw [writeDividers, if_neg ha]
    rw [hunf]
    refine ⟨h1, fun x hx => ?_⟩
    rcases List.mem_cons.1 hx with rfl | hx
    · rw [writeDividers_keep _ _ hd.1, State.write_regs]
      simp [RegImage.write]
    · exact h2 x hx

/-- The first parts of a zip are an initial part of the first list. -/
theorem map_fst_zip_sublist {α β : Type} : ∀ (l : List α) (m : List β), ((l.zip m).map Prod.fst).Sublist l
  | [], _ => by simp
  | _ :: _, [] => by simp
  | _ :: l, _ :: m => by simpa using map_fst_zip_sublist l m

/-- The CLKDIV fields are assigned to the clusters in order, each once (R223). -/
theorem numbered_spec (cs : List Cluster) :
    ((numbered cs).map Prod.fst).Nodup ∧ ∀ (n : Fin 4) (c : Cluster), (n, c) ∈ numbered cs ↔ cs[n.val]? = some c := by
  constructor
  · exact (map_fst_zip_sublist _ _).nodup (List.nodup_finRange 4)
  · intro n c
    simp only [numbered, List.mem_iff_getElem?, List.getElem?_zip_eq_some]
    constructor
    · rintro ⟨i, h1, h2⟩
      have : i = n.val := by
        obtain ⟨hi, h3⟩ := List.getElem?_eq_some_iff.1 h1
        simp at h3
        exact congrArg Fin.val h3
      rwa [← this]
    · intro h
      exact ⟨n.val, by simp, h⟩

theorem writeDividers_go {f : Nat} {cs : List Cluster} {s : State} (hdiv : ∀ c ∈ cs, linearDivider c.rep f ≤ 192) :
    ∃ t, writeDividers f (numbered cs) s = .go t ∧ Writes isClkDivField s t ∧
      (∀ (n : Fin 4) (c : Cluster), cs[n.val]? = some c →
        t.regs.clkDiv[n] = truncBits s.params.clkDivBits (clkDivCode s.params (linearDivider c.rep f))) ∧
      ∀ n : Fin 4, cs.length ≤ n.val → t.regs.clkDiv[n] = s.regs.clkDiv[n] := by
  obtain ⟨h1, h2⟩ := numbered_spec cs
  obtain ⟨h3, h4⟩ := writeDividers_legal (f := f) (numbered cs) s h1 fun x hx =>
    hdiv x.2 (List.mem_of_getElem? ((h2 x.1 x.2).1 hx))
  refine ⟨_, h3, writeDividers_writes _ _ _, fun n c hc => h4 (n, c) ((h2 n c).2 hc), fun n hn => ?_⟩
  refine writeDividers_keep _ _ fun hm => ?_
  obtain ⟨⟨m, c⟩, hx, rfl⟩ := List.mem_map.1 hm
  have := (h2 m c).1 hx
  rw [List.getElem?_eq_none hn] at this
  cases this

/-- The solver's result as the driver state keeps it: nothing when there is no cluster (R213, R224). -/
def keepClusters (cs : List Cluster) (s : State) : State := if cs = [] then s else persistClusters cs s

theorem solveClocks_go {sd0 : List SigDef} {sd1 : Option (List SigDef)} {cs : List Cluster} {s : State}
    (hcs : solveClusters sd0 sd1 = .ok cs) (hdiv : ∀ c ∈ cs, linearDivider c.rep s.drv.workingFreq.toNat ≤ 192) :
    ∃ t, solveClocks sd0 sd1 s = .go (keepClusters cs t) ∧ Writes isClkDivField s t ∧
      (∀ (n : Fin 4) (c : Cluster), cs[n.val]? = some c →
        t.regs.clkDiv[n] =
          truncBits s.params.clkDivBits (clkDivCode s.params (linearDivider c.rep s.drv.workingFreq.toNat))) ∧
      ∀ n : Fin 4, cs.length ≤ n.val → t.regs.clkDiv[n] = s.regs.clkDiv[n] := by
  obtain ⟨t, h1, h2, h3⟩ := writeDividers_go (s := s) hdiv
  cases cs with
  | nil => exact ⟨s, by simp only [solveClocks, hcs, keepClusters, if_true], .refl s, by simp, fun _ _ => rfl⟩
  | cons c cs =>
    exact ⟨t, by simp only [solveClocks, hcs, h1, Flow.andThen_go, keepClusters, reduceCtorEq, if_false], h2, h3⟩

/-! ### The checksum -/

/-- The two halves of a 40-bit checksum, joined, are the checksum (R82). -/
theorem joinChecksum_halves (x : U40) : joinChecksum ((x >>> 32).setWidth 32) (x.setWidth 32) = x.setWidth 64 := by
  unfold joinChecksum
  apply BitVec.eq_of_getLsbD_eq
  intro i hi
  have hge := x.getLsbD_of_ge i
  rw [BitVec.getLsbD_setWidth, BitVec.getLsbD_append]
  by_cases h : i < 32
  · simp [h]
  · have e : 32 + (i - 32) = i := by omega
    by_cases h2 : i < 40
    · simp [h, show i - 32 < 8 by omega, e]
    · simp_all [show ¬ i - 32 < 8 by omega]

/-- While the checksum mode is on, what is read is the LUT's checksum (R63, R338). -/
theorem readChecksum_on {s : State} (h : s.regs.chksumEn = 1) :
    s.readChecksum = (Config.lutChecksum s.regs.lut).setWidth 64 := by
  rw [State.readChecksum, State.chksumHi, State.chksumLo, if_pos h, if_pos h, joinChecksum_halves]

/-! ### The clusters fit the driver state's words -/

theorem collectFrom_bound (L : List SigDef) : ∀ {P : List Nat}, collectFrom L = .ok P → ∀ x ∈ P, 1 ≤ x ∧ x < 2 ^ 32 := by
  induction L with
  | nil => intro P h; cases h; simp
  | cons d ds ih =>
    intro P h
    unfold collectFrom at h
    split at h
    · obtain ⟨_, h0, h⟩ := bind_ok.1 h
      obtain ⟨rest, hr, h⟩ := bind_ok.1 h
      cases h
      have h0 := of_decide_eq_false (failIf_ok.1 h0)
      intro x hx
      rcases List.mem_cons.1 hx with rfl | hx
      · have : d.clockPeriod.toNat ≠ 0 := fun e => h0 (BitVec.eq_of_toNat_eq e)
        exact ⟨by omega, d.clockPeriod.isLt⟩
      · exact ih hr x hx
    · exact ih h

/-- Every collected period is a positive 32-bit number (R211, R212). -/
theorem collectPeriods_bound {sd0 : List SigDef} {sd1 : Option (List SigDef)} {P : List Nat}
    (h : collectPeriods sd0 sd1 = .ok P) : ∀ x ∈ P, 1 ≤ x ∧ x < 2 ^ 32 := by
  obtain ⟨P0, h0, h⟩ := bind_ok.1 h
  obtain ⟨P1, h1, h⟩ := bind_ok.1 h
  cases h
  intro x hx
  rcases List.mem_append.1 hx with hx | hx
  · exact collectFrom_bound _ h0 x hx
  · exact collectFrom_bound _ h1 x hx

theorem mem_dedupAdjacent {x : Nat} : ∀ Q : List Nat, x ∈ dedupAdjacent Q ↔ x ∈ Q
  | [] => .rfl
  | [_] => .rfl
  | p :: q :: r => by
    have ih := mem_dedupAdjacent (x := x) (q :: r)
    unfold dedupAdjacent
    split
    · rename_i h
      subst h
      rw [ih]
      simp
    · rw [List.mem_cons, ih, ← List.mem_cons]

theorem mem_sortAscending {x : Nat} (P : List Nat) : x ∈ sortAscending P ↔ x ∈ P :=
  (List.perm_insertionSort _ P).mem_iff

/-- A merged representative is below the last merged period (R218), wrapped or not. -/
theorem mergedRepresentative_le (rep last : Nat) : mergedRepresentative rep last ≤ last := by
  unfold mergedRepresentative mulDiv
  rcases Nat.eq_zero_or_pos rep with rfl | h
  · simp
  · refine Nat.div_le_of_le_mul ?_
    calc rep * last * Config.mergeNum % 2 ^ 64 / Config.mergeDen
        ≤ rep * last * Config.mergeNum / Config.mergeDen := Nat.div_le_div_right (Nat.mod_le _ _)
      _ ≤ rep * last := by
        refine Nat.div_le_of_le_mul ?_
        rw [show Config.mergeDen = 10 from rfl, show Config.mergeNum = 8 from rfl]
        omega

theorem closeCluster_bound {first last k b : Nat} (h1 : first < b) (h2 : last < b) :
    (closeCluster first last k).low < b ∧ (closeCluster first last k).rep < b := by
  refine ⟨h1, ?_⟩
  simp only [closeCluster]
  split
  · exact lt_of_le_of_lt (mergedRepresentative_le _ _) h2
  · exact h1

theorem mergeFrom_bound {b : Nat} (Q : List Nat) :
    ∀ first last k, first < b → last < b → (∀ x ∈ Q, x < b) → ∀ c ∈ mergeFrom first last k Q, c.low < b ∧ c.rep < b := by
  induction Q with
  | nil =>
    intro first last k h1 h2 _ c hc
    obtain rfl := List.mem_singleton.1 hc
    exact closeCluster_bound h1 h2
  | cons q qs ih =>
    intro first last k h1 h2 hQ c hc
    have hq := hQ q (by simp)
    have hqs : ∀ x ∈ qs, x < b := fun x hx => hQ x (by simp [hx])
    unfold mergeFrom at hc
    split at hc
    · exact ih _ _ _ h1 hq hqs c hc
    · rcases List.mem_cons.1 hc with rfl | hc
      · exact closeCluster_bound h1 h2
      · exact ih _ _ _ hq hq hqs c hc

/-- Every cluster's period and representative fit 32 bits (R42, R43). -/
theorem solveClusters_bound {sd0 : List SigDef} {sd1 : Option (List SigDef)} {cs : List Cluster}
    (h : solveClusters sd0 sd1 = .ok cs) : ∀ c ∈ cs, c.low < 2 ^ 32 ∧ c.rep < 2 ^ 32 := by
  obtain ⟨P, hP, h⟩ := bind_ok.1 h
  have hQ : ∀ x ∈ dedupAdjacent (sortAscending P), x < 2 ^ 32 := fun x hx =>
    (collectPeriods_bound hP x (by rwa [mem_dedupAdjacent, mem_sortAscending] at hx)).2
  generalize dedupAdjacent (sortAscending P) = Q at h hQ
  unfold clustersOf at h
  split at h
  · cases h
    intro c hc
    obtain ⟨q, hq, rfl⟩ := List.mem_map.1 hc
    exact ⟨hQ q hq, hQ q hq⟩
  · split at h
    · cases h
    · cases h
      cases Q with
      | nil => intro c hc; cases hc
      | cons q qs => exact mergeFrom_bound qs q q 1 (hQ q (by simp)) (hQ q (by simp)) fun x hx => hQ x (by simp [hx])

/-- What the solver keeps, entry by entry (R224). -/
theorem storeFirst_toNat {vals : List Nat} {a : Vector U32 4} {j : Fin 4} {x : Nat} (h : vals[j.val]? = some x)
    (hx : x < 2 ^ 32) : ((storeFirst vals a)[j]).toNat = x := by
  have : (storeFirst vals a)[j] = BitVec.ofNat 32 x := by
    simp only [storeFirst, Fin.getElem_fin, Vector.getElem_ofFn, h]
  rw [this, BitVec.toNat_ofNat]
  exact Nat.mod_eq_of_lt hx

/-! ### A SETUP that gets through -/

/-- The states of a SETUP whose tables compile and whose clocks are solved: `u` after the tables, `w` after the dividers.
What is left is the clock select, the interrupts, and the commit. -/
structure SetupRuns (p : InitParams) (s : State) (v : Plan) (cs : List Cluster) (u w : State) : Prop where
  accepted : Accepted s.params p v
  tables : Writes isLutField (setupPrepare v p (setupEntry s)) u
  page0 : ∀ k, lutAt u.regs.lut 0 k =
    slotAfter s.params (setupPrepare v p (setupEntry s)).drv v.sigDef0 v.table0.events
      (setupPrepare v p (setupEntry s)).regs.lut 0 v.table0.events.length (decide (v.table0.events.length > 32)) 0 k
  page1 : ∀ k, lutAt u.regs.lut 1 k =
    compiledPage1 s.params (setupPrepare v p (setupEntry s)).drv v.sigDef0 v.table0.events v.second
      (setupPrepare v p (setupEntry s)).regs.lut k
  dividers : Writes isClkDivField (setupProgram v p u.snapshotChecksum) w
  codes : ∀ (n : Fin 4) (c : Cluster), cs[n.val]? = some c →
    w.regs.clkDiv[n] =
      truncBits s.params.clkDivBits (clkDivCode s.params (linearDivider c.rep p.clockFreq.toNat))
  unused : ∀ n : Fin 4, cs.length ≤ n.val → w.regs.clkDiv[n] = (setupProgram v p u.snapshotChecksum).regs.clkDiv[n]
  run : exec (.setup p) s = .next
    ((configureInterrupts p (programClockSelect v.sigDef0 v.sigDef1 (spansBoth v.table0 v.table1)
      (keepClusters cs w))).andThen fun s => .go (setupCommit v s)).result

/-- A SETUP whose tables compile goes on with its programming steps and the clock solver, from the state `u` that the
tables leave (R334–R344). -/
theorem setup_reaches_solver {p : InitParams} {s : State} {v : Plan} (hwf : p.wf = true) (hv : validate s.params p = .ok v)
    (hb : s.env.baseOk = true) (hres0 : allResolve s.params v.sigDef0 v.table0.events)
    (hres1 : ∀ T L, v.second = some (T, L) → allResolve s.params L T.events) :
    ∃ u, Writes isLutField (setupPrepare v p (setupEntry s)) u ∧
      (∀ k, lutAt u.regs.lut 0 k =
        slotAfter s.params (setupPrepare v p (setupEntry s)).drv v.sigDef0 v.table0.events
          (setupPrepare v p (setupEntry s)).regs.lut 0 v.table0.events.length (decide (v.table0.events.length > 32)) 0 k) ∧
      (∀ k, lutAt u.regs.lut 1 k =
        compiledPage1 s.params (setupPrepare v p (setupEntry s)).drv v.sigDef0 v.table0.events v.second
          (setupPrepare v p (setupEntry s)).regs.lut k) ∧
      exec (.setup p) s = .next ((setupClocks v (setupProgram v p u.snapshotChecksum)).andThen fun s =>
        (configureInterrupts p s).andThen fun s => .go (setupCommit v s)).result := by
  obtain ⟨f1, f2, f3, f4⟩ := (validate_ok hv).fits hwf
  have hfit : TablesFit v.table0 v.second := ⟨by omega, fun T L h => by have := f4 T L h; omega⟩
  obtain ⟨u, hu, hwu, hp0, hp1⟩ := compileTables_go (s := setupPrepare v p (setupEntry s)) hfit hres0 hres1
  refine ⟨u, hwu, hp0, hp1, ?_⟩
  have hx : exec (.setup p) s = execSetup p s := rfl
  have hu' : compileTables v.table0 v.sigDef0 v.second
      (setupPrepare v p ((s.beginCommand.setStatus .notInit).emit .resolveBase)) = .go u := hu
  rw [hx, execSetup, if_pos hwf, runCommand, setupBody]
  simp only [State.setStatus_params, State.beginCommand_params, hv, State.emit_env, State.setStatus_env,
    State.beginCommand_env, hb, if_true, setupRun, hu', Flow.andThen_go]

theorem setup_runs {p : InitParams} {s : State} {v : Plan} {cs : List Cluster} (hwf : p.wf = true)
    (hv : validate s.params p = .ok v) (hb : s.env.baseOk = true) (hres0 : allResolve s.params v.sigDef0 v.table0.events)
    (hres1 : ∀ T L, v.second = some (T, L) → allResolve s.params L T.events)
    (hcs : solveClusters v.sigDef0 v.sigDef1 = .ok cs) (hdiv : ∀ c ∈ cs, linearDivider c.rep p.clockFreq.toNat ≤ 192) :
    ∃ u w, SetupRuns p s v cs u w := by
  obtain ⟨u, hwu, hp0, hp1, hrun⟩ := setup_reaches_solver hwf hv hb hres0 hres1
  have hx := setupProgram_writes v p u.snapshotChecksum
  have hfreq : (setupProgram v p u.snapshotChecksum).drv.workingFreq = p.clockFreq := by
    rw [hx.drv, State.snapshotChecksum_drv, hwu.drv, setupPrepare_drv]
  have hpar : (setupProgram v p u.snapshotChecksum).params = s.params := by
    rw [hx.params, State.snapshotChecksum_params, hwu.params]; rfl
  obtain ⟨w, hw1, hw2, hw3, hw4⟩ := solveClocks_go (s := setupProgram v p u.snapshotChecksum) hcs (by rw [hfreq]; exact hdiv)
  rw [hfreq, hpar] at hw3
  refine ⟨u, w, validate_ok hv, hwu, hp0, hp1, hw2, hw3, hw4, ?_⟩
  rw [hrun]
  simp only [setupClocks, hw1, Flow.andThen_go]

/-! ### A SETUP or an UPDATE_TABLES that stops in its tables -/

/-- A SETUP whose compile raises a status ends with it, where the compile left off (R349). -/
theorem setup_stops {p : InitParams} {s : State} {v : Plan} {c : Status} {u : State} (hwf : p.wf = true)
    (hv : validate s.params p = .ok v) (hb : s.env.baseOk = true)
    (hu : compileTables v.table0 v.sigDef0 v.second (setupPrepare v p (setupEntry s)) = .raised c u) :
    exec (.setup p) s = .next (u.finish c) := by
  have hx : exec (.setup p) s = execSetup p s := rfl
  have hu' : compileTables v.table0 v.sigDef0 v.second
      (setupPrepare v p ((s.beginCommand.setStatus .notInit).emit .resolveBase)) = .raised c u := hu
  rw [hx, execSetup, if_pos hwf, runCommand, setupBody]
  simp only [State.setStatus_params, State.beginCommand_params, hv, State.emit_env, State.setStatus_env,
    State.beginCommand_env, hb, if_true, setupRun, hu', Flow.andThen_raised, Flow.result_raised]

/-- Table 1 with its snapshot definitions (R357). -/
theorem updateSecond_eq {t1 : Option CheckedTable} {d : DriverState} {L1 : List SigDef}
    (h : t1.isSome = true → d.signalDef1 = some L1) : updateSecond t1 d = t1.map fun T => (T, L1) := by
  cases t1 with
  | none => rfl
  | some T => simp [updateSecond, h rfl]

/-- An UPDATE_TABLES whose compile raises a status ends with it, where the compile left off (R353, R357). -/
theorem update_stops {u : UpdateParams} {s : State} {t0 : CheckedTable} {t1 : Option CheckedTable} {L0 L1 : List SigDef}
    {c : Status} {w : State} (hwf : u.wf = true) (hs : s.drv.status ≠ .notInit)
    (hp : u.table1.isSome = s.drv.signalDef1.isSome) (hv : validateTables u = .ok (t0, t1))
    (hL0 : s.drv.signalDef0 = some L0) (hL1 : t1.isSome = true → s.drv.signalDef1 = some L1)
    (hw : compileTables t0 L0 (t1.map fun T => (T, L1)) (updatePrepare (t0 :: t1.toList) s.beginCommand) = .raised c w) :
    exec (.updateTables u) s = .next (w.finish c) := by
  have hx : exec (.updateTables u) s = execUpdateTables u s := rfl
  have hpres : table1PresenceDiffers u s.drv = false := by simp [table1PresenceDiffers, hp]
  rw [hx, execUpdateTables, if_pos hwf, runCommand, updateBody, guardInitialized, State.beginCommand_drv, if_neg hs]
  simp only [Flow.andThen_go, State.beginCommand_drv, hpres, hv, updateRun, hL0, Option.getD_some, updateSecond_eq hL1, hw]
  rfl

/-! ### An UPDATE_TABLES that gets through -/

theorem update_runs {u : UpdateParams} {s : State} {t0 : CheckedTable} {t1 : Option CheckedTable} {L0 L1 : List SigDef}
    (hwf : u.wf = true) (hs : s.drv.status ≠ .notInit) (hp : u.table1.isSome = s.drv.signalDef1.isSome)
    (hv : validateTables u = .ok (t0, t1)) (hL0 : s.drv.signalDef0 = some L0)
    (hL1 : t1.isSome = true → s.drv.signalDef1 = some L1) (hres0 : allResolve s.params L0 t0.events)
    (hres1 : ∀ T, t1 = some T → allResolve s.params L1 T.events) :
    ∃ w, Writes isLutField (updatePrepare (t0 :: t1.toList) s.beginCommand) w ∧
      (∀ k, lutAt w.regs.lut 0 k =
        slotAfter s.params w.drv L0 t0.events s.regs.lut 0 t0.events.length (decide (t0.events.length > 32)) 0 k) ∧
      (∀ k, lutAt w.regs.lut 1 k =
        compiledPage1 s.params w.drv L0 t0.events (t1.map fun T => (T, L1)) s.regs.lut k) ∧
      exec (.updateTables u) s = .next ((updateProgram t0 t1 w.snapshotChecksum).finish .ok) := by
  obtain ⟨_, f1, f2, f3, f4⟩ := validateTables_fits hwf hv
  have hsec : updateSecond t1 s.drv = t1.map fun T => (T, L1) := updateSecond_eq hL1
  have hfit : TablesFit t0 (updateSecond t1 s.drv) := by
    refine ⟨by omega, fun T L h => ?_⟩
    rw [hsec] at h
    cases t1 with
    | none => cases h
    | some T1 => cases h; have := f4 T rfl; omega
  obtain ⟨w, hw, hww, hp0, hp1⟩ := compileTables_go (sd0 := L0)
    (s := updatePrepare (t0 :: t1.toList) s.beginCommand) hfit (by simpa using hres0) (by
      intro T L h
      rw [hsec] at h
      cases t1 with
      | none => cases h
      | some T1 => cases h; simpa using hres1 _ rfl)
  refine ⟨w, hww, ?_, ?_, ?_⟩
  · intro k
    rw [hp0 k, hww.drv]
    simp
  · intro k
    rw [hp1 k, hww.drv, hsec]
    simp
  · have hx : exec (.updateTables u) s = execUpdateTables u s := rfl
    have hpres : table1PresenceDiffers u s.drv = false := by simp [table1PresenceDiffers, hp]
    rw [hx, execUpdateTables, if_pos hwf, runCommand, updateBody, guardInitialized, State.beginCommand_drv, if_neg hs]
    simp only [Flow.andThen_go, State.beginCommand_drv, hpres, hv, updateRun, hL0, Option.getD_some, hw]
    rfl

end Sys2Proof.Machine
end

