-- ==== Sys2Proof/Laws/Clusters.lean ====
section
/-! SUPPORT. The solver's lists: distinct sorted periods (R214, R215), the clusters a sorted list merges into (R217),
finding one of them again (R226), and the divider that is refused (R221). -/

namespace Sys2Proof.Machine

/-- Two strictly ascending lists with the same members are one list. -/
theorem sorted_unique (Q R : List Nat) (h1 : Q.Pairwise (· < ·)) (h2 : R.Pairwise (· < ·))
    (h : ∀ x, x ∈ Q ↔ x ∈ R) : Q = R := by
  have n1 : Q.Nodup := h1.imp (fun h => Nat.ne_of_lt h)
  have n2 : R.Nodup := h2.imp (fun h => Nat.ne_of_lt h)
  have hp : Q.Perm R := (List.perm_ext_iff_of_nodup n1 n2).2 h
  exact List.Perm.eq_of_pairwise (fun a b _ _ h1 h2 => absurd h1 (by omega)) h1 h2 hp

/-- Collapsing the repeats of an ascending list leaves it strictly ascending (R215). -/
theorem dedupAdjacent_sorted : ∀ Q : List Nat, Q.Pairwise (· ≤ ·) → (dedupAdjacent Q).Pairwise (· < ·)
  | [], _ => by simp [dedupAdjacent]
  | [p], _ => by simp [dedupAdjacent]
  | p :: q :: r, h => by
    have ih := dedupAdjacent_sorted (q :: r) (List.pairwise_cons.1 h).2
    unfold dedupAdjacent
    split
    · exact ih
    · refine List.pairwise_cons.2 ⟨?_, ih⟩
      intro x hx
      rw [mem_dedupAdjacent] at hx
      have h1 := List.pairwise_cons.1 h
      have h2 := h1.1 q (by simp)
      have h3 := (List.pairwise_cons.1 h1.2).1
      rcases List.mem_cons.1 hx with rfl | hx
      · omega
      · have := h3 x hx; omega

/-- Collapsing never lengthens a list. -/
theorem dedupAdjacent_length : ∀ Q : List Nat, (dedupAdjacent Q).length ≤ Q.length
  | [] => by simp [dedupAdjacent]
  | [p] => by simp [dedupAdjacent]
  | p :: q :: r => by
    have ih := dedupAdjacent_length (q :: r)
    unfold dedupAdjacent
    split <;> simp at * <;> omega

/-- The clusters of a strictly ascending list: the first is the open one; their smallest members ascend and are members of
the list; every period lies in the LAST cluster whose smallest member is at most it, and within twice that member (R217). -/
theorem mergeFrom_spec (Q : List Nat) : ∀ first last k, (first :: Q).Pairwise (· < ·) → last ≥ first →
    let cs := mergeFrom first last k Q
    (∃ r cs', cs = ⟨first, r⟩ :: cs') ∧ (cs.map Cluster.low).Pairwise (· < ·) ∧ (∀ c ∈ cs, c.low = first ∨ c.low ∈ Q) ∧
    (∀ q ∈ Q, ∃ (n : Nat) (c : Cluster), cs[n]? = some c ∧ c.low ≤ q ∧ q < 2 * c.low ∧
      ∀ (m : Nat) (c' : Cluster), cs[m]? = some c' → n < m → q < c'.low) ∧
    (∀ c ∈ cs.tail, c.low ∈ Q) := by
  induction Q with
  | nil => intro first last k _ _; simp [mergeFrom, closeCluster]
  | cons q qs ih =>
    intro first last k hp hl
    have hp1 := List.pairwise_cons.1 hp
    have hfq := hp1.1 q (by simp)
    have hp2 := List.pairwise_cons.1 hp1.2
    dsimp only
    unfold mergeFrom
    by_cases hq : q < Config.mergeFactor * first
    · simp only [hq, if_true]
      have hp' : (first :: qs).Pairwise (· < ·) := List.pairwise_cons.2 ⟨fun y hy => hp1.1 y (by simp [hy]), hp2.2⟩
      obtain ⟨⟨r, cs', e⟩, b, c, d, t⟩ := ih first q (k+1) hp' (by omega)
      refine ⟨⟨r, cs', e⟩, b, ?_, ?_, ?_⟩
      · intro c' hc; rcases c c' hc with h | h
        · exact .inl h
        · exact .inr (by simp [h])
      · intro y hy
        rcases List.mem_cons.1 hy with rfl | hy
        · refine ⟨0, ⟨first, r⟩, by rw [e]; rfl, by simp; omega, by simpa [Config.mergeFactor] using hq, ?_⟩
          intro m c' hm h0
          have hm' : c' ∈ (mergeFrom first y (k+1) qs).tail := by
            rw [e] at hm ⊢
            obtain ⟨m', rfl⟩ : ∃ m', m = m' + 1 := ⟨m - 1, by omega⟩
            exact List.mem_of_getElem? (by simpa using hm)
          exact hp2.1 _ (t c' hm')
        · exact d y hy
      · intro c' hc; simp [t c' hc]
    · simp only [hq, if_false]
      obtain ⟨⟨r, cs', e⟩, b, c, d, t⟩ := ih q q 1 hp1.2 (le_refl _)
      have hlow : ∀ c' ∈ mergeFrom q q 1 qs, c'.low ∈ q :: qs := by
        intro c' hc; rcases c c' hc with h | h <;> simp [h]
      refine ⟨⟨_, _, rfl⟩, ?_, ?_, ?_, ?_⟩
      · simp only [List.map_cons, closeCluster, List.pairwise_cons]
        refine ⟨?_, b⟩
        intro y hy
        obtain ⟨c', hc, rfl⟩ := List.mem_map.1 hy
        exact hp1.1 _ (hlow c' hc)
      · intro c' hc; rcases List.mem_cons.1 hc with rfl | hc
        · exact .inl rfl
        · exact .inr (hlow c' hc)
      · intro y hy
        have hy' : ∃ (n : Nat) (c : Cluster), (mergeFrom q q 1 qs)[n]? = some c ∧ c.low ≤ y ∧ y < 2 * c.low ∧ ∀
            (m : Nat) (c' : Cluster), (mergeFrom q q 1 qs)[m]? = some c' → n < m → y < c'.low := by
          rcases List.mem_cons.1 hy with rfl | hy
          · refine ⟨0, ⟨y, r⟩, by rw [e]; rfl, le_refl _, by simp; omega, ?_⟩
            intro m c' hm h0
            have : c' ∈ (mergeFrom y y 1 qs).tail := by
              rw [e] at hm ⊢
              obtain ⟨m', rfl⟩ : ∃ m', m = m' + 1 := ⟨m - 1, by omega⟩
              exact List.mem_of_getElem? (by simpa using hm)
            exact hp2.1 _ (t c' this)
          · exact d y hy
        obtain ⟨n, c', g1, g2, g3, g4⟩ := hy'
        refine ⟨n + 1, c', by simpa using g1, g2, g3, ?_⟩
        intro m c'' hm hnm
        obtain ⟨m', rfl⟩ : ∃ m', m = m' + 1 := ⟨m - 1, by omega⟩
        exact g4 m' c'' (by simpa using hm) (by omega)
      · intro c' hc; exact hlow c' hc

/-- The clusters' spacing and representatives (R217, R218), with a cluster open whose last merged period is `last`, `k` of
them: each next smallest member is at least twice the previous one, and each representative is the merged one of the
cluster's smallest and greatest period, or its only period. -/
theorem mergeFrom_members (Q : List Nat) : ∀ first last k, (first :: Q).Pairwise (· < ·) → (last :: Q).Pairwise (· < ·) →
    first ≤ last → last < 2 * first → 1 ≤ k → (k > 1 ↔ last ≠ first) →
    let cs := mergeFrom first last k Q
    (cs.map Cluster.low).Pairwise (fun a b => 2 * a ≤ b) ∧
    ∀ c ∈ cs, ∃ l ∈ last :: Q, c.low ≤ l ∧ l < 2 * c.low ∧ (∀ q ∈ Q, q < 2 * c.low → q ≤ l) ∧
      c.rep = if l = c.low then c.low else mergedRepresentative c.low l := by
  have close : ∀ first last k, (k > 1 ↔ last ≠ first) →
      (closeCluster first last k).rep = if last = first then first else mergedRepresentative first last := by
    intro first last k hk
    simp only [closeCluster, hk]
    by_cases h : last = first <;> simp [h]
  induction Q with
  | nil =>
    intro first last k _ _ h1 h2 _ hk
    simp only [mergeFrom, List.map_cons, List.map_nil, List.pairwise_singleton, List.mem_singleton, true_and]
    rintro c rfl
    exact ⟨last, rfl, h1, h2, by simp, close _ _ _ hk⟩
  | cons q qs ih =>
    intro first last k hf hl h1 h2 hk1 hk
    have hlq := (List.pairwise_cons.1 hl).1 q (by simp)
    have hq := (List.pairwise_cons.1 hl).2
    have hqle : ∀ x ∈ q :: qs, q ≤ x := by
      intro x hx
      rcases List.mem_cons.1 hx with rfl | hx
      · exact le_refl _
      · exact Nat.le_of_lt ((List.pairwise_cons.1 hq).1 x hx)
    dsimp only
    unfold mergeFrom
    by_cases hm : q < Config.mergeFactor * first
    · simp only [hm, if_true]
      have hf' : (first :: qs).Pairwise (· < ·) :=
        List.pairwise_cons.2 ⟨fun y hy => (List.pairwise_cons.1 hf).1 y (by simp [hy]), (List.pairwise_cons.1 hq).2⟩
      obtain ⟨b, m⟩ := ih first q (k + 1) hf' hq (by omega) (by simpa [Config.mergeFactor] using hm)
        (by omega) ⟨fun _ => by omega, fun _ => by omega⟩
      refine ⟨b, fun c hc => ?_⟩
      obtain ⟨l, hl1, hl2, hl3, hl4, hl5⟩ := m c hc
      refine ⟨l, List.mem_cons_of_mem _ hl1, hl2, hl3, ?_, hl5⟩
      intro x hx hx2
      rcases List.mem_cons.1 hx with rfl | hx
      · exact hqle l hl1
      · exact hl4 x hx hx2
    · simp only [hm, if_false]
      simp only [Config.mergeFactor] at hm
      obtain ⟨b, m⟩ := ih q q 1 hq hq (le_refl _) (by omega) (le_refl _) (by simp)
      obtain ⟨_, _, lows, _, _⟩ := mergeFrom_spec qs q q 1 hq (le_refl _)
      refine ⟨?_, fun c hc => ?_⟩
      · rw [List.map_cons, List.pairwise_cons]
        refine ⟨fun y hy => ?_, b⟩
        obtain ⟨c, hc, rfl⟩ := List.mem_map.1 hy
        have : q ≤ c.low := hqle _ (by rcases lows c hc with h | h <;> simp [h])
        simp only [closeCluster]
        omega
      · rcases List.mem_cons.1 hc with rfl | hc
        · refine ⟨last, by simp, h1, h2, fun x hx hx2 => ?_, close _ _ _ hk⟩
          have := hqle x hx
          simp only [closeCluster] at hx2
          omega
        · obtain ⟨l, hl1, hl2, hl3, hl4, hl5⟩ := m c hc
          refine ⟨l, List.mem_cons_of_mem _ hl1, hl2, hl3, ?_, hl5⟩
          intro x hx hx2
          rcases List.mem_cons.1 hx with rfl | hx
          · exact hqle l hl1
          · exact hl4 x hx hx2

/-- A search that the first `n + 1` entries satisfy, and no later one, answers `n` (R226). -/
theorem lastAtMost_spec (p : Nat) (L : List U32) : ∀ j acc n, n < L.length → (∀ m (h : m < L.length),
    (L[m]).toNat ≤ p ↔ m ≤ n ) → lastAtMost p j acc L = j + n := by
  induction L with
  | nil => intro j acc n hn; simp at hn
  | cons l ls ih =>
    intro j acc n hn h
    unfold lastAtMost
    have h0 := h 0 (by simp)
    simp at h0
    rw [if_pos h0]
    cases n with
    | zero =>
      have : ∀ (ls : List U32) j acc, (∀ x ∈ ls, ¬ x.toNat ≤ p) → lastAtMost p j acc ls = acc := by
        intro ls; induction ls with
        | nil => intro j acc _; rfl
        | cons y ys ih2 =>
          intro j acc hy
          unfold lastAtMost
          rw [if_neg (hy y (by simp)), ih2 _ _ (fun x hx => hy x (by simp [hx]))]
      rw [this]
      · rfl
      · intro x hx
        obtain ⟨m, hm, rfl⟩ := List.mem_iff_getElem.1 hx
        have := h (m+1) (by simpa using hm)
        simp at this; simpa using this
    | succ n =>
      rw [ih (j+1) j n (by simpa using hn)]
      · omega
      · intro m hm
        have := h (m+1) (by simpa using hm)
        simp at this; simpa using this

/-- Legal dividers are written up to the first that is not, which raises CLK_DIVIDER_ERROR (R221, R223). -/
theorem writeDividers_split {f : Nat} {bad : Fin 4 × Cluster} {rest : List (Fin 4 × Cluster)}
    (hb : 192 < linearDivider bad.2.rep f) (l : List (Fin 4 × Cluster)) :
    ∀ s, (∀ x ∈ l, linearDivider x.2.rep f ≤ 192) →
      writeDividers f (l ++ bad :: rest) s = .raised .clkDividerError (writeDividers f l s).final := by
  induction l with
  | nil => intro s _; simp [writeDividers, Config.maxClkDiv, hb]
  | cons a l ih =>
    intro s h
    have ha : ¬ linearDivider a.2.rep f > Config.maxClkDiv := by
      have := h a (by simp)
      simp only [Config.maxClkDiv]
      omega
    rw [List.cons_append, writeDividers, if_neg ha, ih _ (fun x hx => h x (by simp [hx])), writeDividers, if_neg ha]

end Sys2Proof.Machine
end

