-- ==== Sys2Proof/Laws/Fields.lean ====
section
/-! SUPPORT. Masked fields bit by bit, and with them what the output types and the clock select leave in their registers
(R126–R128, R227, R301–R307). -/

namespace Sys2Proof.Machine

/-! ### One masked field -/

/-- Bit `b` of the number 3. -/
theorem three_bit (b : Nat) : (3#32).getLsbD b = decide (b < 2) := by
  match b with
  | 0 => rfl
  | 1 => rfl
  | b + 2 =>
    have h : (3 : Nat).testBit (b + 2) = false :=
      Nat.testBit_lt_two_pow (lt_of_lt_of_le (by norm_num : 3 < 2 ^ 2) (Nat.pow_le_pow_right (by norm_num) (by omega)))
    simpa [BitVec.getLsbD] using h

theorem mask2_bit (pos : Nat) {b : Nat} (hb : b < 32) : (mask2 pos).getLsbD b = decide (pos ≤ b ∧ b < pos + 2) := by
  rw [mask2, BitVec.getLsbD_shiftLeft, three_bit]
  by_cases h : pos ≤ b
  · simp [hb, h, show ¬ b < pos by omega]; omega
  · simp [h]

theorem mask1_bit (pos : Nat) {b : Nat} (hb : b < 32) : (mask1 pos).getLsbD b = decide (b = pos) := by
  rw [mask1, BitVec.getLsbD_shiftLeft]
  by_cases h : pos ≤ b
  · simp [-BitVec.getLsbD_eq_getElem, hb, BitVec.getLsbD_one, show ¬ b < pos by omega]; omega
  · simp [h, show ¬ b = pos by omega]

/-- Writing a 2-bit field (R85): the field's bits are the value's, the others stay. -/
theorem maskedWrite_mask2 (reg v : U32) (pos : Nat) {b : Nat} (hb : b < 32) :
    (maskedWrite reg (mask2 pos) (v <<< pos)).getLsbD b =
      if pos ≤ b ∧ b < pos + 2 then v.getLsbD (b - pos) else reg.getLsbD b := by
  simp only [maskedWrite, BitVec.getLsbD_or, BitVec.getLsbD_and, BitVec.getLsbD_not, BitVec.getLsbD_shiftLeft,
    mask2_bit pos hb, hb, decide_true, Bool.true_and]
  by_cases h : pos ≤ b ∧ b < pos + 2
  · simp [h, show ¬ b < pos by omega]
  · simp [h]

/-- Setting one bit (R85). -/
theorem maskedWrite_mask1 (reg : U32) (pos : Nat) {b : Nat} (hb : b < 32) :
    (maskedWrite reg (mask1 pos) (mask1 pos)).getLsbD b = (decide (b = pos) || reg.getLsbD b) := by
  simp only [maskedWrite, BitVec.getLsbD_or, BitVec.getLsbD_and, BitVec.getLsbD_not, mask1_bit pos hb, hb, decide_true,
    Bool.true_and]
  by_cases h : b = pos <;> simp [h]

/-! ### The last of a list with a property, one more appended -/

theorem getLast?_filter_append_pos {α : Type} {p : α → Bool} {l : List α} {x : α} (h : p x = true) :
    ((l ++ [x]).filter p).getLast? = some x := by simp [List.filter_append, h]

theorem getLast?_filter_append_neg {α : Type} {p : α → Bool} {l : List α} {x : α} (h : p x = false) :
    ((l ++ [x]).filter p).getLast? = (l.filter p).getLast? := by simp [List.filter_append, h]

/-! ### The output types -/

/-- The type of the last definition of output `e`, HiZ (0) with none (R302, R307). -/
def typeOf (defs : List SigDef) (e : Nat) : U32 :=
  ((defs.filter fun d => decide (d.outputSignal.toNat = e)).getLast?.map SigDef.signalType).getD 0

theorem typeOf_append (l : List SigDef) (x : SigDef) (e : Nat) :
    typeOf (l ++ [x]) e = if x.outputSignal.toNat = e then x.signalType else typeOf l e := by
  unfold typeOf
  by_cases h : x.outputSignal.toNat = e
  · rw [getLast?_filter_append_pos (by simpa using h), if_pos h]; rfl
  · rw [getLast?_filter_append_neg (by simpa using h), if_neg h]

/-- The definition `d` writes bit `b` of SIGTYPE[t].A (R126, R303, R304): an SPT Toggle entry the SPT bit, a CTEP entry the
two bits of its field. -/
def writesBitA (par : Params) (b : Nat) (d : SigDef) : Bool :=
  decide ((d.outputSignal.toNat ≤ 3 ∧ d.signalType = 1 ∧ b = par.sptTypeBit.val) ∨
    (4 ≤ d.outputSignal.toNat ∧ d.outputSignal.toNat ≤ 11 ∧ 16 ≤ b ∧ d.outputSignal.toNat = 4 + (b - 16) / 2))

/-- What it writes there: 1 for SPT, else a bit of its type. -/
def bitWrittenA (b : Nat) (d : SigDef) : Bool :=
  if d.outputSignal.toNat ≤ 3 then true else d.signalType.getLsbD (b % 2)

/-- Bit `b` of SIGTYPE[t].A once the definitions have been programmed: what the last one that writes it wrote (R126, R302,
R307). -/
def typeBitA (par : Params) (defs : List SigDef) (b : Nat) : Bool :=
  ((defs.filter (writesBitA par b)).getLast?.map (bitWrittenA b)).getD false

theorem typeBitA_append (par : Params) (l : List SigDef) (x : SigDef) (b : Nat) :
    typeBitA par (l ++ [x]) b = if writesBitA par b x then bitWrittenA b x else typeBitA par l b := by
  unfold typeBitA
  by_cases h : writesBitA par b x = true
  · rw [getLast?_filter_append_pos h, if_pos h]; rfl
  · rw [getLast?_filter_append_neg (by simpa using h), if_neg h]

/-- Bit `b` of SIGTYPE[t].B (R127, R305). -/
def typeBitB (defs : List SigDef) (b : Nat) : Bool := decide (b < 4) && (typeOf defs (12 + b / 2)).getLsbD (b % 2)

/-- A family's two registers. -/
def State.typesA (t : Fin 2) (s : State) : U32 := s.regs.sigTypeA[t]
def State.typesB (t : Fin 2) (s : State) : U32 := s.regs.sigTypeB[t]

theorem typesA_writeMasked (t : Fin 2) (m v : U32) (s : State) :
    (s.writeMasked (.sigTypeA t) m v).typesA t = maskedWrite (s.typesA t) m v := by
  simp [State.typesA, RegImage.write, RegImage.read]
theorem typesB_writeMasked (t : Fin 2) (m v : U32) (s : State) :
    (s.writeMasked (.sigTypeB t) m v).typesB t = maskedWrite (s.typesB t) m v := by
  simp [State.typesB, RegImage.write, RegImage.read]
theorem typesA_writeMasked_B (t : Fin 2) (m v : U32) (s : State) :
    (s.writeMasked (.sigTypeB t) m v).typesA t = s.typesA t := rfl
theorem typesB_writeMasked_A (t : Fin 2) (m v : U32) (s : State) :
    (s.writeMasked (.sigTypeA t) m v).typesB t = s.typesB t := rfl

/-- The four shapes of a definition (R111, R112). -/
theorem programType_spt {t : Fin 2} {s : State} {d : SigDef} (h : d.outputSignal.toNat ≤ 3) :
    programType t s d =
      if d.signalType = 1 then s.writeMasked (.sigTypeA t) (mask1 s.params.sptTypeBit.val) (mask1 s.params.sptTypeBit.val)
      else s := by
  simp only [programType, isSPT, h, decide_true, if_true, typeToggle]
theorem programType_ctep {t : Fin 2} {s : State} {d : SigDef} (h : 4 ≤ d.outputSignal.toNat ∧ d.outputSignal.toNat ≤ 11) :
    programType t s d = s.writeMasked (.sigTypeA t) (mask2 (16 + 2 * (d.outputSignal.toNat - 4)))
      (d.signalType <<< (16 + 2 * (d.outputSignal.toNat - 4))) := by
  simp only [programType, isSPT, isCTEP, show ¬ d.outputSignal.toNat ≤ 3 by omega, h, decide_false, decide_true,
    Bool.false_eq_true, if_false, if_true, and_self]
theorem programType_rcsrfs {t : Fin 2} {s : State} {d : SigDef} (h : d.outputSignal.toNat = 12 ∨ d.outputSignal.toNat = 13) :
    programType t s d = s.writeMasked (.sigTypeB t) (mask2 (2 * (d.outputSignal.toNat - 12)))
      (d.signalType <<< (2 * (d.outputSignal.toNat - 12))) := by
  simp only [programType, isSPT, isCTEP, isRCSRFS, show ¬ d.outputSignal.toNat ≤ 3 by omega,
    show ¬ (4 ≤ d.outputSignal.toNat ∧ d.outputSignal.toNat ≤ 11) by omega, h, decide_false, decide_true,
    Bool.false_eq_true, if_false, if_true]
theorem programType_flex {t : Fin 2} {s : State} {d : SigDef} (h : 14 ≤ d.outputSignal.toNat) : programType t s d = s := by
  simp only [programType, isSPT, isCTEP, isRCSRFS, show ¬ d.outputSignal.toNat ≤ 3 by omega,
    show ¬ (4 ≤ d.outputSignal.toNat ∧ d.outputSignal.toNat ≤ 11) by omega,
    show ¬ (d.outputSignal.toNat = 12 ∨ d.outputSignal.toNat = 13) by omega, decide_false, Bool.false_eq_true, if_false]

/-- The registers hold the types of `l`; one definition more is programmed. -/
theorem programType_bits {t : Fin 2} {par : Params} {u : State} {l : List SigDef} {x : SigDef} (hpar : u.params = par)
    {b : Nat} (hb : b < 32) (hA : (u.typesA t).getLsbD b = typeBitA par l b)
    (hB : (u.typesB t).getLsbD b = typeBitB l b) :
    ((programType t u x).typesA t).getLsbD b = typeBitA par (l ++ [x]) b ∧
      ((programType t u x).typesB t).getLsbD b = typeBitB (l ++ [x]) b := by
  rw [typeBitA_append]
  have restA : ¬ (x.outputSignal.toNat ≤ 3 ∧ x.signalType = 1) →
      ¬ (4 ≤ x.outputSignal.toNat ∧ x.outputSignal.toNat ≤ 11) →
      (if writesBitA par b x then bitWrittenA b x else typeBitA par l b) = typeBitA par l b := by
    intro h1 h2
    have hw : ¬ writesBitA par b x = true := by
      simp only [writesBitA, decide_eq_true_eq]
      rintro (⟨h3, h4, _⟩ | ⟨h3, h4, _⟩)
      · exact h1 ⟨h3, h4⟩
      · exact h2 ⟨h3, h4⟩
    rw [if_neg hw]
  have restB : ¬ (x.outputSignal.toNat = 12 ∨ x.outputSignal.toNat = 13) → typeBitB (l ++ [x]) b = typeBitB l b := by
    intro h1
    unfold typeBitB
    by_cases q : b < 4
    · rw [typeOf_append, if_neg (by omega)]
    · simp [q]
  rcases (by omega : x.outputSignal.toNat ≤ 3 ∨ (4 ≤ x.outputSignal.toNat ∧ x.outputSignal.toNat ≤ 11) ∨
    (x.outputSignal.toNat = 12 ∨ x.outputSignal.toNat = 13) ∨ 14 ≤ x.outputSignal.toNat) with h | h | h | h
  · rw [programType_spt h, restB (by omega)]
    by_cases ht : x.signalType = 1
    · rw [if_pos ht, typesA_writeMasked, typesB_writeMasked_A, maskedWrite_mask1 _ _ hb, hA, hpar]
      refine ⟨?_, hB⟩
      by_cases r : b = par.sptTypeBit.val
      · rw [if_pos (by simp [writesBitA, h, ht, r]), bitWrittenA, if_pos h, decide_eq_true r, Bool.true_or]
      · have hw : ¬ writesBitA par b x = true := by
          simp only [writesBitA, decide_eq_true_eq]
          rintro (⟨_, _, h3⟩ | ⟨h3, _⟩)
          · exact r h3
          · omega
        rw [if_neg hw, decide_eq_false r, Bool.false_or]
    · rw [if_neg ht, restA (fun k => ht k.2) (by omega)]
      exact ⟨hA, hB⟩
  · rw [programType_ctep h, restB (by omega), typesA_writeMasked, typesB_writeMasked_A, maskedWrite_mask2 _ _ _ hb, hA]
    refine ⟨?_, hB⟩
    by_cases r : 16 ≤ b ∧ x.outputSignal.toNat = 4 + (b - 16) / 2
    · rw [if_pos (by omega), if_pos (by simp only [writesBitA, decide_eq_true_eq]; omega), bitWrittenA, if_neg (by omega),
        show b - (16 + 2 * (x.outputSignal.toNat - 4)) = b % 2 by omega]
    · rw [if_neg (by omega), if_neg (by simp only [writesBitA, decide_eq_true_eq]; omega)]
  · rw [programType_rcsrfs h, typesA_writeMasked_B, typesB_writeMasked, maskedWrite_mask2 _ _ _ hb, hA, hB,
      restA (by omega) (by omega)]
    refine ⟨rfl, ?_⟩
    unfold typeBitB
    rw [typeOf_append]
    by_cases r : x.outputSignal.toNat = 12 + b / 2
    · rw [if_pos (by omega), if_pos r, show b - 2 * (x.outputSignal.toNat - 12) = b % 2 by omega,
        decide_eq_true (by omega : b < 4), Bool.true_and]
    · rw [if_neg r]
      by_cases q : b < 4
      · rw [if_neg (by omega)]
      · rw [if_neg (by omega)]
  · rw [programType_flex h, hA, hB, restB (by omega), restA (by omega) (by omega)]
    exact ⟨rfl, rfl⟩

/-- One family, bit by bit (R301–R307). -/
theorem programFamily_bits (t : Fin 2) (defs : List SigDef) (s : State) {b : Nat} (hb : b < 32) :
    ((programFamily t defs s).typesA t).getLsbD b = typeBitA s.params defs b ∧
      ((programFamily t defs s).typesB t).getLsbD b = typeBitB defs b := by
  induction defs using List.reverseRecOn with
  | nil => simp [programFamily, State.typesA, State.typesB, RegImage.write, typeBitA, typeBitB, typeOf]
  | append_singleton l x ih =>
    have h := programFamily_writes t l s
    simp only [programFamily, List.foldl_append, List.foldl_cons, List.foldl_nil] at ih h ⊢
    exact programType_bits h.params hb ih.1 ih.2

/-- A family leaves the other one alone. -/
theorem programFamily_other {t q : Fin 2} (ht : t ≠ q) (defs : List SigDef) (s : State) :
    (programFamily t defs s).typesA q = s.typesA q ∧ (programFamily t defs s).typesB q = s.typesB q := by
  have hw : Writes (fun f => f = .sigTypeA t ∨ f = .sigTypeB t) s (programFamily t defs s) := by
    refine ((Writes.one (.sigTypeA t) 0 (.inl rfl) s).trans (Writes.one (.sigTypeB t) 0 (.inr rfl) _)).trans
      (Writes.foldl _ (fun s d => ?_) _ _)
    unfold programType
    dsimp only
    split
    · split
      · exact .masked _ _ _ (.inl rfl) s
      · exact .refl s
    · split
      · exact .masked _ _ _ (.inl rfl) s
      · split
        · exact .masked _ _ _ (.inr rfl) s
        · exact .refl s
  exact ⟨hw.read (g := .sigTypeA q) (by simpa using fun h => ht h.symm),
    hw.read (g := .sigTypeB q) (by simpa using fun h => ht h.symm)⟩

/-- The definitions table slot `t` is programmed with (R301, R306, R227). -/
def definitionsOf (sd0 : List SigDef) (sd1 : Option (List SigDef)) (spans : Bool) (t : Fin 2) : List SigDef :=
  if t = 0 then sd0 else (secondDefs sd0 sd1 spans).getD []

/-- Both families, bit by bit (R300, R301, R306). -/
theorem programOutputTypes_bits (sd0 : List SigDef) (sd1 : Option (List SigDef)) (spans : Bool) (s : State)
    (t : Fin 2) {b : Nat} (hb : b < 32) :
    ((programOutputTypes sd0 sd1 spans s).typesA t).getLsbD b = typeBitA s.params (definitionsOf sd0 sd1 spans t) b ∧
      ((programOutputTypes sd0 sd1 spans s).typesB t).getLsbD b = typeBitB (definitionsOf sd0 sd1 spans t) b := by
  have hp : (programFamily 0 sd0 s).params = s.params := (programFamily_writes 0 sd0 s).params
  rcases (by omega : t = 0 ∨ t = 1) with rfl | rfl
  · have h := programFamily_other (t := 1) (q := 0) (by decide) ((secondDefs sd0 sd1 spans).getD [])
      (programFamily 0 sd0 s)
    rw [programOutputTypes, h.1, h.2]
    exact programFamily_bits 0 sd0 s hb
  · have h := programFamily_bits 1 ((secondDefs sd0 sd1 spans).getD []) (programFamily 0 sd0 s) hb
    rw [hp] at h
    exact h

/-! ### The clock select -/

/-- The period of the last Clock definition of output `e` (R227). -/
def clockPeriodOf (defs : List SigDef) (e : Nat) : Option Nat :=
  (defs.filter fun d => decide (d.outputSignal.toNat = e ∧ d.signalType.toNat = 2)).getLast?.map fun d => d.clockPeriod.toNat

/-- Bit `b` of CLKSEL[t] (R128). -/
def clockBit (d : DriverState) (defs : List SigDef) (b : Nat) : Bool :=
  decide (b < 20) &&
    match clockPeriodOf defs (4 + b / 2) with
    | some p => (clusterOf d p).testBit (b % 2)
    | none => false

/-- CLKSEL, bit by bit, for definitions that type only the CTEP, RCS and RFS outputs Clock (R227). -/
theorem clkSelValue_bits (d : DriverState) (defs : List SigDef)
    (hdefs : ∀ x ∈ defs, x.signalType = 2 → 4 ≤ x.outputSignal.toNat ∧ x.outputSignal.toNat ≤ 13) {b : Nat} (hb : b < 32) :
    (clkSelValue d defs).getLsbD b = clockBit d defs b := by
  induction defs using List.reverseRecOn with
  | nil => simp [clkSelValue, clockBit, clockPeriodOf]
  | append_singleton l x ih =>
    have ih := ih fun y hy => hdefs y (by simp [hy])
    rw [clkSelValue, List.foldl_append]
    simp only [List.foldl_cons, List.foldl_nil]
    rw [← clkSelValue]
    by_cases hx : x.signalType = 2
    · have hr := hdefs x (by simp) hx
      rw [if_pos (by rw [hx]), maskedWrite_mask2 _ _ _ hb, rel, ih]
      by_cases hin : 4 + b / 2 = x.outputSignal.toNat
      · rw [if_pos (by omega), clockBit, clockPeriodOf, getLast?_filter_append_pos (by simp [hin, hx]),
          show b - 2 * (x.outputSignal.toNat - 4) = b % 2 by omega, decide_eq_true (by omega : b < 20)]
        simp only [Option.map_some, Bool.true_and, BitVec.getLsbD_ofNat, decide_eq_true (by omega : b % 2 < 32)]
      · rw [if_neg (by omega), clockBit, clockBit, clockPeriodOf, clockPeriodOf,
          getLast?_filter_append_neg (by simp; intro h; omega)]
    · rw [if_neg (by simpa [typeClock] using hx), ih, clockBit, clockBit, clockPeriodOf, clockPeriodOf,
        getLast?_filter_append_neg (by simp; intro _ h; exact hx (BitVec.eq_of_toNat_eq h))]

/-- ClusterOf answers an index of its list, or what it started from (R226). -/
theorem lastAtMost_le (p : Nat) (L : List U32) : ∀ j acc, acc ≤ j + L.length → lastAtMost p j acc L ≤ j + L.length := by
  induction L with
  | nil => intro j acc h; simpa [lastAtMost] using h
  | cons l ls ih =>
    intro j acc h
    simp only [List.length_cons] at h ⊢
    have := ih (j + 1) (if l.toNat ≤ p then j else acc) (by split <;> omega)
    unfold lastAtMost
    omega

end Sys2Proof.Machine
end

