-- ==== Sys2Proof/Laws/Layout.lean ====
section
/-! SUPPORT. A write by name is one masked write to the register the field lies in, on a part whose layout keeps the fields
apart (R84, R85), and a masked read of that register gives the field. -/

namespace Sys2Proof.Machine

theorem mem_allFields (f : RegField) : f ∈ allFields := by
  cases f <;> simp [allFields]

/-- Bit `b` of what a field puts into a register. -/
theorem placed_bit (pl : Place) (off : Nat) (v : U32) (b : Nat) :
    (placed pl off v).getLsbD b = (decide (pl.offset = off) && ((v <<< pl.shift).getLsbD b && pl.mask.getLsbD b)) := by
  unfold placed
  split
  · rename_i h; rw [BitVec.getLsbD_and, decide_eq_true h, Bool.true_and]
  · rename_i h; rw [decide_eq_false h]; simp

/-- A bit of a collected register is a bit of what was there, or of what one of the fields puts there. -/
theorem foldl_placed_bit {α : Type} (k : α → U32) (L : List α) (b : Nat) : ∀ w : U32,
    (L.foldl (fun w f => w ||| k f) w).getLsbD b = true ↔ w.getLsbD b = true ∨ ∃ f ∈ L, (k f).getLsbD b = true := by
  induction L with
  | nil => intro w; simp
  | cons a l ih =>
    intro w
    rw [List.foldl_cons, ih, BitVec.getLsbD_or, Bool.or_eq_true]
    simp only [List.mem_cons, exists_eq_or_imp, or_assoc]

theorem blockWord_bit (s : State) (off b : Nat) :
    (s.blockWord off).getLsbD b = true ↔
      ∃ f, (placed (placeOf s.params.layout f) off (s.regs.read f)).getLsbD b = true := by
  unfold State.blockWord
  rw [foldl_placed_bit]
  simp [mem_allFields]

/-- Bit `b` of a value truncated to `n` bits (R11). -/
theorem truncBits_bit (n : Nat) (v : U32) (b : Nat) : (truncBits n v).getLsbD b = (decide (b < n) && v.getLsbD b) := by
  have h := v.getLsbD_of_ge b
  simp only [truncBits, BitVec.getLsbD, BitVec.toNat_ofNat, Nat.testBit_mod_two_pow] at h ⊢
  by_cases hb : b < 32
  · simp [hb]
  · simp [hb, h (by omega)]

/-- Bit `b` of a value narrowed to `n` bits and zero-extended again. -/
theorem narrowed_bit (n : Nat) (v : U32) {b : Nat} (hb : b < 32) :
    ((v.setWidth n).setWidth 32).getLsbD b = (decide (b < n) && v.getLsbD b) := by
  rw [BitVec.getLsbD_setWidth, BitVec.getLsbD_setWidth, decide_eq_true hb, Bool.true_and]

/-- A field's value after a write is what was written, at the field's width; the pulse RFS_GEN reads 0 (R62). -/
theorem fieldValue_bit (par : Params) {f : RegField} (hf : f ≠ .rfsGen) (v : U32) {b : Nat} (hb : b < 32) :
    (fieldValue par f v).getLsbD b = (decide (b < fieldBits par f) && v.getLsbD b) := by
  have whole : v.getLsbD b = (decide (b < 32) && v.getLsbD b) := by rw [decide_eq_true hb, Bool.true_and]
  cases f with
  | ctrlEn => exact narrowed_bit 1 v hb
  | ctrlRst => exact narrowed_bit 1 v hb
  | chksumEn => exact narrowed_bit 1 v hb
  | mode => exact narrowed_bit 2 v hb
  | runMode => exact narrowed_bit 1 v hb
  | timingMode => exact narrowed_bit 1 v hb
  | dpDiv => exact truncBits_bit _ _ _
  | slvRfsSrc => exact truncBits_bit _ _ _
  | slvRcsSrc => exact truncBits_bit _ _ _
  | slvDelay => exact truncBits_bit _ _ _
  | slvCsi2Unit => exact truncBits_bit _ _ _
  | slvCsi2Vc => exact truncBits_bit _ _ _
  | clkDiv n => exact truncBits_bit _ _ _
  | irqEn => exact truncBits_bit _ _ _
  | rfsGen => exact absurd rfl hf
  | repeatCount => exact whole
  | tlim t => exact whole
  | clkSel t => exact whole
  | sigTypeA t => exact whole
  | sigTypeB t => exact whole
  | lutLsb p s => exact whole
  | lutMsb p s => exact whole

/-- `REG.f <- v` is `WriteMaskedField(reg_of(f), mask_of(f), v << shift_of(f))` on the block-written bits (R85): of every
register, the one at reg_of(f) changes, and of it the bits of mask_of(f). -/
theorem write_blockWord {s : State} (h : LayoutOk s.params) {f : RegField} (hf : f ≠ .rfsGen) (v : U32) (off : Nat) :
    (s.write f v).blockWord off =
      if (placeOf s.params.layout f).offset = off then
        maskedWrite (s.blockWord off) (placeOf s.params.layout f).mask (v <<< (placeOf s.params.layout f).shift)
      else s.blockWord off := by
  have hother : ∀ g, g ≠ f → (s.write f v).regs.read g = s.regs.read g := fun g hg => RegImage.read_write_ne _ _ _ hg
  have hsame : (s.write f v).regs.read f = fieldValue s.params f v := RegImage.read_write_same _ _ _ _
  apply BitVec.eq_of_getLsbD_eq
  intro b hb
  rw [Bool.eq_iff_iff, blockWord_bit, State.write_params]
  by_cases ho : (placeOf s.params.layout f).offset = off
  · rw [if_pos ho]
    have hw : (maskedWrite (s.blockWord off) (placeOf s.params.layout f).mask
          (v <<< (placeOf s.params.layout f).shift)).getLsbD b =
        if (placeOf s.params.layout f).mask.getLsbD b then (v <<< (placeOf s.params.layout f).shift).getLsbD b
        else (s.blockWord off).getLsbD b := by
      simp only [maskedWrite, BitVec.getLsbD_or, BitVec.getLsbD_and, BitVec.getLsbD_not, hb, decide_true, Bool.true_and]
      cases (placeOf s.params.layout f).mask.getLsbD b <;> simp
    rw [hw]
    by_cases hm : (placeOf s.params.layout f).mask.getLsbD b = true
    · rw [if_pos hm]
      obtain ⟨h1, h2⟩ := h.within f b hm
      have hv : (fieldValue s.params f v <<< (placeOf s.params.layout f).shift).getLsbD b =
          (v <<< (placeOf s.params.layout f).shift).getLsbD b := by
        rw [BitVec.getLsbD_shiftLeft, BitVec.getLsbD_shiftLeft, fieldValue_bit _ hf _ (by omega),
          decide_eq_true (by omega : b - (placeOf s.params.layout f).shift < fieldBits s.params f), Bool.true_and]
      constructor
      · rintro ⟨g, hg⟩
        rw [placed_bit] at hg
        simp only [Bool.and_eq_true, decide_eq_true_eq] at hg
        by_cases hgf : g = f
        · subst hgf; rw [hsame, hv] at hg; exact hg.2.1
        · have := h.apart f g b (fun e => hgf e.symm) (ho.trans hg.1.symm) hm
          rw [hg.2.2] at this; cases this
      · intro hx
        refine ⟨f, ?_⟩
        rw [placed_bit, hsame, hv, hx, hm, decide_eq_true ho]
        rfl
    · rw [if_neg hm, blockWord_bit]
      refine exists_congr fun g => ?_
      by_cases hgf : g = f
      · subst hgf; simp only [placed_bit, hm, Bool.and_false]
      · rw [hother g hgf]
  · rw [if_neg ho, blockWord_bit]
    refine exists_congr fun g => ?_
    by_cases hgf : g = f
    · subst hgf; simp only [placed_bit, decide_eq_false ho, Bool.false_and]
    · rw [hother g hgf]

/-- ReadMaskedField of the register a field lies in gives the field's bits that its mask selects (R84). -/
theorem maskedRead_blockWord {s : State} (h : LayoutOk s.params) (f : RegField) :
    maskedRead (s.blockWord (placeOf s.params.layout f).offset) (placeOf s.params.layout f).mask
        (placeOf s.params.layout f).shift =
      maskedRead (s.regs.read f <<< (placeOf s.params.layout f).shift) (placeOf s.params.layout f).mask
        (placeOf s.params.layout f).shift := by
  unfold maskedRead
  congr 1
  apply BitVec.eq_of_getLsbD_eq
  intro b _
  rw [BitVec.getLsbD_and, BitVec.getLsbD_and, Bool.eq_iff_iff, Bool.and_eq_true, Bool.and_eq_true, blockWord_bit]
  refine and_congr_left fun hm => ?_
  constructor
  · rintro ⟨g, hg⟩
    rw [placed_bit] at hg
    simp only [Bool.and_eq_true, decide_eq_true_eq] at hg
    by_cases hgf : g = f
    · subst hgf; exact hg.2.1
    · have := h.apart f g b (fun e => hgf e.symm) hg.1.symm hm
      rw [hg.2.2] at this; cases this
  · intro hx
    exact ⟨f, by rw [placed_bit, hx, hm]; simp⟩

end Sys2Proof.Machine
end

