-- ==== Sys2Proof/Laws/PerInstr.lean ====
section
/-! SUPPORT. A statement about every command as syntax, made constructor by constructor: the word it is encoded as keeps the
reserved bits 31:4 at 0 and carries an opcode of the map (R140, R141). -/

namespace Sys2Proof.Laws.ReservedZero

/-- Bits 31:4 of the command's word are 0, and its OP field is 0x1..0x7 (R140, R141). -/
def Statement (i : Instr) : Prop :=
  reservedField (encode i).word = 0 ∧ 1 ≤ (opField (encode i).word).toNat ∧ (opField (encode i).word).toNat ≤ 7

theorem setup (p : InitParams) : Statement (.setup p) := by
  simp only [Statement, encode, Instr.word]
  decide +kernel
theorem start : Statement .start := by
  simp only [Statement, encode, Instr.word]
  decide +kernel
theorem stop : Statement .stop := by
  simp only [Statement, encode, Instr.word]
  decide +kernel
theorem restart : Statement .restart := by
  simp only [Statement, encode, Instr.word]
  decide +kernel
theorem rfsGenerate : Statement .rfsGenerate := by
  simp only [Statement, encode, Instr.word]
  decide +kernel
theorem updateTables (u : UpdateParams) : Statement (.updateTables u) := by
  simp only [Statement, encode, Instr.word]
  decide +kernel
theorem getLutChecksum : Statement .getLutChecksum := by
  simp only [Statement, encode, Instr.word]
  decide +kernel

end Sys2Proof.Laws.ReservedZero
end

