-- ==== Sys2Proof/Laws/Programmed.lean ====
section
/-! SUPPORT. What the register-programming steps leave, field by field (R339–R344, R358), and the state a successful
SETUP ends in (R345–R348). -/

namespace Sys2Proof.Machine

/-! ### The registers after the programming steps -/

/-- SETUP's programming steps, as writes over what the output types and the mode left (R341–R344). -/
theorem setupProgram_regs (v : Plan) (p : InitParams) (s : State) :
   ∃ x : State, Writes isSigTypeField s x ∧ (setupProgram v p s).regs =
     ((programMode p x).regs.write s.params .repeatCount p.repeatCount
      |>.write s.params .runMode (if v.table1.isSome || decide
          (v.table0.length > Config.maxEventsDouble) then runModeTwoTable else runModeOneTable)
      |>.write s.params (.tlim 0) (limitTicks s.drv v.table0.execTimeLimit)
      |>.write s.params (.tlim 1) (secondLimit s.drv v.table0 v.table1)
      |>.write s.params .timingMode timingRelative
      |>.write s.params .dpDiv (s.drv.mainClockDivider.setWidth 32)) := by
  have h1 := programOutputTypes_writes v.sigDef0 v.sigDef1 (spansBoth v.table0 v.table1) s
  refine ⟨_, h1, ?_⟩
  have h2 := programMode_writes p (programOutputTypes v.sigDef0 v.sigDef1 (spansBoth v.table0 v.table1) s)
  simp only [setupProgram, programRunMode, programLimits, programDpDiv, State.write_regs, State.write_params,
      State.write_drv, h2.params, h1.params, h2.drv, h1.drv]

/-- ProgramMode, field by field (R340). -/
theorem programMode_regs (p : InitParams) (s : State) : ∃ r : RegImage,
   r.mode = p.workingMode.setWidth 2 ∧
   (programMode p s).regs = r ∧
   (isSlave p.workingMode.toNat = true → r.slvRfsSrc = truncBits s.params.slaveFieldBits p.rfsSource ∧
       r.slvRcsSrc = truncBits s.params.slaveFieldBits p.rcsSource ∧
       r.slvDelay = truncBits s.params.slaveFieldBits p.slaveDelay) ∧
   (isSlave p.workingMode.toNat = false → r.slvRfsSrc = s.regs.slvRfsSrc ∧ r.slvRcsSrc = s.regs.slvRcsSrc ∧
       r.slvDelay = s.regs.slvDelay) ∧
   (p.workingMode.toNat = 2 → r.slvCsi2Unit = truncBits s.params.slaveFieldBits p.csi2Unit ∧
       r.slvCsi2Vc = truncBits s.params.slaveFieldBits p.csi2Vc) ∧
   (p.workingMode.toNat ≠ 2 → r.slvCsi2Unit = s.regs.slvCsi2Unit ∧ r.slvCsi2Vc = s.regs.slvCsi2Vc) := by
  refine ⟨_, ?_, rfl, ?_, ?_, ?_, ?_⟩
  · unfold programMode; dsimp only; split <;> split <;> simp [RegImage.write]
  · intro h; unfold programMode; dsimp only; simp only [if_pos h]; split <;> simp [RegImage.write]
  · intro h; unfold programMode; dsimp only; simp only [h]; split <;> simp [RegImage.write]
  · intro h; unfold programMode; dsimp only [modeSlaveCsi2]; simp only [if_pos h]; split <;> simp [RegImage.write]
  · intro h; unfold programMode; dsimp only [modeSlaveCsi2]; simp only [if_neg h]; split <;> simp [RegImage.write]

/-- SETUP's later programming steps leave the output types as they were programmed (R339). -/
theorem setupProgram_types (v : Plan) (p : InitParams) (s : State) :
   (setupProgram v p s).regs.sigTypeA = (programOutputTypes v.sigDef0 v.sigDef1
       (spansBoth v.table0 v.table1) s).regs.sigTypeA ∧
   (setupProgram v p s).regs.sigTypeB = (programOutputTypes v.sigDef0 v.sigDef1
       (spansBoth v.table0 v.table1) s).regs.sigTypeB := by
  have h2 := programMode_writes p (programOutputTypes v.sigDef0 v.sigDef1 (spansBoth v.table0 v.table1) s)
  constructor
  · simp only [setupProgram, programRunMode, programLimits, programDpDiv, State.write_regs, RegImage.write];
      exact h2.sigTypeA (fun _ => id)
  · simp only [setupProgram, programRunMode, programLimits, programDpDiv, State.write_regs, RegImage.write];
      exact h2.sigTypeB (fun _ => id)

/-- UPDATE_TABLES' programming steps, as writes over the output types of the snapshots (R358, R342–R344). -/
theorem updateProgram_regs (t0 : CheckedTable) (t1 : Option CheckedTable) (s : State) :
   ∃ x : State, Writes isSigTypeField s x ∧ x = programOutputTypes (s.drv.signalDef0.getD []) s.drv.signalDef1
       (spansBoth t0 t1) s ∧ (updateProgram t0 t1 s).regs =
     (x.regs
      |>.write s.params .runMode (if t1.isSome || decide
          (t0.length > Config.maxEventsDouble) then runModeTwoTable else runModeOneTable)
      |>.write s.params (.tlim 0) (limitTicks s.drv t0.execTimeLimit)
      |>.write s.params (.tlim 1) (secondLimit s.drv t0 t1)
      |>.write s.params .dpDiv (s.drv.mainClockDivider.setWidth 32)) := by
  have h1 := programOutputTypes_writes (s.drv.signalDef0.getD []) s.drv.signalDef1 (spansBoth t0 t1) s
  refine ⟨_, h1, rfl, ?_⟩
  simp only [updateProgram, programRunMode, programLimits, programDpDiv, State.setStatus_regs, State.write_regs,
      State.write_params, State.write_drv, h1.params, h1.drv]

/-- A field SETUP writes after its programming steps (R345, R346). -/
def isLateField : RegField → Prop
  | .clkDiv _ | .clkSel _ | .irqEn => True
  | _ => False

/-- The later writes leave everything the programming steps left (R349, third row). -/
theorem Writes.late {s t : State} (h : Writes isLateField s t) :
    t.regs = { s.regs with clkDiv := t.regs.clkDiv, clkSel := t.regs.clkSel, irqEn := t.regs.irqEn } := by
  dsimp only
  rw [← h.ctrlEn id, ← h.ctrlRst id, ← h.chksumEn id, ← h.mode id, ← h.runMode id, ← h.timingMode id, ← h.dpDiv id,
    ← h.repeatCount id, ← h.tlim (fun _ => id), ← h.slvRfsSrc id, ← h.slvRcsSrc id, ← h.slvDelay id, ← h.slvCsi2Unit id,
    ← h.slvCsi2Vc id, ← h.sigTypeA (fun _ => id), ← h.sigTypeB (fun _ => id), ← h.lut (fun _ _ => id) (fun _ _ => id),
    ← h.rfsGen id]

/-! ### The end of a SETUP -/

/-- The last state of a SETUP that gets through, from the state its clock select left: interrupts, commit, OK (R346–R348). -/
def setupEnd (p : InitParams) (v : Plan) (s : State) : State :=
  (setupCommit v (storeIrq p (s.write .irqEn p.irqEvents))).finish .ok

/-- The state a SETUP that gets through has once the clock select is programmed, in terms of the state `w` after the clock
dividers (R345). -/
def setupSelected (v : Plan) (cs : List Cluster) (w : State) : State :=
  programClockSelect v.sigDef0 v.sigDef1 (spansBoth v.table0 v.table1) (keepClusters cs w)

/-- A SETUP whose tables compile, whose clocks are solved and whose interrupt, if any, is registered ends in `setupEnd`, the
registration call being its only other effect (R346). -/
theorem SetupRuns.ends {p : InitParams} {s : State} {v : Plan} {cs : List Cluster} {u w : State}
    (hr : SetupRuns p s v cs u w) (hirq : p.irqEvents ≠ 0 → s.env.irqRegOk = true) :
    exec (.setup p) s = .next (setupEnd p v
      (if p.irqEvents = 0 then setupSelected v cs w
       else (setupSelected v cs w).emit
        (.registerIrq s.params.irqLine s.params.irqCore s.params.irqPrio))) := by
  have hwz : (setupSelected v cs w).params = s.params ∧ (setupSelected v cs w).env = s.env := by
    have h1 := programClockSelect_writes v.sigDef0 v.sigDef1 (spansBoth v.table0 v.table1) (keepClusters cs w)
    have h2 := hr.dividers
    have h3 := setupProgram_writes v p u.snapshotChecksum
    have h4 := hr.tables
    constructor
    · rw [setupSelected, h1.params, keepClusters]
      split <;> simp [h2.params, h3.params, h4.params, setupEntry]
    · rw [setupSelected, h1.env, keepClusters]
      split <;> simp [h2.env, h3.env, h4.env, setupEntry]
  have hrun : exec (.setup p) s = .next ((configureInterrupts p (setupSelected v cs w)).andThen
    fun s => .go (setupCommit v s)).result := hr.run
  rw [hrun]
  by_cases hi : p.irqEvents = 0
  · simp only [configureInterrupts, hi, ne_eq, not_true_eq_false, if_false, if_true, Flow.andThen_go, Flow.result_go,
      setupEnd]
  · simp only [configureInterrupts, hi, ne_eq, not_false_eq_true, if_true, if_false, State.emit_env, hwz.1, hwz.2,
      hirq hi,
      Flow.andThen_go, Flow.result_go, setupEnd]

end Sys2Proof.Machine
end

