-- ==== Sys2Proof/Machine/Assembly.lean ====
section
/-! DEFINITION. The command syntax (R144): one command per line, `;` starts a comment, the mnemonic is case-insensitive, and
a parameter name refers to a record written out beside the program. There are no pseudo-commands (R145). -/

namespace Sys2Proof.Machine

/-- Why a line is no command. The spec gives no assembler errors: each is a refusal by name
(notes/assumptions/22.md). -/
inductive SyntaxError where
  /-- the first word of the line is no mnemonic -/
  | unknownMnemonic (word : List Char)
  /-- SETUP or UPDATE_TABLES stands alone -/
  | missingName
  /-- a word follows a complete command -/
  | extraWord (word : List Char)
  /-- no record of the right kind has the name -/
  | unknownRecord (name : List Char)
  deriving DecidableEq, Repr

/-- The records written out beside a program, each under its name; of two with one name the first counts. -/
structure Records where
  inits : List (List Char × InitParams)
  updates : List (List Char × UpdateParams)
  deriving DecidableEq, Repr

/-- The capital of a small letter; every other character stays. -/
def capital (c : Char) : Char := if 97 ≤ c.toNat ∧ c.toNat ≤ 122 then Char.ofNat (c.toNat - 32) else c

/-- What a line says before its comment. -/
def beforeComment (line : List Char) : List Char := line.takeWhile fun c => decide (c ≠ ';')

/-- A space, a tab or a carriage return separates words. -/
def isBlank (c : Char) : Bool := decide (c.toNat = 32 ∨ c.toNat = 9 ∨ c.toNat = 13)

/-- The words of a line; `w` is the word being read, its last character first. -/
def wordsFrom (w : List Char) : List Char → List (List Char)
  | [] => if w = [] then [] else [w.reverse]
  | c :: cs =>
    if isBlank c then
      if w = [] then wordsFrom [] cs else w.reverse :: wordsFrom [] cs
    else wordsFrom (c :: w) cs

/-- The record with a name. -/
def recordNamed {α : Type} (name : List Char) (rs : List (List Char × α)) : Option α :=
  (rs.find? fun r => decide (r.1 = name)).map Prod.snd

/-- A command that takes no record: nothing may follow it. -/
def alone (i : Instr) : List (List Char) → Except SyntaxError Instr
  | [] => .ok i
  | w :: _ => .error (.extraWord w)

/-- A command that takes a record: its name follows, and nothing else. -/
def named {α : Type} (rs : List (List Char × α)) (mk : α → Instr) : List (List Char) → Except SyntaxError Instr
  | [] => .error .missingName
  | [n] =>
    match recordNamed n rs with
    | some x => .ok (mk x)
    | none => .error (.unknownRecord n)
  | _ :: w :: _ => .error (.extraWord w)

/-- A command from the words of its line, the mnemonic first and in capitals (R144). -/
def assembleWords (r : Records) (mnemonic : List Char) (rest : List (List Char)) : Except SyntaxError Instr :=
  if mnemonic = ['S', 'E', 'T', 'U', 'P'] then named r.inits .setup rest
  else if mnemonic = ['U', 'P', 'D', 'A', 'T', 'E', '_', 'T', 'A', 'B', 'L', 'E', 'S'] then
    named r.updates .updateTables rest
  else if mnemonic = ['S', 'T', 'A', 'R', 'T'] then alone .start rest
  else if mnemonic = ['S', 'T', 'O', 'P'] then alone .stop rest
  else if mnemonic = ['R', 'E', 'S', 'T', 'A', 'R', 'T'] then alone .restart rest
  else if mnemonic = ['R', 'F', 'S', '_', 'G', 'E', 'N', 'E', 'R', 'A', 'T', 'E'] then alone .rfsGenerate rest
  else if mnemonic = ['G', 'E', 'T', '_', 'L', 'U', 'T', '_', 'C', 'H', 'E', 'C', 'K', 'S', 'U', 'M'] then
    alone .getLutChecksum rest
  else .error (.unknownMnemonic mnemonic)

/-- One line: a command, or nothing on a blank or comment line. -/
def assembleLine (r : Records) (line : List Char) : Except SyntaxError (Option Instr) :=
  match wordsFrom [] (beforeComment line) with
  | [] => .ok none
  | m :: rest => (assembleWords r (m.map capital) rest).map some

/-- A program: its commands in the order of its lines, or the first line's error. -/
def assemble (r : Records) : List (List Char) → Except SyntaxError (List Instr)
  | [] => .ok []
  | line :: lines =>
    match assembleLine r line with
    | .error e => .error e
    | .ok none => assemble r lines
    | .ok (some i) => (assemble r lines).map (i :: ·)

end Sys2Proof.Machine
end

