-- ==== Sys2Proof/Tests/Slice0.lean ====
section
/-! SUPPORT. Tests: well-formedness, the command words, one or two steps of each command against the vectors of
spec/95_test_vectors.md, and for every obligation with hypotheses a case that meets them. -/

namespace Sys2Proof.Tests

open Sys2Proof.Machine Sys2Proof.Claims

/-! ### Small inputs and states -/

/-- `{output, type, period}` (95_test_vectors.md). -/
def sd (o t p : Nat) : SigDef :=
  { outputSignal := BitVec.ofNat 32 o, signalType := BitVec.ofNat 32 t, clockPeriod := BitVec.ofNat 32 p }

/-- `output = state`. -/
def act (o v : Nat) : Action := { outputSignal := BitVec.ofNat 32 o, newState := BitVec.ofNat 32 v }

/-- `(absTime: actions)`. -/
def ev (t : Nat) (as : List Action) : Event := { absTime := BitVec.ofNat 32 t, actions := some as }

/-- A table of these events. -/
def tab (limit : Nat) (es : List Event) : TimeTable :=
  { length := BitVec.ofNat 8 es.length, execTimeLimit := BitVec.ofNat 32 limit, events := some es }

/-- The base record B of 95_test_vectors.md §2. -/
def base : InitParams :=
  { InitParams.zero with
    clockFreq := 80000000#32
    table0 := some (tab 0 [ev 0 [act 4 1]])
    sigDef0 := some [sd 4 3 0] }

/-- The record IN1 of P1. -/
def in1 : InitParams :=
  { base with repeatCount := 1, table0 := some (tab 0 [ev 0 [act 4 1], ev 1000 [act 4 0]]) }

/-- Both collaborators answer yes. -/
def envOn : Env := { Env.zero with baseOk := true, irqRegOk := true }

/-- A machine after power-on that meets `envOn`. -/
def ready : State := { State.reset with env := envOn }

/-- A driver set up from `base`, in the fields the tests read. -/
def initialized : State :=
  { ready with
    drv :=
      { State.reset.drv with
        status := .initialized, mainClockDivider := 1, workingFreq := 80000000#32, signalDef0 := some [sd 4 3 0] }
    regs := { RegImage.zero with chksumEn := 1, timingMode := 1, dpDiv := 1 } }

/-- The same, Running. -/
def running : State :=
  { initialized with
    drv := { initialized.drv with status := .running }
    regs := { initialized.regs with ctrlEn := 1 } }

/-- The same in SLAVE mode. -/
def runningSlave : State := { running with regs := { running.regs with mode := 1 } }

/-- The state after a step that has one. -/
def after : Host.Outcome State Fault Refusal → State
  | .next s => s
  | .fault _ => State.reset
  | .refused _ => State.reset

/-- `base` with two tables (P3's shape): RCS and RFS in the second. -/
def double : InitParams :=
  { base with table1 := some (tab 0 [ev 0 [act 13 2]]), sigDef1 := some [sd 13 2 400] }

/-- 33 events, the table of CV7. -/
def spanning : List Event := (List.range 33).map fun i => ev (100 * i) [act 4 (i % 2)]

/-- CV7's record. -/
def span : InitParams := { base with table0 := some (tab 10000 spanning) }

/-! ### Well-formedness (R32) -/

theorem test_wf_base : base.wf = true ∧ double.wf = true ∧ span.wf = true := by decide +kernel
/-- An action names the terminator 16. -/
theorem test_illFormed_action : (act 16 0).wf = false ∧ (act 15 0).wf = true := by decide
/-- A definition names the terminator 16. -/
theorem test_illFormed_sigDef : (sd 16 3 0).wf = false ∧ (sd 15 3 0).wf = true := by decide
/-- `length` says two, the array holds one. -/
theorem test_illFormed_table :
    ({ tab 0 [ev 0 []] with length := 2 } : TimeTable).wf = false ∧ (tab 0 [ev 0 []]).wf = true := by decide
/-- An ill-formed record reaches no command. -/
theorem test_illFormed_refused :
    (match exec (.setup { base with sigDef0 := some [sd 16 3 0] }) ready with
     | .refused .illFormedInput => true
     | _ => false) = true ∧
    (match exec (.updateTables { table0 := some (tab 0 [ev 0 [act 16 0]]), table1 := none }) initialized with
     | .refused .illFormedInput => true
     | _ => false) = true := by decide +kernel

/-! ### The command word (R140–R143) -/

theorem test_decode_setup : decode ⟨0b00000000000000000000000000000001#32, base, UpdateParams.zero⟩ = .ok (.setup base) := rfl
theorem test_decode_start : decode ⟨0b00000000000000000000000000000010#32, base, UpdateParams.zero⟩ = .ok .start := rfl
theorem test_decode_stop : decode ⟨0b00000000000000000000000000000011#32, base, UpdateParams.zero⟩ = .ok .stop := rfl
theorem test_decode_restart : decode ⟨0b00000000000000000000000000000100#32, base, UpdateParams.zero⟩ = .ok .restart := rfl
theorem test_decode_rfsGenerate :
    decode ⟨0b00000000000000000000000000000101#32, base, UpdateParams.zero⟩ = .ok .rfsGenerate := rfl
theorem test_decode_updateTables :
    decode ⟨0b00000000000000000000000000000110#32, base, ⟨base.table0, none⟩⟩ = .ok (.updateTables ⟨base.table0, none⟩) := rfl
theorem test_decode_getLutChecksum :
    decode ⟨0b00000000000000000000000000000111#32, base, UpdateParams.zero⟩ = .ok .getLutChecksum := rfl
/-- Opcodes 0x0, 0x8 and 0xF, and bit 4 or bit 31 beside a good opcode (KV18–KV20). -/
theorem test_decode_rejects :
    decode (tableCommand 0x00000000) = .error (.reservedOpcode 0) ∧
    decode (tableCommand 0x00000008) = .error (.reservedOpcode 8) ∧
    decode (tableCommand 0x0000000F) = .error (.reservedOpcode 15) ∧
    decode (tableCommand 0x00000012) = .error (.reservedBits 1) ∧
    decode (tableCommand 0x80000001) = .error (.reservedBits 0x8000000) := by decide
/-- A row's number is its word. -/
theorem test_decodeTableWord :
    decodeTableWord 32 3 = some .stop ∧ decodeTableWord 32 8 = none ∧ decodeTableWord 32 0x13 = none := by decide
/-- The next step runs the placed command, from reset: GET_LUT_CHECKSUM answers OK (KV6). -/
theorem test_withFetchWord :
    (after (step (State.reset.withFetchWord 32 7))).output.status = some .ok ∧
    (after (step (State.reset.withFetchWord 32 2))).output.status = some .notInitialized := by decide +kernel

/-! ### The command syntax (R144) -/

/-- P4's last two lines, in small letters and with a comment, and SETUP with its record. -/
theorem test_assemble :
    assemble { inits := [(['B'], base)], updates := [] }
      ["SETUP   B  ; word 0x00000001".toList, "  ; nothing".toList, "get_lut_checksum".toList, "Stop ;".toList] =
        .ok [.setup base, .getLutChecksum, .stop] := by decide +kernel
/-- What is no line of the syntax. -/
theorem test_assemble_rejects :
    assembleLine ⟨[], []⟩ "HALT".toList = .error (.unknownMnemonic "HALT".toList) ∧
    assembleLine ⟨[], []⟩ "SETUP".toList = .error .missingName ∧
    assembleLine ⟨[], []⟩ "SETUP B".toList = .error (.unknownRecord ['B']) ∧
    assembleLine ⟨[], []⟩ "START B".toList = .error (.extraWord ['B']) := by decide +kernel

/-! ### One step of each command -/

/-- P1, SETUP IN1 (S8, CV1): OK, Initialized, the divider, the two slots, the pattern in slot 2. -/
theorem test_setup_p1 :
    let t := after (exec (.setup in1) ready)
    t.output.status = some .ok ∧ t.drv.status = .initialized ∧ t.regs.dpDiv = 1 ∧ t.regs.ctrlEn = 0 ∧
    lutAt t.regs.lut 0 0 = ⟨0x00000001, 0x00000001⟩ ∧ lutAt t.regs.lut 0 1 = ⟨0x00000050, 0x00000000⟩ ∧
    lutAt t.regs.lut 0 2 = ⟨0x00000000, 0x006FFFFF⟩ ∧ t.regs.sigTypeA[0] = 0x00030000 ∧
    t.regs.tlim[1] = 0xFFFFFFFF := by decide +kernel
/-- KV22: a Running driver, a SETUP with no frequency: NULL_CLK_FREQ, NotInit, the engine still enabled. -/
theorem test_setup_invalid :
    let t := after (exec (.setup { base with clockFreq := 0 }) running)
    t.output.status = some .nullClkFreq ∧ t.drv.status = .notInit ∧ t.regs.ctrlEn = 1 ∧ t.output.effects = [] := by
  decide +kernel
/-- KV7. -/
theorem test_start_initialized :
    let t := after (exec .start initialized)
    t.output.status = some .ok ∧ t.drv.status = .running ∧ t.regs.ctrlEn = 1 := by decide +kernel
/-- KV8: the engine still executes. -/
theorem test_start_running :
    let t := after (exec .start { running with env := { envOn with statusExec := 1 } })
    t.output.status = some .drvRunning ∧ t.output.effects = [] := by decide +kernel
/-- KV11. -/
theorem test_stop_running :
    let t := after (exec .stop running)
    t.output.status = some .ok ∧ t.drv.status = .initialized ∧ t.regs.ctrlEn = 0 := by decide +kernel
/-- KV10. -/
theorem test_stop_initialized : (after (exec .stop initialized)).output.status = some .notRunning := by decide +kernel
/-- KV12: CTRL_EN 0, then 1. -/
theorem test_restart_running :
    let t := after (exec .restart running)
    t.output.status = some .ok ∧ t.output.effects = [.write .ctrlEn 1, .write .ctrlEn 0] ∧ t.drv.status = .running := by
  decide +kernel
/-- KV13. -/
theorem test_restart_initialized : (after (exec .restart initialized)).output.status = some .notRunning := by
  decide +kernel
/-- KV17 in SLAVE mode. -/
theorem test_rfsGenerate_running :
    let t := after (exec .rfsGenerate runningSlave)
    t.output.status = some .ok ∧ t.output.effects = [.write .rfsGen 1] := by decide +kernel
/-- KV16: the mode is checked first. -/
theorem test_rfsGenerate_master : (after (exec .rfsGenerate initialized)).output.status = some .notSlaveMode := by
  decide +kernel
/-- S7: equal times store the delta 1; the running engine is stopped. -/
theorem test_updateTables_running :
    let t := after (exec (.updateTables ⟨some (tab 0 [ev 0 [act 4 1], ev 0 [act 4 0]]), none⟩) running)
    t.output.status = some .ok ∧ t.drv.status = .initialized ∧ t.regs.ctrlEn = 0 ∧
    lutAt t.regs.lut 0 0 = ⟨0x00000001, 0x00000001⟩ ∧ lutAt t.regs.lut 0 1 = ⟨0x00000001, 0x00000000⟩ := by
  decide +kernel
/-- S10: a second table where SETUP had one. -/
theorem test_updateTables_mode :
    let t := after (exec (.updateTables ⟨base.table0, base.table0⟩) running)
    t.output.status = some .wrgPtrTable1 ∧ t.drv.status = .running ∧ t.output.effects = [] := by decide +kernel
/-- XV3: bits 31:8 of CHKSUM_HI are not read. -/
theorem test_getLutChecksum :
    (after (exec .getLutChecksum
      { ready with env := { envOn with chksumHi := 0xFFFFFF01, chksumLo := 0xFFFFFFFF } })).output.checksum =
        some 0x00000001FFFFFFFF := by decide +kernel
/-- IV1 and IV2: the callback gets the masked status, even 0. -/
theorem test_irqStep :
    let s := { running with drv := { running.drv with requestedIrqEvents := 3, callback := some 7 } }
    (after (step { s with input := [.irqStep { envOn with irqStatus := 5 }] })).output.effects = [.callback 7 1] ∧
    (after (step { s with input := [.irqStep { envOn with irqStatus := 4 }] })).output.effects = [.callback 7 0] := by
  decide +kernel

/-! ### Parts of SETUP against the vectors -/

/-- MV3, MV6, MV7, MV8, MV9: the main divider. -/
theorem test_mainDivider :
    let d := fun ts f => selectMainDivider defaultParams
      (maxDelay [{ length := 1, execTimeLimit := 0, events := ts.map fun t => ⟨BitVec.ofNat 32 t, []⟩ }]) f
    d [500, 200] 80000000 = 2 ∧ d [3355443187] 80000000 = 1 ∧ d [3355443188] 80000000 = 2 ∧
    d [0xFFFFFFFF] 1000000000 = 17 ∧ d [0xFFFFFFFF] 4000000000 = 63 := by decide +kernel
/-- SV5, SV6, SV7: the clusters. -/
theorem test_clusters :
    clustersOf [100, 120, 140, 160, 1000] = .ok [⟨100, 128⟩, ⟨1000, 1000⟩] ∧
    clustersOf [100, 150, 199, 200, 390] = .ok [⟨100, 159⟩, ⟨200, 312⟩] ∧
    clustersOf [100, 250, 700, 1500, 3100] = .error .tooManyClocks := by decide +kernel
/-- OV1: the type registers. -/
theorem test_outputTypes :
    let t := programOutputTypes [sd 0 1 0, sd 1 1 0, sd 4 3 0, sd 11 2 200, sd 13 3 0, sd 14 3 0] none false ready
    t.regs.sigTypeA[0] = 0x80030001 ∧ t.regs.sigTypeB[0] = 0x0000000C ∧ t.regs.sigTypeA[1] = 0 := by decide +kernel
/-- CV4 and CV8: the mask of FLEX over CTEP0, and of RFS with CTEP0. -/
theorem test_masks :
    resolveActions defaultParams [sd 4 3 0] [act 4 0, act 14 1] = .ok 0x200000000 ∧
    resolveActions defaultParams [sd 4 3 0, sd 13 3 0] [act 13 2, act 4 1] = .ok 0x0008000100000000 := by decide +kernel
/-- An SPT type bit that is one of CTEP0's: the last entry that writes it wins (R303, R304). -/
theorem test_outputTypes_sharedBit :
    let s : State := { ready with params := { defaultParams with sptTypeBit := 17 } }
    (programOutputTypes [sd 0 1 0, sd 4 1 0] none false s).regs.sigTypeA[0] = 0x00010000 ∧
    (programOutputTypes [sd 4 1 0, sd 0 1 0] none false s).regs.sigTypeA[0] = 0x00030000 := by decide +kernel
/-- SV10: CLKDIV_1 is written, then the error; it is the status of the SETUP. -/
theorem test_setup_sv10 :
    let t := after (exec (.setup { base with sigDef0 := some [sd 4 2 100, sd 5 2 2401] }) ready)
    t.output.status = some .clkDividerError ∧ t.drv.status = .notInit ∧ t.regs.clkDiv[0] = 3 := by decide +kernel
/-- A wrapped representative is 0 (R218: 2^31 and 3 * 2^30), and so is its divider, whose code is open. -/
theorem test_dividerZero :
    mergedRepresentative 0x80000000 0xC0000000 = 0 ∧ linearDivider 0 80000000 = 0 ∧
    clkDivCode defaultParams 0 = Config.clkDivOpen 0 := ⟨by decide +kernel, by decide +kernel, rfl⟩
/-- R133: CHKSUM_HI keeps bits 7:0 of what drives it. -/
theorem test_chksumHi : ({ ready with env := { envOn with chksumHi := 0xFFFFFF01 } } : State).chksumHi = 1 := by
  decide +kernel
/-- The numbers of three statuses (R402), and the classes of two. -/
theorem test_statusCodes :
    statusCode .drvRunning = 0x01 ∧ statusCode .wrgPtrTable1 = 0x22 ∧ statusCode .sigOutStateWrg = 0x51 ∧
    isErrorStatus .drvRunning = false ∧ isErrorStatus .illegalCommand = true := by decide

/-! ### Witnesses: a case that meets the hypotheses of each obligation that has some -/

/-- Every action of these events resolves: what `allResolve` says, as a computation. -/
theorem allResolve_of {par : Params} {L : List SigDef} {evs : List CheckedEvent}
    (h : evs.all (fun e => (resolveActions par L e.actions).toOption.isSome) = true) : allResolve par L evs := by
  intro e he
  have := List.all_eq_true.1 h e he
  cases hr : resolveActions par L e.actions with
  | ok m => exact ⟨m, rfl⟩
  | error c => rw [hr] at this; cases this

/-- A command with word `w` and these records. -/
def port (w : Nat) (p : InitParams) : Command := ⟨BitVec.ofNat 32 w, p, UpdateParams.zero⟩

/-- `ready` with one item on its stream. -/
def readyWith (x : InputItem) : State := { ready with input := [x] }

/-- IllegalWordIsAnsweredAndWritesNothing: opcode 0, opcode 8, and bit 4. -/
theorem test_witness_illegalWord :
    (readyWith (.command (port 0 base) envOn)).halted = false ∧ illegalWord (port 0 base).word ∧
    illegalWord (port 8 base).word ∧ illegalWord (port 0x11 base).word ∧ ¬ illegalWord (port 7 base).word := by
  unfold illegalWord
  decide
/-- StepRunsTheDecodedCommandOrWaits: a command at the head of the stream. -/
theorem test_witness_stepRuns :
    (readyWith (.command (port 1 base) envOn)).halted = false ∧
    (readyWith (.command (port 1 base) envOn)).input = .command (port 1 base) envOn :: [] ∧
    decode (port 1 base) = .ok (.setup base) := ⟨rfl, rfl, rfl⟩
/-- StepRunsTheDecodedCommandOrWaits: no input. -/
theorem test_witness_waits : ready.halted = false ∧ ready.input = [] := ⟨rfl, rfl⟩
/-- IrqStepCallsTheApplicationBack. -/
theorem test_witness_irqStep :
    (readyWith (.irqStep envOn)).halted = false ∧ (readyWith (.irqStep envOn)).input = .irqStep envOn :: [] := ⟨rfl, rfl⟩
/-- HaltOnErrorStopsTheBlock: with the parameter on, an error status halts, and a halted block faults. -/
theorem test_witness_halt :
    let s : State := { ready with params := { defaultParams with haltOnError := true } }
    (exec .start s = .next (after (exec .start s))) ∧ (after (exec .start s)).output.status = some .notInitialized ∧
    (after (exec .start s)).halted = true := ⟨rfl, rfl, rfl⟩
/-- GuardedCommandsRefuseBeforeSetup, and its form with a record. -/
theorem test_witness_guarded :
    ready.drv.status = .notInit ∧ (⟨base.table0, none⟩ : UpdateParams).wf = true := by decide +kernel
/-- EveryCommandFollowsTheStateTable, CommandsConsumeNothingElse, OnlyStartAndRestartEnableTheEngine. -/
theorem test_witness_exec :
    exec .start initialized = .next (after (exec .start initialized)) ∧
    Effect.write .ctrlEn 1 ∈ (after (exec .start initialized)).output.effects ∧
    exec .restart running = .next (after (exec .restart running)) ∧
    Effect.write .ctrlEn 1 ∈ (after (exec .restart running)).output.effects := by
  refine ⟨rfl, ?_, rfl, ?_⟩ <;> decide +kernel
/-- EarlyStatusesLeaveEveryRegister: a parameter error, a state error, a platform error, the warning. -/
theorem test_witness_early :
    (after (exec (.setup { base with clockFreq := 0 }) ready)).output.status = some .nullClkFreq ∧
    (after (exec .stop initialized)).output.status = some .notRunning ∧
    (after (exec (.setup base) State.reset)).output.status = some .regBaseNull ∧
    leavesRegisters .nullClkFreq = true ∧ leavesRegisters .notRunning = true ∧ leavesRegisters .regBaseNull = true ∧
    leavesRegisters .drvRunning = true ∧ leavesRegisters .irqRegFailed = false := by decide +kernel
/-- OnlySetupChangesTheConfiguration. -/
theorem test_witness_notSetup : (∀ p, Instr.stop ≠ Instr.setup p) ∧ exec .stop running = .next (after (exec .stop running)) :=
  And.intro (fun _ h => Instr.noConfusion h) rfl
/-- UpdateStopsTheEngineBeforeTheLut. -/
theorem test_witness_updateStops :
    running.drv.status = .running ∧
    exec (.updateTables ⟨base.table0, none⟩) running = .next (after (exec (.updateTables ⟨base.table0, none⟩) running)) ∧
    ∃ e ∈ (after (exec (.updateTables ⟨base.table0, none⟩) running)).output.effects, e.isLutWrite = true := by
  refine ⟨rfl, rfl, ?_⟩
  decide +kernel
/-- EveryStepKeepsTheInvariant: a driver that is set up, and one that runs, meet the invariant. -/
theorem test_witness_inv : initialized.Inv ∧ running.Inv := by
  have hz : truncBits Config.slaveFieldBits 0 = 0 := by simp [truncBits]
  constructor
  all_goals
    refine ⟨by decide, by decide, by decide, by decide, by decide, by decide, by decide, by decide, ?_, ?_, by decide,
      by decide, by decide, ⟨hz, hz, hz, hz, hz⟩, by decide +kernel⟩
    · intro _
      exact ⟨[sd 4 3 0], rfl, by decide, by decide⟩
    · intro _ L h
      cases h
/-- SetupWithInvalidParametersChangesOnlyTheStatus. -/
theorem test_witness_setupInvalid :
    ({ base with clockFreq := 0 } : InitParams).wf = true ∧
    validate ready.params { base with clockFreq := 0 } = .error .nullClkFreq := by decide +kernel
/-- What the validator reads from `base`. -/
def basePlan : Plan := { table0 := ⟨1, 0, [⟨0, [act 4 1]⟩]⟩, sigDef0 := [sd 4 3 0], second := none }
/-- SetupWithoutRegisterBase. -/
theorem test_witness_noBase :
    base.wf = true ∧ validate State.reset.params base = .ok basePlan ∧ State.reset.env.baseOk = false := by decide +kernel
/-- SetupPasses for the base record: SetupCompletes, SetupProgramsTheRegisters, SetupProgramsTheSlaveFields (MASTER),
SetupCompilesTheTablesIntoTheLut, UpdateWithTheSameTablesChangesNothing (page 1 drawn), the type and clock select
registers, and SetupRegistersARequestedInterrupt with no request. -/
theorem test_witness_setupPasses : SetupPasses base ready basePlan [] where
  wellFormed := by decide +kernel
  valid := by decide +kernel
  base := rfl
  resolves := ⟨allResolve_of (by decide +kernel), by intro T L h; cases h⟩
  clocks := by decide +kernel
  dividers := by simp
  irq := fun _ => rfl
/-- Two tables with a clock and an interrupt, in SLAVE_CSI2: what the validator reads, and the cluster. -/
def csi2 : InitParams := { double with workingMode := 2, csi2Unit := 1, csi2Vc := 3, irqEvents := 3, callback := some 7 }
/-- `ready` with CSI2 ranges of 2 and 4, and slave fields of 4 bits. -/
def readyCsi2 : State :=
  { ready with params := { defaultParams with nCsi2Unit := 2, nCsi2Vc := 4, slaveFieldBits := 4 } }
def csi2Plan : Plan :=
  { table0 := ⟨1, 0, [⟨0, [act 4 1]⟩]⟩, sigDef0 := [sd 4 3 0], second := some (⟨1, 0, [⟨0, [act 13 2]⟩]⟩, [sd 13 2 400]) }
/-- SetupPasses with a second table, a cluster and a requested interrupt: the other clauses of the same statements. -/
theorem test_witness_setupPasses_csi2 : SetupPasses csi2 readyCsi2 csi2Plan [⟨400, 400⟩] where
  wellFormed := by decide +kernel
  valid := by decide +kernel
  base := rfl
  resolves := ⟨allResolve_of (by decide +kernel), by intro T L h; cases h; exact allResolve_of (by decide +kernel)⟩
  clocks := by decide +kernel
  dividers := by decide +kernel
  irq := fun _ => rfl
/-- The plan of the spanning record. -/
def spanPlan : Plan :=
  { table0 := ⟨33, 10000, (List.range 33).map fun i => ⟨BitVec.ofNat 32 (100 * i), [act 4 (i % 2)]⟩⟩
    sigDef0 := [sd 4 3 0], second := none }
/-- SetupPasses for a table that spans both pages (CV7), at its boundary of 33 events. -/
theorem test_witness_setupPasses_span : SetupPasses span ready spanPlan [] where
  wellFormed := by decide +kernel
  valid := by decide +kernel
  base := rfl
  resolves := ⟨allResolve_of (by decide +kernel), by intro T L h; cases h⟩
  clocks := by decide +kernel
  dividers := by simp
  irq := fun _ => rfl
/-- 32 events: the most that stay on page 0. -/
def full : InitParams := { base with table0 := some (tab 0 ((List.range 32).map fun i => ev (100 * i) [act 4 (i % 2)])) }
/-- Their checked form. -/
def fullEvents : List CheckedEvent := (List.range 32).map fun i => ⟨BitVec.ofNat 32 (100 * i), [act 4 (i % 2)]⟩
/-- SetupPasses for exactly 32 events: the clause of page 1 that is not written, at its boundary. -/
theorem test_witness_setupPasses_full :
    fullEvents.length = 32 ∧
    SetupPasses full ready { table0 := ⟨32, 0, fullEvents⟩, sigDef0 := [sd 4 3 0], second := none } [] :=
  ⟨by decide +kernel,
    { wellFormed := by decide +kernel
      valid := by decide +kernel
      base := rfl
      resolves := ⟨allResolve_of (by decide +kernel), by intro T L h; cases h⟩
      clocks := by decide +kernel
      dividers := by simp
      irq := fun _ => rfl }⟩
/-- SetupPasses with an SPT type bit of 17, one of CTEP0's field: SignalTypeRegistersHoldTheLastTypes. -/
theorem test_witness_setupPasses_spt :
    SetupPasses { base with sigDef0 := some [sd 0 1 0, sd 4 1 0] }
      { ready with params := { defaultParams with sptTypeBit := 17 } }
      { basePlan with sigDef0 := [sd 0 1 0, sd 4 1 0] } [] where
  wellFormed := by decide +kernel
  valid := by decide +kernel
  base := rfl
  resolves := ⟨allResolve_of (by decide +kernel), by intro T L h; cases h⟩
  clocks := by decide +kernel
  dividers := by simp
  irq := fun _ => rfl
/-- StoppedCompileKeepsThePartialLut, a SETUP stopped in Table 0 (CE1: an output with no definition). -/
theorem test_witness_stopped0 :
    let p := { base with table0 := some (tab 0 [ev 0 [act 4 1], ev 10 [act 5 1]]) }
    let v : Plan := { basePlan with table0 := ⟨2, 0, [⟨0, [act 4 1]⟩, ⟨10, [act 5 1]⟩]⟩ }
    SetupCompiles p ready v ∧ v.table0.events = [⟨0, [act 4 1]⟩] ++ ⟨10, [act 5 1]⟩ :: [] ∧
    allResolve ready.params v.sigDef0 [⟨0, [act 4 1]⟩] ∧
    resolveActions ready.params v.sigDef0 [act 5 1] = .error .sigNotDef :=
  ⟨⟨by decide +kernel, by decide +kernel, rfl⟩, rfl, allResolve_of (by decide +kernel), by decide +kernel⟩
/-- The same after exactly 32 events: the second page has been zeroed. -/
theorem test_witness_stopped0_secondPage :
    let es := (List.range 32).map fun i => ev (100 * i) [act 4 (i % 2)]
    let p := { base with table0 := some (tab 0 (es ++ [ev 3200 [act 5 1]])) }
    let v : Plan := { basePlan with table0 := ⟨33, 0, fullEvents ++ ⟨3200, [act 5 1]⟩ :: []⟩ }
    SetupCompiles p ready v ∧ allResolve ready.params v.sigDef0 fullEvents ∧ fullEvents.length = 32 ∧
    resolveActions ready.params v.sigDef0 [act 5 1] = .error .sigNotDef :=
  ⟨⟨by decide +kernel, by decide +kernel, rfl⟩, allResolve_of (by decide +kernel), by decide +kernel, by decide +kernel⟩
/-- `double` with a Table 1 whose first event names CTEP0, which sigDef1 does not define (P3's IN3bad). -/
def doubleBad : InitParams := { double with table1 := some (tab 0 [ev 0 [act 4 1]]) }
def doubleBadPlan : Plan := { basePlan with second := some (⟨1, 0, [⟨0, [act 4 1]⟩]⟩, [sd 13 2 400]) }
/-- The same, a SETUP stopped in Table 1, and what it leaves there: the initial pattern. -/
theorem test_witness_stopped1 :
    SetupCompiles doubleBad ready doubleBadPlan ∧ allResolve ready.params doubleBadPlan.sigDef0 doubleBadPlan.table0.events ∧
    resolveActions ready.params [sd 13 2 400] [act 4 1] = .error .sigNotDef ∧
    (let t := after (exec (.setup doubleBad) ready)
     t.output.status = some .sigNotDef ∧ lutAt t.regs.lut 1 0 = ⟨0, 0⟩ ∧ lutAt t.regs.lut 1 1 = ⟨0, 0x006FFFFF⟩) :=
  ⟨⟨by decide +kernel, by decide +kernel, rfl⟩, allResolve_of (by decide +kernel), by decide +kernel, by decide +kernel⟩
/-- The same, an UPDATE_TABLES of a Running driver stopped in Table 0 (KV25). -/
theorem test_witness_updateStopped0 :
    UpdateCompiles ⟨some (tab 0 [ev 0 [act 5 1]]), none⟩ running ⟨1, 0, [⟨0, [act 5 1]⟩]⟩ none [sd 4 3 0] [] ∧
    resolveActions running.params [sd 4 3 0] [act 5 1] = .error .sigNotDef ∧
    (let t := after (exec (.updateTables ⟨some (tab 0 [ev 0 [act 5 1]]), none⟩) running)
     t.output.status = some .sigNotDef ∧ t.drv.status = .initialized ∧ t.regs.ctrlEn = 0 ∧ t.regs.chksumEn = 1) :=
  ⟨⟨by decide +kernel, by decide, rfl, by decide +kernel, rfl, by intro h; cases h⟩, by decide +kernel, by decide +kernel⟩
/-- The same, an UPDATE_TABLES stopped in Table 0 after exactly 32 events: the second page has been zeroed. -/
theorem test_witness_updateStopped0_secondPage :
    let es := (List.range 32).map fun i => ev (100 * i) [act 4 (i % 2)]
    let u : UpdateParams := ⟨some (tab 0 (es ++ [ev 3200 [act 5 1]])), none⟩
    UpdateCompiles u running ⟨33, 0, fullEvents ++ ⟨3200, [act 5 1]⟩ :: []⟩ none [sd 4 3 0] [] ∧
    allResolve running.params [sd 4 3 0] fullEvents ∧ fullEvents.length = 32 ∧
    resolveActions running.params [sd 4 3 0] [act 5 1] = .error .sigNotDef ∧
    lutAt (after (exec (.updateTables u) running)).regs.lut 1 0 = ⟨0, 0⟩ :=
  ⟨⟨by decide +kernel, by decide, rfl, by decide +kernel, rfl, by intro h; cases h⟩, allResolve_of (by decide +kernel),
    by decide +kernel, by decide +kernel, by decide +kernel⟩
/-- The same, stopped in Table 1. -/
theorem test_witness_updateStopped1 :
    UpdateCompiles ⟨doubleBad.table0, doubleBad.table1⟩
      { initialized with drv := { initialized.drv with signalDef1 := some [sd 13 2 400] } }
      basePlan.table0 (some ⟨1, 0, [⟨0, [act 4 1]⟩]⟩) [sd 4 3 0] [sd 13 2 400] ∧
    allResolve initialized.params [sd 4 3 0] basePlan.table0.events ∧
    resolveActions initialized.params [sd 13 2 400] [act 4 1] = .error .sigNotDef :=
  ⟨⟨by decide +kernel, by decide, rfl, by decide +kernel, rfl, fun _ => rfl⟩, allResolve_of (by decide +kernel),
    by decide +kernel⟩
/-- SetupLeavesTheEngineDisabledOrUntouched: a failure before the pulse, and one after it. -/
theorem test_witness_engine :
    (after (exec (.setup { base with clockFreq := 0 }) running)).output.status = some .nullClkFreq ∧
    (after (exec (.setup { base with sigDef0 := some [sd 4 2 0] }) { running with env := envOn })).output.status =
      some .nullClkPeriod := by decide +kernel
/-- SetupRegistersARequestedInterrupt: the collaborator refuses (KV24). -/
theorem test_witness_irqRefused :
    let s : State := { readyCsi2 with env := { envOn with irqRegOk := false } }
    SetupPasses csi2 { s with env := { s.env with irqRegOk := true } } csi2Plan [⟨400, 400⟩] ∧ csi2.irqEvents ≠ 0 ∧
    s.env.irqRegOk = false := ⟨test_witness_setupPasses_csi2, by decide, rfl⟩
/-- Csi2SelectorsAreUnreadOutsideSlaveCsi2: MASTER, SLAVE, and a code that is no mode. -/
theorem test_witness_csi2 :
    base.workingMode.toNat ≠ 2 ∧ ({ base with workingMode := 1 } : InitParams).workingMode.toNat ≠ 2 ∧
    ({ base with workingMode := 3 } : InitParams).workingMode.toNat ≠ 2 := by decide
/-- EventsBeyondTheLengthAreUnread. -/
theorem test_witness_beyond :
    (tab 0 [ev 0 [act 4 1]]).events = some [ev 0 [act 4 1]] ∧
    (tab 0 [ev 0 [act 4 1]]).length.toNat ≤ [ev 0 [act 4 1]].length ∧ [ev 0 [act 9 9]].all Event.wf = true ∧
    base.table0 = some (tab 0 [ev 0 [act 4 1]]) ∧ doubleBad.table1 = some (tab 0 [ev 0 [act 4 1]]) := by decide +kernel
/-- The first fault of a definition table: too long, a type that is none (VV17), an SPT Clock, two SPT types (VV21), a
FLEX Toggle (VV22); and SPT types that differ after a fault of another entry. -/
theorem test_sigDefFaults :
    checkSigDefs (List.replicate 17 (sd 16 9 0)) = .error .sigDefTooLong ∧
    checkSigDefs [sd 4 4 0] = .error .sigOutTypeWrg ∧ checkSigDefs [sd 0 2 0] = .error .sigOutTypeWrg ∧
    checkSigDefs [sd 0 1 0, sd 3 3 0] = .error .sigOutDifType ∧ checkSigDefs [sd 14 1 0] = .error .sigOutTypeWrg ∧
    checkSigDefs [sd 14 1 0, sd 0 1 0, sd 3 3 0] = .error .sigOutTypeWrg ∧
    sigDefFault [sd 0 1 0] (sd 3 3 0) = some .sigOutDifType := by decide +kernel
/-- ValidatorReportsTheFirstFault: the order of R161 and R176 where two checks fail (VV24, VV26, VV27). -/
theorem test_firstFaults :
    validate defaultParams { base with clockFreq := 0, table0 := none } = .error .nullClkFreq ∧
    validate defaultParams { base with sigDef0 := none, table1 := base.table0 } = .error .nullPtrSigDef0 ∧
    validate defaultParams { span with table1 := base.table0, sigDef1 := none } = .error .tableTooLongDouble ∧
    validate defaultParams { base with table1 := some (tab 0 []), sigDef1 := some [sd 0 3 0, sd 1 1 0] } =
      .error .sigOutDifType ∧
    validate defaultParams { base with sigDef1 := some [], irqEvents := 1 } = .error .wrgPtrSigDef1 ∧
    validateTables ⟨span.table0, some (tab 0 [])⟩ = .error .tableTooLongDouble ∧
    validateTables ⟨some { tab 0 [] with length := 65 }, none⟩ = .error .tableTooLong := by decide +kernel
/-- DeltasOfAFittingDividerFitTheField: MV7, where the divider is 2. -/
theorem test_witness_fits :
    let T : CheckedTable := ⟨1, 0, [⟨3355443188, []⟩]⟩
    let d : DriverState := { initialized.drv with mainClockDivider := 2 }
    d.mainClockDivider = BitVec.ofNat 8 (selectMainDivider defaultParams (maxDelay [T]) d.workingFreq.toNat) ∧
    maxDelay [T] * d.workingFreq.toNat / 1000000000 / d.mainClockDivider.toNat < 2 ^ defaultParams.tickDeltaBits - 1 ∧
    (T.events.map fun e => e.absTime.toNat).Pairwise (· ≤ ·) ∧ T.events[0]? = some ⟨3355443188, []⟩ := by decide +kernel
/-- MergedRepresentativeIsFourFifths: SV5's cluster, and a product just below the wrap. -/
theorem test_witness_merged :
    1 ≤ 100 ∧ 100 * 160 * 8 < 2 ^ 64 ∧ mergedRepresentative 100 160 = 128 ∧ 0x7FFFFFFF * 0xFFFFFFFF * 2 < 2 ^ 64 := by
  decide +kernel
/-- FourCloseAndOneFarMakeTwoClusters: SV5 (the far one above, at exactly twice the smallest), and one below. -/
theorem test_witness_fourClose :
    (∀ y, y ∈ [160, 100, 200, 140, 120] ↔ y = 100 ∨ y = 120 ∨ y = 140 ∨ y = 160 ∨ y = 200) ∧ 2 * 100 ≤ 200 ∧ 160 < 2 * 100 ∧
    (∀ y, y ∈ [160, 100, 50, 140, 120] ↔ y = 100 ∨ y = 120 ∨ y = 140 ∨ y = 160 ∨ y = 50) ∧ 2 * 50 ≤ 100 := by
  refine ⟨?_, by decide, by decide, ?_, by decide⟩ <;> intro y <;> simp <;> omega
/-- ClusterOfFindsThePeriodsCluster: the direct case (SV4) and the merge case (SV5). -/
theorem test_witness_clusterOf :
    collectPeriods [sd 4 2 100, sd 5 2 150] none = .ok [100, 150] ∧
    solveClusters [sd 4 2 100, sd 5 2 150] none = .ok [⟨100, 100⟩, ⟨150, 150⟩] ∧ 150 ∈ [100, 150] ∧
    collectPeriods [sd 4 2 100, sd 5 2 120, sd 6 2 140, sd 7 2 160] (some [sd 8 2 1000]) =
      .ok [100, 120, 140, 160, 1000] ∧
    solveClusters [sd 4 2 100, sd 5 2 120, sd 6 2 140, sd 7 2 160] (some [sd 8 2 1000]) =
      .ok [⟨100, 128⟩, ⟨1000, 1000⟩] ∧
    4 < (dedupAdjacent (sortAscending [100, 120, 140, 160, 1000])).length := by decide +kernel
/-- TooManyClustersRaiseBeforeAnyWrite: SV7 collects five periods that make five clusters. -/
theorem test_witness_tooMany :
    collectPeriods [sd 4 2 100, sd 5 2 250, sd 6 2 700, sd 7 2 1500, sd 8 2 3100] none =
      .ok [100, 250, 700, 1500, 3100] ∧
    4 < (mergeClusters (dedupAdjacent (sortAscending [100, 250, 700, 1500, 3100]))).length := by decide +kernel
/-- SolverErrorKeepsTheEarlierWrites: SV10, one legal divider before the bad one. -/
theorem test_witness_dividerError :
    ([(⟨100, 100⟩ : Cluster)] ++ (⟨2401, 2401⟩ : Cluster) :: ([] : List Cluster)).length ≤ 4 ∧
    (∀ c ∈ [(⟨100, 100⟩ : Cluster)], linearDivider c.rep 80000000 ≤ 192) ∧ 192 < linearDivider 2401 80000000 ∧
    linearDivider 2400 80000000 = 192 := by decide +kernel
/-- The same at the level of SETUP: SV10; and NULL_CLK_PERIOD and TOO_MANY_CLOCKS (SV12, SV7), with nothing written. -/
theorem test_witness_solverError :
    (SetupSolves { base with table0 := some (tab 0 [ev 0 []]), sigDef0 := some [sd 4 2 100, sd 5 2 2401] } ready
      { table0 := ⟨1, 0, [⟨0, []⟩]⟩, sigDef0 := [sd 4 2 100, sd 5 2 2401], second := none }) ∧
    solveClusters [sd 4 2 100, sd 5 2 2401] none = .ok ([⟨100, 100⟩] ++ ⟨2401, 2401⟩ :: []) ∧
    solveClusters [sd 4 2 0] none = .error .nullClkPeriod ∧
    solveClusters [sd 4 2 100, sd 5 2 250, sd 6 2 700, sd 7 2 1500, sd 8 2 3100] none = .error .tooManyClocks :=
  ⟨{ wellFormed := by decide +kernel
     valid := by decide +kernel
     base := rfl
     resolves := ⟨allResolve_of (by decide +kernel), by intro T L h; cases h⟩ },
    by decide +kernel, by decide +kernel, by decide +kernel⟩
/-- ClkDivCodesAreTheTable at its ends. -/
theorem test_witness_codes : 1 ≤ (1 : Fin 193).val ∧ (192 : Fin 193).val = 192 ∧ clkDivEncode 192 = 7 := by decide +kernel
/-- ActionMaskBitsComeFromTheActions: each class of outputs at its boundary. -/
theorem test_witness_mask :
    (∀ a ∈ [act 0 1, act 3 2, act 4 1, act 13 2, act 14 1, act 15 3], a.outputSignal.toNat < 16) ∧
    resolveActions defaultParams [sd 0 1 0, sd 3 1 0, sd 4 3 0, sd 13 3 0]
      [act 0 1, act 3 2, act 4 1, act 13 2, act 14 1, act 15 3] = .ok 0x0008000710000000 := by decide +kernel
/-- TickDeltaIsTheDifferenceNeverZero: CV6's wrap, and equal ticks. -/
theorem test_witness_delta : tickDelta 40 20 = 0xFFFFFFEC ∧ tickDelta 7 7 = 1 ∧ tickDelta 0 (2 ^ 32) = 1 := by decide
/-- MaskedWriteKeepsTheBitsOutsideTheMask: the highest 2-bit field. -/
theorem test_witness_field : 30 ≤ 30 ∧ (3 : U32).toNat ≤ 3 := by decide
/-- The widths of a part whose slave fields have 4 bits. -/
def widths : Params := { defaultParams with slaveFieldBits := 4 }
/-- The place of a field alone in its register, at bit 0. -/
def ownPlace (f : RegField) : Place :=
  { offset := allFields.idxOf f, mask := truncBits (fieldBits widths f) (BitVec.allOnes 32), shift := 0 }
/-- A layout that gives every field a register of its own. -/
def ownLayout : Layout :=
  { Config.regLayout with
    ctrlEn := ownPlace .ctrlEn, ctrlRst := ownPlace .ctrlRst, chksumEn := ownPlace .chksumEn, mode := ownPlace .mode
    runMode := ownPlace .runMode, timingMode := ownPlace .timingMode, dpDiv := ownPlace .dpDiv
    repeatCount := ownPlace .repeatCount, tlim := Vector.ofFn fun t => ownPlace (.tlim t)
    slvRfsSrc := ownPlace .slvRfsSrc, slvRcsSrc := ownPlace .slvRcsSrc, slvDelay := ownPlace .slvDelay
    slvCsi2Unit := ownPlace .slvCsi2Unit, slvCsi2Vc := ownPlace .slvCsi2Vc
    clkDiv := Vector.ofFn fun n => ownPlace (.clkDiv n), clkSel := Vector.ofFn fun t => ownPlace (.clkSel t)
    sigTypeA := Vector.ofFn fun t => ownPlace (.sigTypeA t), sigTypeB := Vector.ofFn fun t => ownPlace (.sigTypeB t)
    irqEn := ownPlace .irqEn, rfsGen := ownPlace .rfsGen
    lutLsb := Vector.ofFn fun p => Vector.ofFn fun s => ownPlace (.lutLsb p s)
    lutMsb := Vector.ofFn fun p => Vector.ofFn fun s => ownPlace (.lutMsb p s) }
theorem placeOf_ownLayout (f : RegField) : placeOf ownLayout f = ownPlace f := by
  cases f <;> simp [placeOf, ownLayout]
/-- A layout as MaskedWriteKeepsTheBitsOutsideTheMask asks for exists. -/
theorem test_witness_layout : LayoutOk { widths with layout := ownLayout } where
  within := by
    intro f b h
    change (placeOf ownLayout f).mask.getLsbD b = true at h
    change (placeOf ownLayout f).shift ≤ b ∧ b < (placeOf ownLayout f).shift + fieldBits widths f
    rw [placeOf_ownLayout] at h ⊢
    simp only [ownPlace, truncBits_bit, Bool.and_eq_true, decide_eq_true_eq] at h
    exact ⟨Nat.zero_le b, by simpa [ownPlace] using h.1⟩
  apart := by
    intro f g b hne h
    change (placeOf ownLayout f).offset = (placeOf ownLayout g).offset at h
    rw [placeOf_ownLayout, placeOf_ownLayout] at h
    exact absurd ((List.idxOf_inj (mem_allFields f)).1 h) hne
/-- UpdateRefusesAChangeOfTableMode, both ways. -/
theorem test_witness_tableMode :
    (⟨base.table0, base.table0⟩ : UpdateParams).wf = true ∧ initialized.drv.status ≠ .notInit ∧
    (⟨base.table0, base.table0⟩ : UpdateParams).table1.isSome ≠ initialized.drv.signalDef1.isSome ∧
    (⟨base.table0, none⟩ : UpdateParams).table1.isSome ≠
      ({ initialized.drv with signalDef1 := some [sd 13 2 400] } : DriverState).signalDef1.isSome := by decide +kernel
/-- UpdateWithInvalidTablesChangesNothing: VU1. -/
theorem test_witness_updateInvalid :
    (⟨none, none⟩ : UpdateParams).wf = true ∧
    (⟨none, none⟩ : UpdateParams).table1.isSome = initialized.drv.signalDef1.isSome ∧
    validateTables ⟨none, none⟩ = .error .nullPtrTable0 := by decide +kernel
/-- UpdatePasses for one table, on a Running driver. -/
theorem test_witness_updatePasses : UpdatePasses ⟨base.table0, none⟩ running basePlan.table0 none [sd 4 3 0] [] where
  wellFormed := by decide +kernel
  setUp := by decide
  presence := rfl
  valid := by decide +kernel
  snapshot0 := rfl
  snapshot1 := by intro h; cases h
  resolves0 := allResolve_of (by decide +kernel)
  resolves1 := by intro T h; cases h
/-- UpdatePasses for two tables. -/
theorem test_witness_updatePasses_double :
    UpdatePasses ⟨double.table0, double.table1⟩
      { initialized with drv := { initialized.drv with signalDef1 := some [sd 13 2 400] } }
      ⟨1, 0, [⟨0, [act 4 1]⟩]⟩ (some ⟨1, 0, [⟨0, [act 13 2]⟩]⟩) [sd 4 3 0] [sd 13 2 400] where
  wellFormed := by decide +kernel
  setUp := by decide
  presence := rfl
  valid := by decide +kernel
  snapshot0 := rfl
  snapshot1 := fun _ => rfl
  resolves0 := allResolve_of (by decide +kernel)
  resolves1 := by intro T h; cases h; exact allResolve_of (by decide +kernel)
/-- UpdatePasses for a spanning table. -/
theorem test_witness_updatePasses_span :
    UpdatePasses ⟨span.table0, none⟩ initialized spanPlan.table0 none [sd 4 3 0] [] where
  wellFormed := by decide +kernel
  setUp := by decide
  presence := rfl
  valid := by decide +kernel
  snapshot0 := rfl
  snapshot1 := by intro h; cases h
  resolves0 := allResolve_of (by decide +kernel)
  resolves1 := by intro T h; cases h
/-- UpdatePasses for exactly 32 events: page 1 is kept. -/
theorem test_witness_updatePasses_full :
    UpdatePasses ⟨full.table0, none⟩ initialized ⟨32, 0, fullEvents⟩ none [sd 4 3 0] [] where
  wellFormed := by decide +kernel
  setUp := by decide
  presence := rfl
  valid := by decide +kernel
  snapshot0 := rfl
  snapshot1 := by intro h; cases h
  resolves0 := allResolve_of (by decide +kernel)
  resolves1 := by intro T h; cases h
/-- UpdateWithTheSameTablesChangesNothing: SETUP of the base record answers a next state. -/
theorem test_witness_same : SetupPasses base ready basePlan [] ∧ ∃ t, exec (.setup base) ready = .next t :=
  ⟨test_witness_setupPasses, after (exec (.setup base) ready), rfl⟩

end Sys2Proof.Tests
end

section
/-! O19: what a command meets besides the block (R9, R320) stays as it was. The seven commands agree in this, so it is one
relation between states, kept by each step of a body and composed along it; only the reset pulse (R335, R451) counts. -/

namespace Sys2Proof.Machine

/-- The parameters, the environment and the rest of the input stream are those of `s`, and `n` reset pulses were drawn. -/
structure SameSurroundings (n : Nat) (s t : State) : Prop where
  params : t.params = s.params
  env : t.env = s.env
  input : t.input = s.input
  draws : t.draws = s.draws + n

namespace SameSurroundings

variable {m n : Nat} {s t u : State}

theorem refl (s : State) : SameSurroundings 0 s s := ⟨rfl, rfl, rfl, rfl⟩

theorem trans (h : SameSurroundings m s t) (k : SameSurroundings n t u) : SameSurroundings (m + n) s u :=
  ⟨k.params.trans h.params, k.env.trans h.env, k.input.trans h.input, by rw [k.draws, h.draws, Nat.add_assoc]⟩

theorem write (h : SameSurroundings n s t) (f : RegField) (v : U32) : SameSurroundings n s (t.write f v) :=
  ⟨h.params, h.env, h.input, h.draws⟩

theorem setStatus (h : SameSurroundings n s t) (d : DrvStatus) : SameSurroundings n s (t.setStatus d) :=
  ⟨h.params, h.env, h.input, h.draws⟩

theorem snapshotChecksum (h : SameSurroundings n s t) : SameSurroundings n s t.snapshotChecksum :=
  ⟨h.params, h.env, h.input, h.draws⟩

theorem setupCommit (h : SameSurroundings n s t) (v : Plan) : SameSurroundings n s (setupCommit v t) :=
  ⟨h.params, h.env, h.input, h.draws⟩

theorem finish (h : SameSurroundings n s t) (c : Status) : SameSurroundings n s (t.finish c) :=
  ⟨h.params, h.env, h.input, h.draws⟩

end SameSurroundings

theorem beginCommand_sameSurroundings (s : State) : SameSurroundings 0 s s.beginCommand := ⟨rfl, rfl, rfl, rfl⟩

theorem setupEntry_sameSurroundings (s : State) : SameSurroundings 0 s (setupEntry s) := ⟨rfl, rfl, rfl, rfl⟩

theorem setupPrepare_sameSurroundings (v : Plan) (p : InitParams) (s : State) :
    SameSurroundings 1 s (setupPrepare v p s) := ⟨rfl, rfl, rfl, rfl⟩

theorem updatePrepare_sameSurroundings (T : List CheckedTable) (s : State) :
    SameSurroundings 0 s (updatePrepare T s) :=
  ⟨updatePrepare_params T s, updatePrepare_env T s, updatePrepare_input T s, updatePrepare_draws T s⟩

theorem Writes.sameSurroundings {F : RegField → Prop} {s t : State} (h : Writes F s t) : SameSurroundings 0 s t :=
  ⟨h.params, h.env, h.input, h.draws⟩

theorem Programs.sameSurroundings {s t : State} (h : Programs s t) : SameSurroundings 0 s t :=
  ⟨h.params, h.env, h.input, h.draws⟩

/-! ### The five commands without a record -/

/-- However a part of a body ends, it has drawn no pulse and left the surroundings of `s`. -/
def Flow.KeepsSurroundings (s : State) (f : Flow) : Prop := f.Sat (SameSurroundings 0 s) fun _ => SameSurroundings 0 s

theorem runCommand_sameSurroundings {body : State → Flow} (h : ∀ s, (body s).KeepsSurroundings s) (s : State) :
    SameSurroundings 0 s (runCommand body s) := by
  obtain ⟨c, u, hu, hk⟩ := (h s.beginCommand).result
  have hkept : SameSurroundings 0 s.beginCommand u := hk.elim And.right id
  rw [runCommand, hu]
  exact ((beginCommand_sameSurroundings s).trans hkept).finish c

theorem guardInitialized_keepsSurroundings (s : State) : (guardInitialized s).KeepsSurroundings s := by
  by_cases hs : s.drv.status = .notInit
  · rw [guardInitialized_notInit hs]; exact .refl s
  · rw [guardInitialized_setUp hs]; exact .refl s

theorem startBody_keepsSurroundings (s : State) : (startBody s).KeepsSurroundings s := by
  refine (guardInitialized_keepsSurroundings s).andThen fun t ht => ?_
  split_ifs
  · exact (ht.write .ctrlEn 1).setStatus .running
  · exact ht
  · exact (ht.write .ctrlEn 0).write .ctrlEn 1

theorem stopBody_keepsSurroundings (s : State) : (stopBody s).KeepsSurroundings s := by
  refine (guardInitialized_keepsSurroundings s).andThen fun t ht => ?_
  split_ifs
  · exact ht
  · exact (ht.write .ctrlEn 0).setStatus .initialized

theorem restartBody_keepsSurroundings (s : State) : (restartBody s).KeepsSurroundings s :=
  (stopBody_keepsSurroundings s).andThen fun t ht =>
    (startBody_keepsSurroundings t).mono (fun _ h => ht.trans h) fun _ _ h => ht.trans h

theorem rfsGenerateBody_keepsSurroundings (s : State) : (rfsGenerateBody s).KeepsSurroundings s := by
  refine (guardInitialized_keepsSurroundings s).andThen fun t ht => ?_
  split_ifs
  · exact ht
  · exact ht
  · exact ht.write .rfsGen 1

theorem getLutChecksumBody_keepsSurroundings (s : State) : (Flow.go s.snapshotChecksum).KeepsSurroundings s :=
  (SameSurroundings.refl s).snapshotChecksum

/-! ### The two commands with a record -/

theorem updateTables_sameSurroundings {u : UpdateParams} {s t : State} (h : exec (.updateTables u) s = .next t) :
    SameSurroundings 0 s t := by
  have hb := beginCommand_sameSurroundings s
  obtain ⟨_, ⟨_, rfl⟩ | ⟨_, ⟨c, _, rfl⟩ | ⟨t0, t1, _, _, hrun⟩⟩⟩ := update_cases h
  · exact hb.finish .notInitialized
  · exact hb.finish c
  · have hprep := hb.trans (updatePrepare_sameSurroundings (t0 :: t1.toList) s.beginCommand)
    obtain ⟨w, x, hw, hx, rfl⟩ | ⟨c, w, _, hw, rfl⟩ := hrun
    · have hlut := (hprep.trans hw.sameSurroundings).snapshotChecksum
      exact ((hlut.trans hx.sameSurroundings).setStatus .initialized).finish .ok
    · exact (hprep.trans hw.sameSurroundings).finish c

/-- SETUP draws no pulse when it stops before R335, and one, by `setupPrepare`, when it gets there. -/
theorem setup_sameSurroundings {p : InitParams} {s t : State} (h : exec (.setup p) s = .next t) :
    SameSurroundings 0 s t ∨ SameSurroundings 1 s t := by
  obtain ⟨_, ⟨c, _, rfl⟩ | ⟨v, _, ⟨_, rfl⟩ | ⟨_, u, hu, hend⟩⟩⟩ := setup_cases h
  · exact .inl (((beginCommand_sameSurroundings s).setStatus .notInit).finish c)
  · exact .inl ((setupEntry_sameSurroundings s).finish .regBaseNull)
  · have hprep := (setupEntry_sameSurroundings s).trans (setupPrepare_sameSurroundings v p (setupEntry s))
    have hprog := hprep.trans hu.sameSurroundings
    obtain rfl | ⟨c, _, rfl⟩ := hend
    · exact .inr ((hprog.setupCommit v).finish .ok)
    · exact .inr (hprog.finish c)

/-! ### Every command -/

/-- A command other than SETUP draws no pulse and leaves its surroundings. -/
theorem exec_sameSurroundings_of_not_setup {i : Instr} {s t : State} (hi : ∀ p, i ≠ .setup p)
    (h : exec i s = .next t) : SameSurroundings 0 s t := by
  cases i with
  | setup p => exact absurd rfl (hi p)
  | start => cases h; exact runCommand_sameSurroundings startBody_keepsSurroundings s
  | stop => cases h; exact runCommand_sameSurroundings stopBody_keepsSurroundings s
  | restart => cases h; exact runCommand_sameSurroundings restartBody_keepsSurroundings s
  | rfsGenerate => cases h; exact runCommand_sameSurroundings rfsGenerateBody_keepsSurroundings s
  | updateTables u => exact updateTables_sameSurroundings h
  | getLutChecksum => cases h; exact runCommand_sameSurroundings getLutChecksumBody_keepsSurroundings s

theorem exec_sameSurroundings {i : Instr} {s t : State} (h : exec i s = .next t) :
    SameSurroundings 0 s t ∨ SameSurroundings 1 s t := by
  by_cases hi : ∃ p, i = .setup p
  · obtain ⟨p, rfl⟩ := hi
    exact setup_sameSurroundings h
  · exact .inl (exec_sameSurroundings_of_not_setup (fun p hp => hi ⟨p, hp⟩) h)

/-- Settles O19: at most one of SETUP's reset pulses is drawn, and nothing else of the surroundings changes. -/
theorem commandsConsumeNothingElse : Obligations.CommandsConsumeNothingElse := by
  intro i s t h
  obtain ⟨hpar, henv, hin, hdraws⟩ | ⟨hpar, henv, hin, hdraws⟩ := exec_sameSurroundings h
  · exact ⟨hpar, henv, hin, by omega, by omega⟩
  · exact ⟨hpar, henv, hin, by omega, by omega⟩

end Sys2Proof.Machine
end

section
/-! O21 and O22: the invariant holds at power-on and every step keeps it. It is a property of the parameters, the driver
state and the registers alone, in three parts: the bounds that hold at all times, what SETUP leaves (in the stages it
programs it: preparation, programming, interrupts and snapshots), and the engine enable, which START and STOP move together
with the driver status. -/

namespace Sys2Proof.Machine

/-! ### The fields of an open width -/

/-- A field whose width is a parameter of R9, and which is held in 32 bits. -/
def isOpenWidth : RegField → Prop
  | .slvRfsSrc | .slvRcsSrc | .slvDelay | .slvCsi2Unit | .slvCsi2Vc | .dpDiv | .clkDiv _ | .irqEn => True
  | _ => False

/-- Every field of an open width holds no more than its width. -/
def RegImage.Fits (par : Params) (r : RegImage) : Prop :=
  ∀ f, isOpenWidth f → truncBits (fieldBits par f) (r.read f) = r.read f

theorem truncBits_fieldValue (par : Params) {f : RegField} (hf : isOpenWidth f) (v : U32) :
    truncBits (fieldBits par f) (fieldValue par f v) = fieldValue par f v := by
  cases f <;> first | exact absurd hf id | exact truncBits_truncBits _ _

theorem RegImage.Fits.write {par : Params} {r : RegImage} (h : r.Fits par) (f : RegField) (v : U32) :
    (r.write par f v).Fits par := by
  intro g hg
  by_cases hgf : g = f
  · subst hgf
    rw [RegImage.read_write_same]
    exact truncBits_fieldValue par hg v
  · rw [RegImage.read_write_ne par r v hgf]
    exact h g hg

theorem RegImage.fits_zero (par : Params) : RegImage.zero.Fits par := by
  intro f hf
  cases f <;> first | exact absurd hf id | simp [RegImage.read, RegImage.zero, truncBits]

theorem RegImage.fits_drawn (par : Params) (d : RegField → U32) : (RegImage.drawn par d).Fits par := by
  intro f hf
  cases f <;> first | exact absurd hf id | simp [RegImage.read, RegImage.drawn, fieldBits]

/-! ### The parts of the invariant -/

/-- What holds at all times: the solver's cluster count, and the widths. -/
structure Bounded (par : Params) (d : DriverState) (r : RegImage) : Prop where
  fewClocks : d.usedClockDividers.toNat ≤ 4
  fits : r.Fits par

/-- What SETUP's preparation leaves (R334–R336). -/
structure Prepared (d : DriverState) (r : RegImage) : Prop where
  checksumOn : r.chksumEn = 1
  resetLow : r.ctrlRst = 0
  legalDivider : 1 ≤ d.mainClockDivider.toNat ∧ d.mainClockDivider.toNat ≤ 63
  nonZeroFreq : d.workingFreq ≠ 0

/-- What its programming steps add (R340, R344). -/
structure Programmed (d : DriverState) (r : RegImage) : Prop extends Prepared d r where
  relativeTiming : r.timingMode = 1
  legalMode : r.mode.toNat ≤ 2

/-- What the interrupt configuration adds (R346). -/
structure Configured (par : Params) (d : DriverState) (r : RegImage) : Prop extends Programmed d r where
  irqEnabled : r.irqEn = truncBits par.irqRawBits d.requestedIrqEvents
  irqCallback : d.requestedIrqEvents ≠ 0 → d.callback ≠ none

/-- What a completed SETUP leaves, with the snapshots (R347). -/
structure SetUp (par : Params) (d : DriverState) (r : RegImage) : Prop extends Configured par d r where
  snapshot0 : ∃ L, d.signalDef0 = some L ∧ acceptedDefs L
  snapshot1 : ∀ L, d.signalDef1 = some L → acceptedDefs L

/-- The engine enable that goes with a driver status (R47, R360, R361). -/
def enableOf (d : DrvStatus) : BitVec 1 := if d = .running then 1 else 0

theorem State.inv_iff (s : State) :
    s.Inv ↔ Bounded s.params s.drv s.regs ∧
      (s.drv.status ≠ .notInit → s.regs.ctrlEn = enableOf s.drv.status ∧ SetUp s.params s.drv s.regs) := by
  constructor
  · intro h
    refine ⟨⟨h.fewClocks, ?_⟩, fun hs => ⟨?_, ?_⟩⟩
    · obtain ⟨hrfs, hrcs, hdelay, hunit, hvc⟩ := h.slaveFits
      obtain ⟨hdiv, hirq, hclk⟩ := h.widthsFit
      intro f hf
      cases f <;> first | exact absurd hf id | assumption | exact hclk _
    · cases hd : s.drv.status with
      | notInit => exact absurd hd hs
      | initialized => exact h.engineOff hd
      | running => exact h.engineOn hd
    · exact ⟨⟨⟨⟨h.checksumOn hs, h.resetLow hs, h.legalDivider hs, h.nonZeroFreq hs⟩, h.relativeTiming hs,
        h.legalMode hs⟩, h.irqEnabled hs, h.irqCallback hs⟩, h.snapshot0 hs, h.snapshot1 hs⟩
  · rintro ⟨hb, hs⟩
    exact
      { engineOff := fun h => by rw [(hs (by simp [h])).1, h]; rfl
        engineOn := fun h => by rw [(hs (by simp [h])).1, h]; rfl
        checksumOn := fun h => (hs h).2.checksumOn
        relativeTiming := fun h => (hs h).2.relativeTiming
        resetLow := fun h => (hs h).2.resetLow
        legalMode := fun h => (hs h).2.legalMode
        legalDivider := fun h => (hs h).2.legalDivider
        nonZeroFreq := fun h => (hs h).2.nonZeroFreq
        snapshot0 := fun h => (hs h).2.snapshot0
        snapshot1 := fun h => (hs h).2.snapshot1
        irqEnabled := fun h => (hs h).2.irqEnabled
        irqCallback := fun h => (hs h).2.irqCallback
        fewClocks := hb.fewClocks
        slaveFits := ⟨hb.fits .slvRfsSrc trivial, hb.fits .slvRcsSrc trivial, hb.fits .slvDelay trivial,
          hb.fits .slvCsi2Unit trivial, hb.fits .slvCsi2Vc trivial⟩
        widthsFit := ⟨hb.fits .dpDiv trivial, hb.fits .irqEn trivial, fun n => hb.fits (.clkDiv n) trivial⟩ }

theorem Bounded.inv_of_notInit {s : State} (h : Bounded s.params s.drv s.regs) (hs : s.drv.status = .notInit) : s.Inv :=
  s.inv_iff.2 ⟨h, fun hne => absurd hs hne⟩

/-- Settles O21: at power-on the status is NotInit, and every register and count is 0. -/
theorem invariantHoldsAtReset : Obligations.InvariantHoldsAtReset :=
  ⟨rfl, rfl, Bounded.inv_of_notInit ⟨Nat.zero_le 4, RegImage.fits_zero _⟩ rfl⟩

/-! ### What the parts depend on -/

/-- A field the set-up part of the invariant speaks of; IRQ_EN is apart, as SETUP writes it last (R346). -/
def isProgrammedField : RegField → Prop
  | .chksumEn | .ctrlRst | .timingMode | .mode => True
  | _ => False

/-- A field the invariant says more of than its width. -/
def isInvField (f : RegField) : Prop := f = .ctrlEn ∨ f = .irqEn ∨ isProgrammedField f

section
variable {F : RegField → Prop} {s t : State}

theorem Bounded.writes (h : Bounded s.params s.drv s.regs) (hw : Writes F s t) : Bounded t.params t.drv t.regs := by
  induction hw with
  | refl => exact h
  | step f v _ _ ih => exact ih ⟨h.fewClocks, h.fits.write f v⟩

theorem Prepared.writes (h : Prepared s.drv s.regs) (hw : Writes F s t) (hck : ¬ F .chksumEn) (hrst : ¬ F .ctrlRst) :
    Prepared t.drv t.regs where
  checksumOn := (hw.chksumEn hck).trans h.checksumOn
  resetLow := (hw.ctrlRst hrst).trans h.resetLow
  legalDivider := hw.drv ▸ h.legalDivider
  nonZeroFreq := hw.drv ▸ h.nonZeroFreq

theorem Programmed.writes (h : Programmed s.drv s.regs) (hw : Writes F s t) (hF : ∀ f, F f → ¬ isProgrammedField f) :
    Programmed t.drv t.regs where
  toPrepared := h.toPrepared.writes hw (fun hf => hF _ hf trivial) fun hf => hF _ hf trivial
  relativeTiming := (hw.timingMode fun hf => hF _ hf trivial).trans h.relativeTiming
  legalMode := (hw.mode fun hf => hF _ hf trivial) ▸ h.legalMode

theorem SetUp.writes (h : SetUp s.params s.drv s.regs) (hw : Writes F s t) (hF : ∀ f, F f → ¬ isProgrammedField f)
    (hirq : ¬ F .irqEn) : SetUp t.params t.drv t.regs where
  toProgrammed := h.toProgrammed.writes hw hF
  irqEnabled := by rw [hw.irqEn hirq, hw.drv, hw.params]; exact h.irqEnabled
  irqCallback := hw.drv ▸ h.irqCallback
  snapshot0 := hw.drv ▸ h.snapshot0
  snapshot1 := hw.drv ▸ h.snapshot1

/-- The driver status is no part of what SETUP leaves; the engine enable goes with it. -/
theorem SetUp.setStatus (h : SetUp s.params s.drv s.regs) (d : DrvStatus) :
    SetUp s.params { s.drv with status := d } s.regs :=
  ⟨⟨⟨⟨h.checksumOn, h.resetLow, h.legalDivider, h.nonZeroFreq⟩, h.relativeTiming, h.legalMode⟩, h.irqEnabled,
    h.irqCallback⟩, h.snapshot0, h.snapshot1⟩

/-- The invariant reads the driver state, the registers and the parameters only. -/
theorem State.Inv.of_same (h : s.Inv) (hdrv : t.drv = s.drv) (hregs : t.regs = s.regs) (hpar : t.params = s.params) :
    t.Inv := by
  rw [State.inv_iff, hdrv, hregs, hpar]
  exact s.inv_iff.1 h

/-- Writes to other fields keep the invariant. -/
theorem State.Inv.writes (h : s.Inv) (hw : Writes F s t) (hF : ∀ f, F f → ¬ isInvField f) : t.Inv := by
  obtain ⟨hb, hset⟩ := s.inv_iff.1 h
  refine t.inv_iff.2 ⟨hb.writes hw, fun hs => ?_⟩
  obtain ⟨hen, hup⟩ := hset (hw.drv ▸ hs)
  refine ⟨?_, hup.writes hw (fun f hf hp => hF f hf (.inr (.inr hp))) fun hf => hF _ hf (.inr (.inl rfl))⟩
  rw [hw.ctrlEn fun hf => hF _ hf (.inl rfl), hw.drv, hen]

/-- The engine enable and the driver status change together (R360, R361). -/
theorem State.Inv.enable (h : s.Inv) (hs : s.drv.status ≠ .notInit) {v : U32} {d : DrvStatus}
    (hv : v.setWidth 1 = enableOf d) : ((s.write .ctrlEn v).setStatus d).Inv := by
  have hw : Writes (· = .ctrlEn) s (s.write .ctrlEn v) := .one (F := (· = .ctrlEn)) .ctrlEn v rfl s
  obtain ⟨hb, hset⟩ := s.inv_iff.1 h
  have hup := (hset hs).2.writes hw (by rintro _ rfl; exact id) nofun
  exact (State.inv_iff _).2 ⟨⟨hb.fewClocks, (hb.writes hw).fits⟩, fun _ => ⟨hv, hup.setStatus d⟩⟩

end

/-! ### Commands as bodies -/

/-- However a part of a body ends, the invariant holds there. -/
def Flow.KeepsInv (f : Flow) : Prop := f.Sat State.Inv fun _ => State.Inv

theorem State.Inv.finish {s : State} (h : s.Inv) (c : Status) : (s.finish c).Inv := h.of_same rfl rfl rfl

theorem runCommand_inv {body : State → Flow} (hbody : ∀ s, s.Inv → (body s).KeepsInv) {s : State} (h : s.Inv) :
    (runCommand body s).Inv := by
  obtain ⟨c, u, hu, hk⟩ := (hbody s.beginCommand (h.of_same rfl rfl rfl)).result
  rw [runCommand, hu]
  exact (hk.elim And.right id).finish c

theorem guardInitialized_sat {s : State} (h : s.Inv) :
    (guardInitialized s).Sat (fun t => t.Inv ∧ t.drv.status ≠ .notInit) fun _ => State.Inv := by
  by_cases hs : s.drv.status = .notInit
  · rw [guardInitialized_notInit hs]; exact h
  · rw [guardInitialized_setUp hs]; exact ⟨h, hs⟩

/-! ### The five commands without a record -/

/-- The re-arm of R360 stops and starts a running engine. -/
theorem State.Inv.rearm {s : State} (h : s.Inv) (hs : s.drv.status = .running) :
    ((s.write .ctrlEn 0).write .ctrlEn 1).Inv := by
  have hstop : ((s.write .ctrlEn 0).setStatus .initialized).Inv := h.enable (by simp [hs]) rfl
  have hstart := hstop.enable (v := 1) (d := .running) nofun rfl
  exact hstart.of_same (by simp [← hs]) rfl rfl

theorem startBody_keepsInv (s : State) (h : s.Inv) : (startBody s).KeepsInv := by
  refine (guardInitialized_sat h).andThen fun t ⟨ht, hs⟩ => ?_
  split_ifs with hinit hexec
  · exact ht.enable hs rfl
  · exact ht
  · refine ht.rearm ?_
    cases hd : t.drv.status with
    | notInit => exact absurd hd hs
    | initialized => exact absurd hd hinit
    | running => rfl

theorem stopBody_keepsInv (s : State) (h : s.Inv) : (stopBody s).KeepsInv := by
  refine (guardInitialized_sat h).andThen fun t ⟨ht, hs⟩ => ?_
  split_ifs
  · exact ht
  · exact ht.enable hs rfl

theorem restartBody_keepsInv (s : State) (h : s.Inv) : (restartBody s).KeepsInv :=
  (stopBody_keepsInv s h).andThen startBody_keepsInv

theorem rfsGenerateBody_keepsInv (s : State) (h : s.Inv) : (rfsGenerateBody s).KeepsInv := by
  refine (guardInitialized_sat h).andThen fun t ⟨ht, _⟩ => ?_
  split_ifs
  · exact ht
  · exact ht
  · exact ht.writes (.one (F := (· = .rfsGen)) .rfsGen 1 rfl t) (by rintro _ rfl; simp [isInvField, isProgrammedField])

theorem getLutChecksumBody_keepsInv (s : State) (h : s.Inv) : (Flow.go s.snapshotChecksum).KeepsInv :=
  h.of_same rfl rfl rfl

/-! ### UPDATE_TABLES -/

theorem stopIfRunning_inv {s : State} (h : s.Inv) : (stopIfRunning s).Inv := by
  unfold stopIfRunning
  split_ifs with hs
  · exact h.enable (by simp [hs]) rfl
  · exact h

theorem write_chksumEn_inv {s : State} (h : s.Inv) : (s.write .chksumEn 1).Inv := by
  obtain ⟨hb, hset⟩ := s.inv_iff.1 h
  refine (State.inv_iff _).2 ⟨hb.writes (.one (F := fun _ => True) .chksumEn 1 trivial s), fun hs => ?_⟩
  obtain ⟨hen, hup⟩ := hset hs
  exact ⟨hen, ⟨⟨⟨rfl, hup.resetLow, hup.legalDivider, hup.nonZeroFreq⟩, hup.relativeTiming, hup.legalMode⟩,
    hup.irqEnabled, hup.irqCallback⟩, hup.snapshot0, hup.snapshot1⟩

/-- The divider SelectMainDivider stores is 1..63 (R37, R202). -/
theorem storedDivider_range (par : Params) (maxD f : Nat) :
    1 ≤ (BitVec.ofNat 8 (selectMainDivider par maxD f)).toNat ∧
      (BitVec.ofNat 8 (selectMainDivider par maxD f)).toNat ≤ 63 := by
  rw [selectMainDivider_toNat]
  exact selectMainDivider_range par maxD f

theorem computeMainDivider_inv {s : State} (h : s.Inv) (T : List CheckedTable) :
    (computeMainDivider T s.drv.workingFreq s).Inv := by
  obtain ⟨hb, hset⟩ := s.inv_iff.1 h
  refine (State.inv_iff _).2 ⟨⟨hb.fewClocks, hb.fits⟩, fun hs => ?_⟩
  obtain ⟨hen, hup⟩ := hset hs
  exact ⟨hen, ⟨⟨⟨hup.checksumOn, hup.resetLow, storedDivider_range _ _ _, hup.nonZeroFreq⟩, hup.relativeTiming,
    hup.legalMode⟩, hup.irqEnabled, hup.irqCallback⟩, hup.snapshot0, hup.snapshot1⟩

theorem updatePrepare_inv {s : State} (h : s.Inv) (T : List CheckedTable) : (updatePrepare T s).Inv :=
  computeMainDivider_inv (write_chksumEn_inv (stopIfRunning_inv h)) T

theorem isLutField_not_inv (f : RegField) (h : isLutField f) : ¬ isInvField f := by
  cases f <;> first | exact absurd h id | simp [isInvField, isProgrammedField]

theorem isUpdateField_not_inv (f : RegField) (h : isUpdateField f) : ¬ isInvField f := by
  cases f <;> first | exact absurd h id | simp [isInvField, isProgrammedField]

/-- A driver that is set up has no running engine after StopIfRunning (R353). -/
theorem stoppedStatus_setUp {d : DrvStatus} (h : d ≠ .notInit) : stoppedStatus d = .initialized := by
  cases d with
  | notInit => exact absurd rfl h
  | initialized => rfl
  | running => rfl

theorem updateTables_inv {u : UpdateParams} {s t : State} (h : s.Inv) (hexec : exec (.updateTables u) s = .next t) :
    t.Inv := by
  have hbegin : s.beginCommand.Inv := h.of_same rfl rfl rfl
  obtain ⟨_, ⟨_, rfl⟩ | ⟨hs, ⟨c, _, rfl⟩ | ⟨t0, t1, _, _, hrun⟩⟩⟩ := update_cases hexec
  · exact hbegin.finish .notInitialized
  · exact hbegin.finish c
  · have hprep := updatePrepare_inv hbegin (t0 :: t1.toList)
    obtain ⟨w, x, hw, hx, rfl⟩ | ⟨c, w, _, hw, rfl⟩ := hrun
    · have hlut : w.snapshotChecksum.Inv := (hprep.writes hw isLutField_not_inv).of_same rfl rfl rfl
      have hstatus : x.drv.status = .initialized := by
        rw [hx.drv, State.snapshotChecksum_drv, hw.drv, updatePrepare_drv]
        exact stoppedStatus_setUp hs
      have hset : (x.setStatus .initialized).Inv :=
        (hlut.writes hx isUpdateField_not_inv).of_same (by simp [← hstatus]) rfl rfl
      exact hset.finish .ok
    · exact (hprep.writes hw isLutField_not_inv).finish c

/-! ### SETUP

From its first step to its commit SETUP is in NotInit (R331), so that wherever it fails only the bounds are claimed; each
stage keeps them and adds a part of the set-up state. -/

/-- A SETUP is under way: NotInit with the bounds kept, and, from the pulse on, the engine off (R335). -/
structure Pending (par : Params) (d : DriverState) (r : RegImage) : Prop extends Bounded par d r where
  notInit : d.status = .notInit
  engineOff : r.ctrlEn = 0

theorem Pending.inv {s : State} (h : Pending s.params s.drv s.regs) : s.Inv := h.toBounded.inv_of_notInit h.notInit

theorem Pending.writes {F : RegField → Prop} {s t : State} (h : Pending s.params s.drv s.regs) (hw : Writes F s t)
    (hF : ¬ F .ctrlEn) : Pending t.params t.drv t.regs :=
  ⟨h.toBounded.writes hw, hw.drv ▸ h.notInit, (hw.ctrlEn hF).trans h.engineOff⟩

section
variable {par : Params} {p : InitParams} {v : Plan} {s : State}

theorem setupPrepare_pending (h : Bounded s.params s.drv s.regs) (hs : s.drv.status = .notInit) :
    Pending (setupPrepare v p s).params (setupPrepare v p s).drv (setupPrepare v p s).regs where
  fewClocks := h.fewClocks
  fits := (((RegImage.fits_drawn s.params (Config.pulseDraw s.draws)).write .ctrlEn 0).write .ctrlRst 0).write .chksumEn 1
  notInit := hs
  engineOff := rfl

theorem setupPrepare_prepared (hv : Accepted par p v) :
    Prepared (setupPrepare v p s).drv (setupPrepare v p s).regs :=
  ⟨rfl, rfl, storedDivider_range _ _ _, hv.freq⟩

theorem setupProgram_timingMode : (setupProgram v p s).regs.timingMode = 1 := rfl

theorem setupProgram_mode : (setupProgram v p s).regs.mode = p.workingMode.setWidth 2 := by
  obtain ⟨x, _, hx⟩ := setupProgram_regs v p s
  obtain ⟨r, hmode, hr, _⟩ := programMode_regs p x
  rw [hx, hr, ← hmode]
  rfl

theorem setupProgram_programmed (hv : Accepted par p v) (h : Prepared s.drv s.regs) :
    Programmed (setupProgram v p s).drv (setupProgram v p s).regs where
  toPrepared := h.writes (setupProgram_writes v p s) id id
  relativeTiming := setupProgram_timingMode
  legalMode := by
    have hle := checkMode_le hv.mode
    rw [setupProgram_mode, BitVec.toNat_setWidth]
    omega

theorem persistClusters_pending {cs : List Cluster} (hcs : cs.length ≤ 4) (h : Pending s.params s.drv s.regs) :
    Pending (persistClusters cs s).params (persistClusters cs s).drv (persistClusters cs s).regs where
  fewClocks := by
    rw [persistClusters_drv, BitVec.toNat_ofNat]
    omega
  fits := h.fits
  notInit := h.notInit
  engineOff := h.engineOff

theorem persistClusters_programmed {cs : List Cluster} (h : Programmed s.drv s.regs) :
    Programmed (persistClusters cs s).drv (persistClusters cs s).regs :=
  ⟨⟨h.checksumOn, h.resetLow, h.legalDivider, h.nonZeroFreq⟩, h.relativeTiming, h.legalMode⟩

/-- A state between the programming steps and the commit. -/
def Underway (s : State) : Prop := Pending s.params s.drv s.regs ∧ Programmed s.drv s.regs

theorem Underway.writes {F : RegField → Prop} {t : State} (h : Underway s) (hw : Writes F s t)
    (hF : ∀ f, F f → f ≠ .ctrlEn ∧ ¬ isProgrammedField f) : Underway t :=
  ⟨h.1.writes hw fun hf => (hF _ hf).1 rfl, h.2.writes hw fun f hf => (hF f hf).2⟩

theorem isClkDivField_keepsUnderway (f : RegField) (h : isClkDivField f) : f ≠ .ctrlEn ∧ ¬ isProgrammedField f := by
  cases f <;> first | exact absurd h id | exact ⟨nofun, id⟩

theorem isClkSelField_keepsUnderway (f : RegField) (h : isClkSelField f) : f ≠ .ctrlEn ∧ ¬ isProgrammedField f := by
  cases f <;> first | exact absurd h id | exact ⟨nofun, id⟩

theorem setupClocks_keepsUnderway (h : Underway s) : (setupClocks v s).Sat Underway fun _ => Underway := by
  have hsolve : (solveClocks v.sigDef0 v.sigDef1 s).Sat Underway fun _ => Underway := by
    refine (solveClocks_sat _ _ s).mono ?_ fun _ t ⟨_, ht⟩ => h.writes ht isClkDivField_keepsUnderway
    rintro t ⟨cs, hcs, u, hu, ⟨_, rfl⟩ | ⟨_, rfl⟩⟩
    · exact h.writes hu isClkDivField_keepsUnderway
    · obtain ⟨hpend, hprog⟩ := h.writes hu isClkDivField_keepsUnderway
      exact ⟨persistClusters_pending (solveClusters_length hcs) hpend, persistClusters_programmed hprog⟩
  exact hsolve.andThen fun t ht => ht.writes (programClockSelect_writes _ _ _ t) isClkSelField_keepsUnderway

/-- Everything the interrupt configuration can do (R346): be refused, or record the request and enable it, after the
registration call if an event is requested. -/
theorem configureInterrupts_cases (p : InitParams) (s : State) :
    ∃ u, u.params = s.params ∧ u.drv = s.drv ∧ u.regs = s.regs ∧
      (configureInterrupts p s = .raised .irqRegFailed u ∨
        configureInterrupts p s = .go (storeIrq p (u.write .irqEn p.irqEvents))) := by
  unfold configureInterrupts
  split_ifs with hirq
  · refine ⟨s.emit (.registerIrq s.params.irqLine s.params.irqCore s.params.irqPrio), rfl, rfl, rfl, ?_⟩
    dsimp only
    split_ifs
    · exact .inr rfl
    · exact .inl rfl
  · have hzero : p.irqEvents = 0 := not_not.1 hirq
    exact ⟨s, rfl, rfl, rfl, .inr (by rw [hzero])⟩

/-- The definitions of Table 1 that the commit snapshots are accepted ones (R169, R347). -/
theorem Accepted.sigDef1_accepted (hv : Accepted par p v) {L : List SigDef} (hL : v.sigDef1 = some L) :
    checkSigDefs L = .ok () := by
  obtain ⟨⟨T, _⟩, hsecond, rfl⟩ := Option.map_eq_some_iff.1 hL
  exact hv.defs1 hsecond

/-- The interrupt configuration, then the commit (R346–R348). -/
theorem setupCommit_keepsInv (hwf : p.wf = true) (hv : Accepted par p v) (h : Underway s) :
    ((configureInterrupts p s).andThen fun t => .go (setupCommit v t)).KeepsInv := by
  obtain ⟨u, hpar, hdrv, hregs, hu⟩ := configureInterrupts_cases p s
  rw [Underway, ← hpar, ← hdrv, ← hregs] at h
  obtain hu | hu := hu
  · rw [hu]
    exact h.1.inv
  · obtain ⟨hpend, hprog⟩ := Underway.writes (s := u) h (.one (F := (· = .irqEn)) .irqEn p.irqEvents rfl u)
      (by rintro _ rfl; exact ⟨nofun, id⟩)
    obtain ⟨hwf0, hwf1⟩ := hv.sigDefsWf hwf
    rw [hu]
    refine (State.inv_iff _).2 ⟨⟨hpend.fewClocks, hpend.fits⟩, fun _ => ⟨hpend.engineOff, ?_⟩⟩
    exact
      { checksumOn := hprog.checksumOn
        resetLow := hprog.resetLow
        legalDivider := hprog.legalDivider
        nonZeroFreq := hprog.nonZeroFreq
        relativeTiming := hprog.relativeTiming
        legalMode := hprog.legalMode
        irqEnabled := rfl
        irqCallback := hv.callback
        snapshot0 := ⟨v.sigDef0, rfl, hwf0, hv.defs0⟩
        snapshot1 := fun L hL => ⟨hwf1 L hL, hv.sigDef1_accepted hL⟩ }

/-- Everything past the register base (R334–R348). -/
theorem setupRun_keepsInv (hwf : p.wf = true) (hv : Accepted par p v) (hb : Bounded s.params s.drv s.regs)
    (hs : s.drv.status = .notInit) : (setupRun v p s).KeepsInv := by
  have hpend := setupPrepare_pending (p := p) (v := v) hb hs
  have hprep := setupPrepare_prepared (s := s) hv
  have htables : (compileTables v.table0 v.sigDef0 v.second (setupPrepare v p s)).Sat
      (fun t => Pending t.params t.drv t.regs ∧ Prepared t.drv t.regs) fun _ => State.Inv :=
    (compileTables_sat _ _ _ _).mono (fun _ ht => ⟨hpend.writes ht id, hprep.writes ht id id⟩)
      fun _ _ ⟨_, ht⟩ => (hpend.writes ht id).inv
  refine htables.andThen fun t ⟨hpend, hprep⟩ => ?_
  have hprog : Underway (setupProgram v p t.snapshotChecksum) :=
    ⟨Pending.writes (s := t.snapshotChecksum) hpend (setupProgram_writes v p _) id,
      setupProgram_programmed (s := t.snapshotChecksum) hv hprep⟩
  have hclocks := (setupClocks_keepsUnderway (v := v) hprog).mono (fun _ ht => ht) fun _ _ ht => ht.1.inv
  exact hclocks.andThen fun u hu => setupCommit_keepsInv hwf hv hu

end

theorem setupBody_keepsInv {p : InitParams} (hwf : p.wf = true) (s : State) (h : s.Inv) : (setupBody p s).KeepsInv := by
  have hb : Bounded s.params { s.drv with status := .notInit } s.regs := ⟨h.fewClocks, (s.inv_iff.1 h).1.fits⟩
  have hfail : (s.setStatus .notInit).Inv := Bounded.inv_of_notInit hb rfl
  unfold setupBody
  dsimp only
  split
  · exact hfail
  · next v hv =>
    split_ifs
    · exact setupRun_keepsInv hwf (validate_ok hv) hb rfl
    · exact hfail.of_same rfl rfl rfl

/-! ### Every step -/

theorem exec_inv {i : Instr} {s t : State} (h : s.Inv) (hexec : exec i s = .next t) : t.Inv := by
  cases i with
  | setup p =>
    have hx : execSetup p s = .next t := hexec
    unfold execSetup at hx
    split at hx
    · next hwf => cases hx; exact runCommand_inv (setupBody_keepsInv hwf) h
    · cases hx
  | start => cases hexec; exact runCommand_inv startBody_keepsInv h
  | stop => cases hexec; exact runCommand_inv stopBody_keepsInv h
  | restart => cases hexec; exact runCommand_inv restartBody_keepsInv h
  | rfsGenerate => cases hexec; exact runCommand_inv rfsGenerateBody_keepsInv h
  | updateTables u => exact updateTables_inv h hexec
  | getLutChecksum => cases hexec; exact runCommand_inv getLutChecksumBody_keepsInv h

/-- IrqStep writes no block state (R411). -/
theorem irqStep_inv {s : State} (h : s.Inv) : (irqStep s).Inv := by
  unfold irqStep
  dsimp only
  split
  · split_ifs
    · exact h.of_same rfl rfl rfl
    · exact h.of_same rfl rfl rfl
  · exact h.of_same rfl rfl rfl

theorem runPort_inv {c : Command} {s t : State} (h : s.Inv) (hrun : runPort c s = .next t) : t.Inv := by
  unfold runPort at hrun
  split at hrun
  · exact exec_inv h hrun
  · cases hrun
    exact h.of_same rfl rfl rfl

theorem serveInput_inv {s t : State} (h : s.Inv) (hserve : serveInput s = .next t) : t.Inv := by
  unfold serveInput at hserve
  split at hserve
  · cases hserve
    exact h
  · next env rest _ =>
    cases hserve
    have htaken : (s.takeInput env rest).Inv := h.of_same rfl rfl rfl
    exact irqStep_inv htaken
  · next c env rest _ =>
    have htaken : (s.takeInput env rest).Inv := h.of_same rfl rfl rfl
    exact runPort_inv htaken hserve

/-- Settles O22: a step is a command, an illegal word or an interrupt step, and each keeps the three parts. -/
theorem everyStepKeepsTheInvariant : Obligations.EveryStepKeepsTheInvariant := by
  intro s t h hstep
  unfold step at hstep
  split at hstep
  · cases hstep
  · exact serveInput_inv h hstep

end Sys2Proof.Machine
end

section
/-! O33: a table is read through its length, its limit and its first `length` events (R32). Two tables that agree in these
are read alike, and so are two records whose table pointers are. -/

namespace Sys2Proof.Machine

/-- The two tables have one length, and R32 and CheckTableContent judge them alike. -/
structure ReadAlike (T' T : TimeTable) : Prop where
  length : T'.length = T.length
  wf : T'.wf = T.wf
  checked : checkTable T' = checkTable T

theorem ReadAlike.refl (T : TimeTable) : ReadAlike T T := ⟨rfl, rfl, rfl⟩

/-- Well-formed events after the first `length` ones are not read. -/
theorem readAlike_append {T : TimeTable} {E X : List Event} (hE : T.events = some E) (hlen : T.length.toNat ≤ E.length)
    (hX : X.all Event.wf = true) : ReadAlike { T with events := some (E ++ X) } T where
  length := rfl
  wf := by
    have hlonger : T.length.toNat ≤ E.length + X.length := hlen.trans (Nat.le_add_right _ _)
    simp only [TimeTable.wf, hE, List.length_append, List.all_append, hX, hlen, hlonger, Bool.and_true]
  checked := by
    unfold checkTable
    refine bind_congr fun _ => bind_congr fun _ => ?_
    rw [hE]
    change (checkEvents ((E ++ X).take T.length.toNat) >>= _) = (checkEvents (E.take T.length.toNat) >>= _)
    rw [List.take_append_of_le_length hlen]

/-- Pointers that are both NULL, or point to tables read alike. -/
abbrev PointersAlike : Option TimeTable → Option TimeTable → Prop := Option.Rel ReadAlike

theorem PointersAlike.refl : ∀ o : Option TimeTable, PointersAlike o o
  | none => .none
  | some T => .some (.refl T)

section
variable {T0' T0 : TimeTable} {o0' o0 o1' o1 : Option TimeTable}

theorem optWf_alike (h : PointersAlike o0' o0) : optWf TimeTable.wf o0' = optWf TimeTable.wf o0 := by
  cases h with
  | none => rfl
  | some hT => exact hT.wf

theorem tooLongDouble_alike {T1' T1 : TimeTable} (h0 : ReadAlike T0' T0) (h1 : ReadAlike T1' T1) :
    tooLongDouble T0' T1' = tooLongDouble T0 T1 := by
  rw [tooLongDouble, tooLongDouble, h0.length, h1.length]

theorem checkSecond_alike (h0 : ReadAlike T0' T0) (h1 : PointersAlike o1' o1) (sd1 : Option (List SigDef)) :
    checkSecond T0' o1' sd1 = checkSecond T0 o1 sd1 := by
  cases h1 with
  | none => rfl
  | some hT => simp only [checkSecond, tooLongDouble_alike h0 hT, hT.checked]

theorem checkSecondTable_alike (h0 : ReadAlike T0' T0) (h1 : PointersAlike o1' o1) :
    checkSecondTable T0' o1' = checkSecondTable T0 o1 := by
  cases h1 with
  | none => rfl
  | some hT => simp only [checkSecondTable, tooLongDouble_alike h0 hT, hT.checked]

/-- A NULL pointer raises its status in both; else what follows is to agree on tables read alike. -/
theorem orRaise_bind_alike {α : Type} {c : Status} {k' k : TimeTable → Except Status α} (h : PointersAlike o0' o0)
    (hk : ∀ T' T, ReadAlike T' T → k' T' = k T) : (orRaise c o0' >>= k') = (orRaise c o0 >>= k) := by
  cases h with
  | none => rfl
  | some hT => exact hk _ _ hT

/-! ### SETUP -/

theorem validate_alike (par : Params) (p : InitParams) (h0 : PointersAlike o0' o0) (h1 : PointersAlike o1' o1) :
    validate par { p with table0 := o0', table1 := o1' } = validate par { p with table0 := o0, table1 := o1 } := by
  unfold validate
  refine bind_congr fun _ => bind_congr fun _ => orRaise_bind_alike h0 fun T' T hT => ?_
  simp only [hT.checked, checkSecond_alike hT h1]

/-- SETUP reads its tables through the validator only (R161, R330). -/
theorem exec_setup_alike (p : InitParams) (s : State) (h0 : PointersAlike o0' o0) (h1 : PointersAlike o1' o1) :
    exec (.setup { p with table0 := o0', table1 := o1' }) s = exec (.setup { p with table0 := o0, table1 := o1 }) s := by
  have hwf : InitParams.wf { p with table0 := o0', table1 := o1' } =
      InitParams.wf { p with table0 := o0, table1 := o1 } := by
    simp only [InitParams.wf, optWf_alike h0, optWf_alike h1]
  have hbody : setupBody { p with table0 := o0', table1 := o1' } = setupBody { p with table0 := o0, table1 := o1 } := by
    funext t
    rw [setupBody, setupBody, validate_alike _ p h0 h1]
    rfl
  simp only [exec, execSetup, hwf, hbody]

/-! ### UPDATE_TABLES -/

theorem validateTables_alike (h0 : PointersAlike o0' o0) (h1 : PointersAlike o1' o1) :
    validateTables ⟨o0', o1'⟩ = validateTables ⟨o0, o1⟩ := by
  refine orRaise_bind_alike h0 fun T' T hT => ?_
  simp only [hT.checked, checkSecondTable_alike hT h1]

theorem table1PresenceDiffers_alike (h1 : PointersAlike o1' o1) (d : DriverState) :
    table1PresenceDiffers ⟨o0', o1'⟩ d = table1PresenceDiffers ⟨o0, o1⟩ d := by
  cases h1 <;> rfl

/-- UPDATE_TABLES reads its tables through the presence check and the validator only (R350). -/
theorem exec_updateTables_alike (s : State) (h0 : PointersAlike o0' o0) (h1 : PointersAlike o1' o1) :
    exec (.updateTables ⟨o0', o1'⟩) s = exec (.updateTables ⟨o0, o1⟩) s := by
  have hwf : UpdateParams.wf ⟨o0', o1'⟩ = UpdateParams.wf ⟨o0, o1⟩ := by
    simp only [UpdateParams.wf, optWf_alike h0, optWf_alike h1]
  have hbody : updateBody ⟨o0', o1'⟩ = updateBody ⟨o0, o1⟩ := by
    funext t
    simp only [updateBody, table1PresenceDiffers_alike (o0' := o0') (o0 := o0) h1, validateTables_alike h0 h1]
  simp only [exec, execUpdateTables, hwf, hbody]

end

/-- Settles O33: the longer table is read like the table itself, in either place of either record. -/
theorem eventsBeyondTheLengthAreUnread : Obligations.EventsBeyondTheLengthAreUnread := by
  intro T E X s hE hlen hX
  have hT : PointersAlike (some { T with events := some (E ++ X) }) (some T) := .some (readAlike_append hE hlen hX)
  refine ⟨fun p => ⟨fun hp => ?_, fun hp => ?_⟩, fun u => ⟨fun hu => ?_, fun hu => ?_⟩⟩
  · exact exec_setup_alike p s (hp ▸ hT) (.refl p.table1)
  · exact exec_setup_alike p s (.refl p.table0) (hp ▸ hT)
  · exact exec_updateTables_alike s (hu ▸ hT) (.refl u.table1)
  · exact exec_updateTables_alike s (.refl u.table0) (hu ▸ hT)

end Sys2Proof.Machine
end

section
/-! O55: a masked write bit by bit, a masked read after a masked write, and a write by name as one access and as one
masked write to the register its field lies in (R84, R85). -/

namespace Sys2Proof.Machine

/-- WriteMaskedField (R85), at every bit. -/
theorem maskedWrite_bit (reg mask value : U32) (b : Nat) :
    (maskedWrite reg mask value).getLsbD b = if mask.getLsbD b then value.getLsbD b else reg.getLsbD b := by
  rw [maskedWrite, BitVec.getLsbD_or, BitVec.getLsbD_and, BitVec.getLsbD_and, BitVec.getLsbD_not]
  by_cases hm : mask.getLsbD b = true
  · simp [hm]
  · by_cases hb : b < 32
    · simp [-BitVec.getLsbD_eq_getElem, hm, hb]
    · simp [hm, reg.getLsbD_of_ge b (by omega)]

/-- A masked read of what a masked write left does not see the register the write started from. -/
theorem maskedRead_maskedWrite (reg mask value : U32) (shift : Nat) :
    maskedRead (maskedWrite reg mask value) mask shift = maskedRead value mask shift := by
  unfold maskedRead
  congr 1
  apply BitVec.eq_of_getLsbD_eq
  intro b _
  rw [BitVec.getLsbD_and, BitVec.getLsbD_and, maskedWrite_bit]
  split
  · rfl
  · next hm => rw [Bool.eq_false_of_not_eq_true hm, Bool.and_false, Bool.and_false]

/-- A value of at most two bits, shifted into a 2-bit field that lies in the register, is read back whole (R84). -/
theorem maskedRead_shiftLeft_mask2 {value : U32} {pos : Nat} (hpos : pos ≤ 30) (hv : value.toNat ≤ 3) :
    maskedRead (value <<< pos) (mask2 pos) pos = value := by
  apply BitVec.eq_of_getLsbD_eq
  intro b _
  rw [maskedRead, BitVec.getLsbD_ushiftRight, BitVec.getLsbD_and, BitVec.getLsbD_shiftLeft, Nat.add_sub_cancel_left]
  by_cases h2 : b < 2
  · rw [mask2_bit pos (by omega)]
    simp [h2, show pos + b < 32 by omega]
  · have hhigh : value.getLsbD b = false :=
      Nat.testBit_lt_two_pow <| calc
        value.toNat ≤ 3 := hv
        _ < 2 ^ 2 := by decide
        _ ≤ 2 ^ b := Nat.pow_le_pow_right (by decide) (by omega)
    rw [hhigh, Bool.and_false, Bool.false_and]

/-- A write by name adds its one access behind those of the command so far (R92). -/
theorem State.write_accesses (s : State) (f : RegField) (v : U32) :
    (s.write f v).accesses = s.accesses ++ [accessOf s.params.layout f v] := by
  simp [State.accesses, Effect.access]

/-- Settles O55: the write at every bit, the read after the write, and the laws of a write by name on its layout. -/
theorem maskedWriteKeepsTheBitsOutsideTheMask : Obligations.MaskedWriteKeepsTheBitsOutsideTheMask := by
  refine ⟨maskedWrite_bit, fun reg value pos hpos hv => ?_, fun s f v => ?_⟩
  · rw [maskedRead_maskedWrite, maskedRead_shiftLeft_mask2 hpos hv]
  · exact ⟨s.write_accesses f v, fun hl hf off => write_blockWord hl hf v off⟩

end Sys2Proof.Machine
end

section
/-! O1, O2, O3: the decoder as a case analysis on the number of the command word. The port carries a command, or its word
is illegal (R140–R142); each case has one decoding, and everything said of the decoder follows from these. -/

namespace Sys2Proof

open Sys2Proof.Claims

/-! ### The two fields of a command word (R140), as numbers -/

theorem opField_toNat (w : U32) : (opField w).toNat = w.toNat % 16 := by
  simp [opField, BitVec.extractLsb'_toNat]

theorem reservedField_toNat (w : U32) : (reservedField w).toNat = w.toNat / 16 := by
  have hw := w.isLt
  simp only [reservedField, BitVec.extractLsb'_toNat, Nat.shiftRight_eq_div_pow]
  omega

theorem reservedField_eq_zero_iff (w : U32) : reservedField w = 0 ↔ w.toNat / 16 = 0 := by
  rw [← BitVec.toNat_inj, reservedField_toNat]
  rfl

/-! ### The three cases of the decoder (R141, R142) -/

section

variable {c : Command}

theorem decode_of_portCarries {i : Instr} (h : portCarries c i) : decode c = .ok i := by
  have hfields {n : Nat} (hn : c.word.toNat = n) (hlt : n < 16) :
      reservedField c.word = 0 ∧ (opField c.word).toNat = n := by
    rw [reservedField_eq_zero_iff, opField_toNat]
    omega
  cases i with
  | setup p =>
    obtain ⟨hw, rfl⟩ := h
    simp [decode, hfields hw]
  | updateTables u =>
    obtain ⟨hw, rfl⟩ := h
    simp [decode, hfields hw]
  | start | stop | restart | rfsGenerate | getLutChecksum => simp [decode, hfields h]

theorem decode_of_reservedBits (h : c.word.toNat / 16 ≠ 0) : decode c = .error (.reservedBits (reservedField c.word)) :=
  if_pos ((reservedField_eq_zero_iff c.word).not.2 h)

theorem decode_of_reservedOpcode (hbits : c.word.toNat / 16 = 0) (hop : c.word.toNat % 16 = 0 ∨ 8 ≤ c.word.toNat % 16) :
    decode c = .error (.reservedOpcode (opField c.word)) := by
  rw [← opField_toNat] at hop
  rw [decode, if_neg (not_not.2 ((reservedField_eq_zero_iff c.word).2 hbits))]
  split
  case h_8 => rfl
  all_goals omega

/-- The words of the opcode map are all the words that are not illegal (R141, R142). -/
theorem exists_portCarries_of_legal (h : ¬ illegalWord c.word) : ∃ i, portCarries c i := by
  have hw : c.word.toNat = 1 ∨ c.word.toNat = 2 ∨ c.word.toNat = 3 ∨ c.word.toNat = 4 ∨ c.word.toNat = 5 ∨
      c.word.toNat = 6 ∨ c.word.toNat = 7 := by
    unfold illegalWord at h
    omega
  obtain hw | hw | hw | hw | hw | hw | hw := hw
  · exact ⟨.setup c.init, hw, rfl⟩
  · exact ⟨.start, hw⟩
  · exact ⟨.stop, hw⟩
  · exact ⟨.restart, hw⟩
  · exact ⟨.rfsGenerate, hw⟩
  · exact ⟨.updateTables c.update, hw, rfl⟩
  · exact ⟨.getLutChecksum, hw⟩

/-! ### What each answer of the decoder says of the word -/

theorem decode_error_iff : (∃ e, decode c = .error e) ↔ illegalWord c.word := by
  constructor
  · rintro ⟨e, he⟩
    by_contra hlegal
    obtain ⟨i, hi⟩ := exists_portCarries_of_legal hlegal
    rw [decode_of_portCarries hi] at he
    cases he
  · intro h
    by_cases hbits : c.word.toNat / 16 = 0
    · exact ⟨_, decode_of_reservedOpcode hbits (h.resolve_left (not_not.2 hbits))⟩
    · exact ⟨_, decode_of_reservedBits hbits⟩

theorem decode_ok_iff {i : Instr} : decode c = .ok i ↔ portCarries c i := by
  refine ⟨fun hi => ?_, decode_of_portCarries⟩
  have hlegal : ¬ illegalWord c.word := by
    rw [← decode_error_iff, hi]
    rintro ⟨e, he⟩
    cases he
  obtain ⟨j, hj⟩ := exists_portCarries_of_legal hlegal
  rw [decode_of_portCarries hj] at hi
  cases hi
  exact hj

/-- Bits 31:4 are looked at first: they are named exactly when they are not all 0 (R142). -/
theorem decode_reservedBits_iff {b : BitVec 28} :
    decode c = .error (.reservedBits b) ↔ c.word.toNat / 16 ≠ 0 ∧ b = reservedField c.word := by
  constructor
  · intro h
    by_cases hbits : c.word.toNat / 16 = 0
    · have hop := (decode_error_iff.1 ⟨_, h⟩).resolve_left (not_not.2 hbits)
      rw [decode_of_reservedOpcode hbits hop] at h
      cases h
    · rw [decode_of_reservedBits hbits] at h
      cases h
      exact ⟨hbits, rfl⟩
  · rintro ⟨hbits, rfl⟩
    exact decode_of_reservedBits hbits

end

theorem portCarries_encode (i : Instr) : portCarries (encode i) i := by
  cases i with
  | setup p => exact ⟨rfl, rfl⟩
  | updateTables u => exact ⟨rfl, rfl⟩
  | start | stop | restart | rfsGenerate | getLutChecksum => rfl

/-- Settles O2: the decoder reads exactly what the port carries, and the encoder's port carries its command. -/
theorem decodeReadsExactlyWhatThePortCarries : Obligations.DecodeReadsExactlyWhatThePortCarries :=
  ⟨fun _ _ => decode_ok_iff, fun i => decode_of_portCarries (portCarries_encode i)⟩

/-- Settles O3: the decoder rejects exactly the illegal words, and names bits 31:4 exactly when they are not all 0. -/
theorem otherWordsAreRejectedByName : Obligations.OtherWordsAreRejectedByName := by
  intro c
  refine ⟨decode_error_iff.symm, ⟨fun h => ⟨_, decode_of_reservedBits h⟩, ?_⟩, fun b hb => ?_⟩
  · rintro ⟨b, hb⟩
    exact (decode_reservedBits_iff.1 hb).1
  · rw [(decode_reservedBits_iff.1 hb).2, reservedField_toNat]

/-- Settles O1: the port carries each of the seven commands with its word written out. -/
theorem sevenWordsDecodeAsTheMapSays : Obligations.SevenWordsDecodeAsTheMapSays := by
  intro p u
  exact ⟨decode_of_portCarries ⟨rfl, rfl⟩, decode_of_portCarries rfl, decode_of_portCarries rfl,
    decode_of_portCarries rfl, decode_of_portCarries rfl, decode_of_portCarries ⟨rfl, rfl⟩, decode_of_portCarries rfl⟩

end Sys2Proof
end

section
/-! O51: the action mask, bit by bit. An action that resolves contributes its output's bits; ResolveActions ORs the
contributions (R255–R262). -/

namespace Sys2Proof.Machine

open Sys2Proof.Claims

theorem isSPT_iff {e : Nat} : isSPT e = true ↔ e ≤ 3 := decide_eq_true_iff

theorem isFLEX_iff {e : Nat} : isFLEX e = true ↔ 14 ≤ e := decide_eq_true_iff

/-! ### What one action contributes -/

/-- The one bit an SPT or FLEX action sets, unless its state is 0 (R257, R261). -/
theorem stateBit_iff (v : U32) {k b : Nat} (hb : b < 64) :
    (if v = 0 then 0 else 1#64 <<< k : U64).getLsbD b = true ↔ v ≠ 0 ∧ b = k := by
  split
  · next hv => simp [hv]
  · next hv =>
    rw [← BitVec.twoPow_eq, BitVec.getLsbD_twoPow]
    simp only [Bool.and_eq_true, decide_eq_true_eq, ne_eq, hv, not_false_eq_true, true_and]
    omega

/-- A state code has two bits (R114–R117). -/
theorem getLsbD_of_isStateCode {v : U32} (hv : isStateCode v = true) {i : Nat} (hi : 2 ≤ i) : v.getLsbD i = false :=
  Nat.testBit_lt_two_pow <| calc
    v.toNat ≤ 3 := of_decide_eq_true hv
    _ < 2 ^ 2 := by decide
    _ ≤ 2 ^ i := Nat.pow_le_pow_right (by decide) hi

/-- The 2-bit field a CTEP, RCS or RFS action fills with its state (R260, R262). -/
theorem stateField_iff {v : U32} (hv : isStateCode v = true) (pos : Nat) {b : Nat} (hb : b < 64) :
    (v.setWidth 64 <<< pos).getLsbD b = true ↔
      (b = pos ∧ v.getLsbD 0 = true) ∨ (b = pos + 1 ∧ v.getLsbD 1 = true) := by
  rw [BitVec.getLsbD_shiftLeft, BitVec.getLsbD_setWidth]
  obtain hlow | rfl | rfl | hhigh : b < pos ∨ b = pos ∨ b = pos + 1 ∨ pos + 2 ≤ b := by omega
  · simp [hlow, show b ≠ pos by omega, show b ≠ pos + 1 by omega]
  · simp [hb]
  · simp [hb]
  · rw [getLsbD_of_isStateCode hv (by omega)]
    simp [show b ≠ pos by omega, show b ≠ pos + 1 by omega]

theorem flexMask_ok {par : Params} {a : Action} {m : U64} (h : flexMask par a = .ok m) :
    m = if a.newState = 0 then 0 else 1#64 <<< flexBit par a.outputSignal.toNat := by
  unfold flexMask at h
  split at h
  · cases h; rfl
  · cases h

theorem definedMask_ok {sd : List SigDef} {a : Action} {m : U64} (h : definedMask sd a = .ok m) :
    isStateCode a.newState = true ∧ m = codeMask a.outputSignal.toNat a.newState := by
  unfold definedMask at h
  split at h
  · cases h
  · split at h
    · next hv => cases h; exact ⟨hv, rfl⟩
    · cases h

/-- The bits of an action that resolves (R119, R255). -/
theorem actionMask_bit {par : Params} {sd : List SigDef} {a : Action} {m : U64} (ha : a.outputSignal.toNat < 16)
    (h : actionMask par sd a = .ok m) {b : Nat} (hb : b < 64) : m.getLsbD b = true ↔ setsMaskBit par a b := by
  unfold actionMask at h
  unfold setsMaskBit
  dsimp only
  obtain hspt | hfield | hflex : a.outputSignal.toNat ≤ 3 ∨
      (4 ≤ a.outputSignal.toNat ∧ a.outputSignal.toNat ≤ 13) ∨ 14 ≤ a.outputSignal.toNat := by omega
  · rw [if_neg (isFLEX_iff.not.2 (by omega))] at h
    obtain ⟨-, rfl⟩ := definedMask_ok h
    rw [if_pos hspt, codeMask, if_pos (isSPT_iff.2 hspt), stateBit_iff _ hb]
  · obtain ⟨h4, h13⟩ := hfield
    rw [if_neg (isFLEX_iff.not.2 (by omega))] at h
    obtain ⟨hv, rfl⟩ := definedMask_ok h
    rw [if_neg (by omega), if_pos h13, codeMask, if_neg (isSPT_iff.not.2 (by omega)), rel, stateField_iff hv _ hb]
  · rw [if_pos (isFLEX_iff.2 hflex)] at h
    rw [flexMask_ok h, stateBit_iff _ hb, if_neg (by omega), if_neg (by omega), flexBit]
    obtain he | he : a.outputSignal.toNat = 14 ∨ a.outputSignal.toNat = 15 := by omega
    · simp [he]
    · simp [he]

/-! ### The action loop -/

/-- The mask of the loop of R255 is what it started from, with the bits of the actions. -/
theorem resolveFrom_bit {par : Params} {sd : List SigDef} {b : Nat} (hb : b < 64) {m : U64} (A : List Action) :
    ∀ mask : U64, (∀ a ∈ A, a.outputSignal.toNat < 16) → resolveFrom par sd mask A = .ok m →
      (m.getLsbD b = true ↔ mask.getLsbD b = true ∨ ∃ a ∈ A, setsMaskBit par a b) := by
  induction A with
  | nil =>
    intro mask _ h
    cases h
    simp
  | cons a as ih =>
    intro mask hA h
    obtain ⟨ha, has⟩ := List.forall_mem_cons.1 hA
    unfold resolveFrom at h
    split at h
    · cases h
    · next k hk =>
      rw [ih _ has h, BitVec.getLsbD_or, Bool.or_eq_true, actionMask_bit ha hk hb, List.exists_mem_cons_iff, or_assoc]

/-- Settles O51: the loop starts from a mask with no bit set. -/
theorem actionMaskBitsComeFromTheActions : Obligations.ActionMaskBitsComeFromTheActions := by
  intro par sd A m hA h b hb
  simpa using resolveFrom_bit hb A 0 hA h

end Sys2Proof.Machine
end

section
/-! O54: the signal-type registers, bit by bit. ProgramOutputTypes leaves them as the definitions say (R301–R307), and no
step of SETUP or of UPDATE_TABLES after it writes them. -/

namespace Sys2Proof.Machine

open Sys2Proof.Claims

/-! ### The bits and definitions the rules give are the ones the programmer leaves -/

theorem writesTypeBit_eq (par : Params) (b : Nat) (d : SigDef) : writesTypeBit par b d = writesBitA par b d := by
  refine decide_eq_decide.2 (or_congr_right ?_)
  omega

theorem sigTypeBitA_eq (par : Params) (defs : List SigDef) (b : Nat) : sigTypeBitA par defs b = typeBitA par defs b := by
  unfold sigTypeBitA typeBitA
  rw [funext (writesTypeBit_eq par b)]
  cases (defs.filter (writesBitA par b)).getLast? with
  | none => rfl
  | some d => rfl

/-- Table 0 spans both pages when it is alone and longer than 32 events (R271), and goes to both table slots then. -/
theorem slotDefinitions_eq (sd0 : List SigDef) (sd1 : Option (List SigDef)) {t0 : CheckedTable} {t1 : Option CheckedTable}
    (h : t1.isSome = sd1.isSome) :
    slotDefinitions sd0 sd1 t0.length = definitionsOf sd0 sd1 (spansBoth t0 t1) := by
  funext q
  unfold slotDefinitions definitionsOf secondDefs spansBoth
  cases sd1 with
  | some L => simp [Option.isNone_eq_false_iff.2 h]
  | none =>
    obtain rfl : t1 = none := Option.isNone_iff_eq_none.1 (Option.isSome_eq_false_iff.1 h)
    by_cases hlong : 32 < t0.length
    · simp [hlong]
    · simp [hlong]

/-! ### Where the types are written, and where they are kept -/

section

variable {par : Params} {defs : Fin 2 → List SigDef}

theorem programOutputTypes_holdsTypes (sd0 : List SigDef) (sd1 : Option (List SigDef)) (spans : Bool) (s : State) :
    HoldsTypes s.params (definitionsOf sd0 sd1 spans) (programOutputTypes sd0 sd1 spans s).regs := by
  intro q b hb
  rw [sigTypeBitA_eq]
  exact programOutputTypes_bits sd0 sd1 spans s q hb

/-- Only the signal-type registers matter. -/
theorem holdsTypes_congr {r r' : RegImage} (h : HoldsTypes par defs r) (hA : r'.sigTypeA = r.sigTypeA)
    (hB : r'.sigTypeB = r.sigTypeB) : HoldsTypes par defs r' := by
  unfold HoldsTypes
  rw [hA, hB]
  exact h

theorem Writes.holdsTypes {F : RegField → Prop} {s t : State} (hw : Writes F s t) (hF : ∀ f, F f → ¬ isSigTypeField f)
    (h : HoldsTypes par defs s.regs) : HoldsTypes par defs t.regs :=
  holdsTypes_congr h (hw.sigTypeA fun _ hf => hF _ hf trivial) (hw.sigTypeB fun _ hf => hF _ hf trivial)

end

theorem setupProgram_holdsTypes (v : Plan) (p : InitParams) (s : State) :
    HoldsTypes s.params (slotDefinitions v.sigDef0 v.sigDef1 v.table0.length) (setupProgram v p s).regs := by
  have hsome : v.table1.isSome = v.sigDef1.isSome := by simp [Plan.table1, Plan.sigDef1]
  obtain ⟨hA, hB⟩ := setupProgram_types v p s
  rw [slotDefinitions_eq _ _ hsome]
  exact holdsTypes_congr (programOutputTypes_holdsTypes _ _ _ s) hA hB

theorem updateProgram_holdsTypes {t0 : CheckedTable} {t1 : Option CheckedTable} {s : State} {L0 : List SigDef}
    (hL0 : s.drv.signalDef0 = some L0) (hsome : t1.isSome = s.drv.signalDef1.isSome) :
    HoldsTypes s.params (slotDefinitions L0 s.drv.signalDef1 t0.length) (updateProgram t0 t1 s).regs := by
  obtain ⟨_, -, rfl, hregs⟩ := updateProgram_regs t0 t1 s
  rw [slotDefinitions_eq _ _ hsome, hregs, hL0]
  exact holdsTypes_congr (programOutputTypes_holdsTypes _ _ _ s) rfl rfl

/-! Past its programming steps SETUP writes the clock dividers, the clock select and the interrupt enable (R345, R346). -/

theorem isClkDivField_not_sigType (f : RegField) (h : isClkDivField f) : ¬ isSigTypeField f := by
  cases f with
  | clkDiv => exact id
  | _ => exact h.elim

theorem isClkSelField_not_sigType (f : RegField) (h : isClkSelField f) : ¬ isSigTypeField f := by
  cases f with
  | clkSel => exact id
  | _ => exact h.elim

theorem setupSelected_holdsTypes {par : Params} {defs : Fin 2 → List SigDef} {w : State} (h : HoldsTypes par defs w.regs)
    (v : Plan) (cs : List Cluster) : HoldsTypes par defs (setupSelected v cs w).regs := by
  have hkeep : (keepClusters cs w).regs = w.regs := by
    unfold keepClusters
    split <;> rfl
  rw [← hkeep] at h
  exact (programClockSelect_writes _ _ _ _).holdsTypes isClkSelField_not_sigType h

theorem setupEnd_holdsTypes {par : Params} {defs : Fin 2 → List SigDef} {s : State} (h : HoldsTypes par defs s.regs)
    (p : InitParams) (v : Plan) : HoldsTypes par defs (setupEnd p v s).regs := holdsTypes_congr h rfl rfl

/-- Settles O54: the programming steps leave the types, and what runs after them keeps the registers. -/
theorem signalTypeRegistersHoldTheLastTypes : Obligations.SignalTypeRegistersHoldTheLastTypes := by
  refine ⟨fun p s v cs h => ?_, fun u s t0 t1 L0 L1 h => ?_⟩
  · obtain ⟨x, w, hr⟩ := setup_runs h.wellFormed h.valid h.base h.resolves.1 h.resolves.2 h.clocks h.dividers
    have hpar : x.snapshotChecksum.params = s.params := hr.tables.params
    have hprog := setupProgram_holdsTypes v p x.snapshotChecksum
    rw [hpar] at hprog
    have hsel := setupSelected_holdsTypes (hr.dividers.holdsTypes isClkDivField_not_sigType hprog) v cs
    refine ⟨_, hr.ends h.irq, setupEnd_holdsTypes ?_ p v⟩
    split <;> exact hsel
  · obtain ⟨w, hw, -, -, hrun⟩ := update_runs h.wellFormed h.setUp h.presence h.valid h.snapshot0 h.snapshot1
      h.resolves0 h.resolves1
    obtain ⟨hsome, -⟩ := validateTables_fits h.wellFormed h.valid
    have hpar : w.snapshotChecksum.params = s.params := hw.params.trans (updatePrepare_params _ _)
    have hdrv : w.snapshotChecksum.drv = (updatePrepare (t0 :: t1.toList) s.beginCommand).drv := hw.drv
    rw [updatePrepare_drv] at hdrv
    have hL1 : w.snapshotChecksum.drv.signalDef1 = s.drv.signalDef1 := by rw [hdrv]; rfl
    have hprog := updateProgram_holdsTypes (t0 := t0) (t1 := t1) (s := w.snapshotChecksum)
      (by rw [hdrv]; exact h.snapshot0) (by rw [hL1, ← hsome, h.presence])
    rw [hpar, hL1] at hprog
    exact ⟨_, hrun, hprog⟩

end Sys2Proof.Machine
end

section
/-! O32, O34, O35, O36 and O37: the validator. A check is followed by the rest, so it reports its own fault or the rest's;
the validators' faults are then read off their checks, in their order (R160). -/

namespace Sys2Proof.Machine

open Sys2Proof.Claims

/-! ### Checks in sequence (R160) -/

section
variable {α β : Type} {c : Status}

theorem failIf_bind (b : Bool) (k : Unit → Except Status β) : (failIf b c >>= k) = if b then .error c else k () := by
  cases b <;> rfl

theorem faultOf_eq_some {x : Except Status α} : faultOf x = some c ↔ x = .error c := by
  cases x <;> simp [faultOf]

theorem faultOf_failIf {b : Bool} {P : Prop} [Decidable P] (h : b = true ↔ P) : faultOf (failIf b c) = raisedWhen P c := by
  by_cases hP : P
  · rw [h.2 hP, raisedWhen, if_pos hP]; rfl
  · rw [Bool.eq_false_iff.2 (mt h.1 hP), raisedWhen, if_neg hP]; rfl

theorem faultOf_orRaise (o : Option α) [Decidable (o = none)] : faultOf (orRaise c o) = raisedWhen (o = none) c := by
  cases o <;> simp [orRaise, faultOf, raisedWhen]

/-- A sequence reports the first fault of its checks, if its first part reports that of the first ones and what follows
reports that of the others. -/
theorem faultOf_bind_append {x : Except Status α} {k : α → Except Status β} {checks rest : List (Option Status)}
    (hx : faultOf x = firstFault checks) (hk : ∀ a, x = .ok a → faultOf (k a) = firstFault rest) :
    faultOf (x >>= k) = firstFault (checks ++ rest) := by
  rw [firstFault, List.findSome?_append, ← firstFault, ← hx]
  cases x with
  | error d => rfl
  | ok a => exact hk a rfl

theorem faultOf_bind_cons {x : Except Status α} {k : α → Except Status β} {fault : Option Status}
    {rest : List (Option Status)} (hx : faultOf x = fault) (hk : ∀ a, x = .ok a → faultOf (k a) = firstFault rest) :
    faultOf (x >>= k) = firstFault (fault :: rest) :=
  faultOf_bind_append (checks := [fault]) (by rw [hx]; cases fault <;> rfl) hk

theorem faultOf_bind_pure {x : Except Status α} (f : α → β) : faultOf (x >>= fun a => pure (f a)) = faultOf x := by
  cases x <;> rfl

/-- The fault a check has found, or what comes after the check. -/
def raiseOr (fault : Option Status) (rest : Except Status α) : Except Status α :=
  match fault with
  | some c => .error c
  | none => rest

@[simp] theorem raiseOr_some (c : Status) (rest : Except Status α) : raiseOr (some c) rest = .error c := rfl
@[simp] theorem raiseOr_none (rest : Except Status α) : raiseOr none rest = rest := rfl
@[simp] theorem raiseOr_ite (P : Prop) [Decidable P] (c : Status) (fault : Option Status) (rest : Except Status α) :
    raiseOr (if P then some c else fault) rest = if P then .error c else raiseOr fault rest := by
  split_ifs <;> rfl

end

/-! ### CheckMode (R162, R163) -/

/-- Settles O34: the two selectors are compared in SLAVE_CSI2 only, and a mode above 2 is not SLAVE_CSI2. -/
theorem modeCheckReportsTheFirstFault : Obligations.ModeCheckReportsTheFirstFault := by
  intro par p
  unfold checkMode
  rw [failIf_bind]
  by_cases hmode : p.workingMode.toNat = 2
  · rw [if_pos hmode, failIf_bind]
    simp [isWorkingMode, hmode, failIf]
  · simp [isWorkingMode, hmode]

/-! ### The CSI2 selectors (R163, R340) -/

section
variable {p : InitParams} (hmode : p.workingMode.toNat ≠ 2) (a b : U32)
include hmode

theorem checkMode_csi2_unread (par : Params) : checkMode par { p with csi2Unit := a, csi2Vc := b } = checkMode par p := by
  unfold checkMode
  refine bind_congr fun _ => ?_
  rw [if_neg hmode, if_neg hmode]

theorem validate_csi2_unread (par : Params) : validate par { p with csi2Unit := a, csi2Vc := b } = validate par p := by
  unfold validate
  rw [checkMode_csi2_unread hmode]

theorem programMode_csi2_unread (s : State) : programMode { p with csi2Unit := a, csi2Vc := b } s = programMode p s := by
  unfold programMode
  dsimp only
  rw [if_neg hmode, if_neg hmode]

theorem setupRun_csi2_unread (v : Plan) (s : State) :
    setupRun v { p with csi2Unit := a, csi2Vc := b } s = setupRun v p s := by
  have hprogram (t : State) : setupProgram v { p with csi2Unit := a, csi2Vc := b } t = setupProgram v p t := by
    simp only [setupProgram, programMode_csi2_unread hmode]
  unfold setupRun
  simp only [hprogram]
  rfl

end

/-- Settles O32: SETUP reads the selectors in CheckMode and ProgramMode, and there in SLAVE_CSI2 only. -/
theorem csi2SelectorsAreUnreadOutsideSlaveCsi2 : Obligations.Csi2SelectorsAreUnreadOutsideSlaveCsi2 := by
  intro p s a b hmode
  have hbody : setupBody { p with csi2Unit := a, csi2Vc := b } = setupBody p := by
    funext t
    simp only [setupBody, validate_csi2_unread hmode, setupRun_csi2_unread hmode]
  simp only [exec, execSetup, hbody]
  rfl

/-! ### CheckTableContent (R166) -/

/-- What CheckTableContent reads of an event. -/
def readEvent (e : Event) : CheckedEvent := { absTime := e.absTime, actions := e.actions.getD [] }

/-- One event of the loop: its own fault, or the loop over the rest. -/
theorem checkEvents_cons (e : Event) (es : List Event) :
    checkEvents (e :: es) = raiseOr (eventFault e) (checkEvents es >>= fun rest => .ok (readEvent e :: rest)) := by
  rw [checkEvents, eventFault, readEvent]
  cases e.actions with
  | none => rfl
  | some as =>
    change (failIf _ _ >>= _) = _
    rw [failIf_bind]
    by_cases hlong : 16 < as.length
    · simp [hlong]
    · simp only [hlong, Config.maxActions, decide_false, Bool.false_eq_true, if_false]
      rfl

/-- The event loop: the fault of the first event that has one, or all the events. -/
theorem checkEvents_eq (E : List Event) :
    checkEvents E = raiseOr (E.findSome? eventFault) (.ok (E.map readEvent)) := by
  induction E with
  | nil => rfl
  | cons e es ih =>
    rw [checkEvents_cons, List.findSome?_cons, ih]
    cases eventFault e with
    | some c => rfl
    | none => cases es.findSome? eventFault <;> rfl

/-- Settles O35: the two bounds of the length, the events pointer, then the event loop. -/
theorem tableContentCheckReportsTheFirstFault : Obligations.TableContentCheckReportsTheFirstFault := by
  intro T
  unfold checkTable
  rw [failIf_bind, failIf_bind]
  simp only [decide_eq_true_eq, gt_iff_lt]
  refine if_congr Iff.rfl rfl (if_congr Iff.rfl rfl ?_)
  cases T.events with
  | none => rfl
  | some E =>
    change (checkEvents (E.take T.length.toNat) >>= _) = _
    rw [checkEvents_eq]
    dsimp only
    cases (E.take T.length.toNat).findSome? eventFault <;> rfl

/-! ### CheckSigDef (R172, R173) -/

/-- What an entry must satisfy whatever the entries before it: its type is a type, and one of its output's. -/
def SigDefOk (d : SigDef) : Prop :=
  d.signalType.toNat ≤ 3 ∧ (d.outputSignal.toNat ≤ 3 → d.signalType = 1 ∨ d.signalType = 3) ∧
    (14 ≤ d.outputSignal.toNat → d.signalType = 3)

/-- Two entries, if both are SPT, have one type. -/
def SptTypesAgree (d e : SigDef) : Prop :=
  d.outputSignal.toNat ≤ 3 → e.outputSignal.toNat ≤ 3 → d.signalType = e.signalType

theorem sigDefFault_eq_none_iff {done : List SigDef} {d : SigDef} :
    sigDefFault done d = none ↔ SigDefOk d ∧ ∀ x ∈ done, SptTypesAgree x d := by
  unfold sigDefFault SigDefOk SptTypesAgree
  split_ifs with htype hspt hdiffer hflex
  · simp [htype]
  · simp only [false_iff]
    tauto
  · obtain ⟨hd, x, hx, hx3, hne⟩ := hdiffer
    simp only [false_iff]
    exact fun ⟨_, hagree⟩ => hne (hagree x hx hx3 hd)
  · simp only [false_iff]
    tauto
  · refine iff_of_true rfl ⟨⟨not_lt.1 htype, by tauto, by tauto⟩, fun x hx hx3 hd => ?_⟩
    by_contra hne
    exact hdiffer ⟨hd, x, hx, hx3, hne⟩

/-- The loop's type expectation is the type of the SPT entries done, if any. -/
def Expects (done : List SigDef) (lock : Option U32) : Prop :=
  ∀ ty, lock = some ty ↔ ∃ x ∈ done, x.outputSignal.toNat ≤ 3 ∧ x.signalType = ty

/-- The type expectation after one more entry. -/
def lockAfter (lock : Option U32) (d : SigDef) : Option U32 :=
  if d.outputSignal.toNat ≤ 3 then some d.signalType else lock

theorem expects_nil : Expects [] none := by simp [Expects]

section
variable {done : List SigDef} {lock : Option U32} {d : SigDef}

theorem Expects.append (h : Expects done lock) (hd : sigDefFault done d = none) :
    Expects (done ++ [d]) (lockAfter lock d) := by
  obtain ⟨-, hagree⟩ := sigDefFault_eq_none_iff.1 hd
  intro ty
  unfold lockAfter
  split_ifs with hspt
  · constructor
    · rintro ⟨⟩
      exact ⟨d, by simp, hspt, rfl⟩
    · rintro ⟨x, hx, hx3, rfl⟩
      obtain hx | hx := List.mem_append.1 hx
      · rw [hagree x hx hx3 hspt]
      · rw [List.mem_singleton.1 hx]
  · simp [h ty, or_and_right, exists_or, hspt]

/-- An SPT entry done has another type than `c` exactly when another type is expected. -/
theorem Expects.differs_iff (h : Expects done lock) (c : U32) :
    (∃ x ∈ done, x.outputSignal.toNat ≤ 3 ∧ x.signalType ≠ c) ↔ ∃ ty, lock = some ty ∧ ty ≠ c := by
  constructor
  · rintro ⟨x, hx, hspt, hne⟩
    exact ⟨x.signalType, (h _).2 ⟨x, hx, hspt, rfl⟩, hne⟩
  · rintro ⟨ty, hlock, hne⟩
    obtain ⟨x, hx, hspt, rfl⟩ := (h ty).1 hlock
    exact ⟨x, hx, hspt, hne⟩

/-- One entry of the loop: its own fault, or the loop over the rest. -/
theorem checkSigDefsFrom_cons (h : Expects done lock) (ds : List SigDef) :
    checkSigDefsFrom lock (d :: ds) = raiseOr (sigDefFault done d) (checkSigDefsFrom (lockAfter lock d) ds) := by
  simp only [sigDefFault, lockAfter, h.differs_iff, raiseOr_ite, raiseOr_none]
  by_cases htype : 3 < d.signalType.toNat
  · cases lock <;> simp [checkSigDefsFrom, isSignalType, failIf_bind, htype]
  by_cases hspt : d.outputSignal.toNat ≤ 3
  · have hflex : ¬ 14 ≤ d.outputSignal.toNat := by omega
    cases lock with
    | none => simp [checkSigDefsFrom, isSignalType, failIf_bind, isSPT, htype, hspt, hflex]
    | some ty =>
      by_cases hty : ty = d.signalType
      · simp [checkSigDefsFrom, isSignalType, failIf_bind, isSPT, htype, hspt, hflex, hty]
      · simp [checkSigDefsFrom, isSignalType, failIf_bind, isSPT, htype, hspt, hty, Ne.symm hty]
  · by_cases hflex : 14 ≤ d.outputSignal.toNat <;> cases lock <;>
      simp [checkSigDefsFrom, isSignalType, failIf_bind, isSPT, isFLEX, htype, hspt, hflex]

end

/-- Among `L`, after the entries `done`, the first entry with a fault has the fault `c`. -/
def FirstFaultOf (done L : List SigDef) (c : Status) : Prop :=
  ∃ (pre : List SigDef) (d : SigDef) (rest : List SigDef), L = pre ++ d :: rest ∧ sigDefFault (done ++ pre) d = some c ∧
    ∀ (pre' : List SigDef) (x : SigDef) (post : List SigDef), pre = pre' ++ x :: post → sigDefFault (done ++ pre') x = none

theorem not_firstFaultOf_nil (done : List SigDef) (c : Status) : ¬ FirstFaultOf done [] c := by
  rintro ⟨pre, d, rest, hL, -⟩
  simp at hL

theorem firstFaultOf_cons {done : List SigDef} {d : SigDef} {ds : List SigDef} {c : Status} :
    FirstFaultOf done (d :: ds) c ↔
      sigDefFault done d = some c ∨ (sigDefFault done d = none ∧ FirstFaultOf (done ++ [d]) ds c) := by
  constructor
  · rintro ⟨_ | ⟨y, pre⟩, e, rest, hL, hfault, hpre⟩
    · cases hL
      exact .inl (by simpa using hfault)
    · cases hL
      refine .inr ⟨by simpa using hpre [] d pre rfl, pre, e, rest, rfl, by simpa using hfault, ?_⟩
      rintro pre' x post rfl
      simpa using hpre (d :: pre') x post rfl
  · rintro (hfault | ⟨hnone, pre, e, rest, rfl, hfault, hpre⟩)
    · exact ⟨[], d, ds, rfl, by simpa using hfault, by simp⟩
    · refine ⟨d :: pre, e, rest, rfl, by simpa using hfault, ?_⟩
      rintro (_ | ⟨y, pre'⟩) x post hpost
      · cases hpost
        simpa using hnone
      · cases hpost
        simpa using hpre pre' x post rfl

/-- The loop reports the fault of the first entry that has one. -/
theorem checkSigDefsFrom_error_iff {c : Status} {L : List SigDef} {done : List SigDef} {lock : Option U32}
    (h : Expects done lock) : checkSigDefsFrom lock L = .error c ↔ FirstFaultOf done L c := by
  induction L generalizing done lock with
  | nil => exact iff_of_false (by simp [checkSigDefsFrom]) (not_firstFaultOf_nil done c)
  | cons d ds ih =>
    rw [checkSigDefsFrom_cons h, firstFaultOf_cons]
    cases hd : sigDefFault done d with
    | some e => simp
    | none => simp [ih (h.append hd)]

/-- The loop accepts the entries that are acceptable each by itself, with the SPT entries all of one type. -/
theorem checkSigDefsFrom_ok_iff {L : List SigDef} {done : List SigDef} {lock : Option U32} (h : Expects done lock) :
    checkSigDefsFrom lock L = .ok () ↔
      (∀ d ∈ L, SigDefOk d) ∧ (∀ d ∈ L, ∀ x ∈ done, SptTypesAgree x d) ∧ L.Pairwise SptTypesAgree := by
  induction L generalizing done lock with
  | nil => simp [checkSigDefsFrom]
  | cons d ds ih =>
    rw [checkSigDefsFrom_cons h]
    cases hd : sigDefFault done d with
    | some c =>
      refine iff_of_false nofun fun ⟨hok, hagree, _⟩ => ?_
      have hnone := sigDefFault_eq_none_iff.2 ⟨hok d List.mem_cons_self, hagree d List.mem_cons_self⟩
      rw [hd] at hnone
      cases hnone
    | none =>
      obtain ⟨hok, hagree⟩ := sigDefFault_eq_none_iff.1 hd
      rw [raiseOr_none, ih (h.append hd)]
      simp only [List.forall_mem_append, List.forall_mem_cons, List.not_mem_nil, false_imp_iff, implies_true,
        List.pairwise_cons, forall_and]
      tauto

theorem pairwise_sptTypesAgree_iff {L : List SigDef} :
    L.Pairwise SptTypesAgree ↔ ∀ d ∈ L, ∀ e ∈ L, SptTypesAgree d e := by
  have hsymm : Std.Symm SptTypesAgree := ⟨fun _ _ h he hd => (h hd he).symm⟩
  exact ⟨fun h _ hd _ he => h.forall_of_forall (fun _ _ _ _ => rfl) hd he, List.pairwise_of_forall_mem_list⟩

theorem checkSigDefs_eq (L : List SigDef) :
    checkSigDefs L = if 16 < L.length then .error .sigDefTooLong else checkSigDefsFrom none L := by
  simp [checkSigDefs, failIf_bind]

/-- Settles O36: the loop starts with no entry done and no type expected. -/
theorem signalDefinitionCheckReportsTheFirstFault : Obligations.SignalDefinitionCheckReportsTheFirstFault := by
  intro L
  rw [checkSigDefs_eq]
  by_cases hlong : 16 < L.length
  · simp [hlong, not_le.2 hlong, eq_comm]
  · simp only [if_neg hlong, checkSigDefsFrom_error_iff expects_nil]
    refine ⟨?_, fun c => Iff.rfl⟩
    rw [checkSigDefsFrom_ok_iff expects_nil, pairwise_sptTypesAgree_iff]
    simp only [SigDefOk, SptTypesAgree, not_lt.1 hlong, forall_and, true_and, List.not_mem_nil, false_imp_iff,
      implies_true]
    tauto

/-! ### Validate and ValidateTables (R161, R176) -/

theorem tooLongDouble_iff {T0 T1 : TimeTable} {o0 : Option TimeTable} (h : o0 = some T0) :
    tooLongDouble T0 T1 = true ↔ 32 < T1.length.toNat ∨ ∃ T ∈ o0, 32 < T.length.toNat := by
  simp [tooLongDouble, h, or_comm]

theorem tooLongDouble_eq_false_iff {T0 T1 : TimeTable} :
    tooLongDouble T0 T1 = false ↔ T0.length.toNat ≤ 32 ∧ T1.length.toNat ≤ 32 := by
  simp [tooLongDouble]

theorem noCallback_iff (p : InitParams) :
    (decide (p.irqEvents ≠ 0) && p.callback.isNone) = true ↔ p.irqEvents ≠ 0 ∧ p.callback = none := by
  simp

/-! What each part accepts. -/

theorem checkSecond_ok_iff {T0 : TimeTable} {o1 : Option TimeTable} {sd1 : Option (List SigDef)}
    {r : Option (CheckedTable × List SigDef)} :
    checkSecond T0 o1 sd1 = .ok r ↔
      (o1 = none ∧ sd1 = none ∧ r = none) ∨
        ∃ T1 L1 t1, o1 = some T1 ∧ sd1 = some L1 ∧ T0.length.toNat ≤ 32 ∧ T1.length.toNat ≤ 32 ∧
          checkSigDefs L1 = .ok () ∧ checkTable T1 = .ok t1 ∧ r = some (t1, L1) := by
  constructor
  · intro h
    obtain h | ⟨T1, L1, t1, hT1, hL1, hr, hlen0, hlen1, hdefs, htable⟩ := checkSecond_ok h
    · exact .inl h
    · exact .inr ⟨T1, L1, t1, hT1, hL1, hlen0, hlen1, hdefs, htable, hr⟩
  · rintro (⟨rfl, rfl, rfl⟩ | ⟨T1, L1, t1, rfl, rfl, hlen0, hlen1, hdefs, htable, rfl⟩)
    · rfl
    · exact bind_ok.2 ⟨(), failIf_ok.2 (tooLongDouble_eq_false_iff.2 ⟨hlen0, hlen1⟩),
        bind_ok.2 ⟨L1, rfl, bind_ok.2 ⟨(), hdefs, bind_ok.2 ⟨t1, htable, rfl⟩⟩⟩⟩

theorem validate_ok_iff {par : Params} {p : InitParams} {v : Plan} : validate par p = .ok v ↔ Accepted par p v := by
  refine ⟨validate_ok, fun ⟨hmode, hfreq, ⟨T0, hT0, htable, hsecond⟩, hL0, hdefs, hcallback⟩ => ?_⟩
  have hcalled : (decide (p.irqEvents ≠ 0) && p.callback.isNone) = false :=
    Bool.eq_false_iff.2 fun h => hcallback ((noCallback_iff p).1 h).1 ((noCallback_iff p).1 h).2
  exact bind_ok.2 ⟨(), hmode, bind_ok.2 ⟨(), failIf_ok.2 (decide_eq_false hfreq), bind_ok.2 ⟨T0, orRaise_ok.2 hT0,
    bind_ok.2 ⟨_, htable, bind_ok.2 ⟨_, orRaise_ok.2 hL0, bind_ok.2 ⟨(), hdefs, bind_ok.2 ⟨_, hsecond,
      bind_ok.2 ⟨(), failIf_ok.2 hcalled, rfl⟩⟩⟩⟩⟩⟩⟩⟩

theorem validateTables_ok_iff {u : UpdateParams} {t0 : CheckedTable} {t1 : Option CheckedTable} :
    validateTables u = .ok (t0, t1) ↔
      ∃ T0, u.table0 = some T0 ∧ checkTable T0 = .ok t0 ∧
        ((u.table1 = none ∧ t1 = none) ∨
          ∃ T1 c1, u.table1 = some T1 ∧ T0.length.toNat ≤ 32 ∧ T1.length.toNat ≤ 32 ∧ checkTable T1 = .ok c1 ∧
            t1 = some c1) := by
  constructor
  · intro h
    obtain ⟨T0, hT0, htable0, hnone | ⟨T1, c1, hT1, ht1, htable1, hlen0, hlen1⟩⟩ := validateTables_ok h
    · exact ⟨T0, hT0, htable0, .inl hnone⟩
    · exact ⟨T0, hT0, htable0, .inr ⟨T1, c1, hT1, hlen0, hlen1, htable1, ht1⟩⟩
  · rintro ⟨T0, hT0, htable0, hsecond⟩
    have hcheck : checkSecondTable T0 u.table1 = .ok t1 := by
      obtain ⟨hT1, rfl⟩ | ⟨T1, c1, hT1, hlen0, hlen1, htable1, rfl⟩ := hsecond
      · rw [hT1]; rfl
      · rw [hT1]
        exact bind_ok.2 ⟨(), failIf_ok.2 (tooLongDouble_eq_false_iff.2 ⟨hlen0, hlen1⟩), bind_ok.2 ⟨c1, htable1, rfl⟩⟩
    exact bind_ok.2 ⟨T0, orRaise_ok.2 hT0, bind_ok.2 ⟨t0, htable0, bind_ok.2 ⟨t1, hcheck, rfl⟩⟩⟩

/-! The fault each part reports. -/

section
variable {T0 T1 : TimeTable} {o0 : Option TimeTable} (h0 : o0 = some T0)

theorem faultOf_checkSecond_none (sd1 : Option (List SigDef)) :
    faultOf (checkSecond T0 none sd1) = firstFault [raisedWhen (sd1 ≠ none) .wrgPtrSigDef1] :=
  faultOf_bind_cons (faultOf_failIf Option.isSome_iff_ne_none) fun _ _ => rfl

include h0

theorem faultOf_checkSecond_some (sd1 : Option (List SigDef)) :
    faultOf (checkSecond T0 (some T1) sd1) =
      firstFault
        [raisedWhen (32 < T1.length.toNat ∨ ∃ T ∈ o0, 32 < T.length.toNat) .tableTooLongDouble,
          raisedWhen (sd1 = none) .nullPtrSigDef1, sd1.bind fun L => faultOf (checkSigDefs L),
          faultOf (checkTable T1)] := by
  refine faultOf_bind_cons (faultOf_failIf (tooLongDouble_iff h0)) fun _ _ => ?_
  refine faultOf_bind_cons (faultOf_orRaise sd1) fun L1 hL1 => ?_
  refine faultOf_bind_cons (by rw [orRaise_ok.1 hL1]; rfl) fun _ _ => ?_
  exact faultOf_bind_cons rfl fun _ _ => rfl

theorem faultOf_checkSecondTable_some :
    faultOf (checkSecondTable T0 (some T1)) =
      firstFault
        [raisedWhen (32 < T1.length.toNat ∨ ∃ T ∈ o0, 32 < T.length.toNat) .tableTooLongDouble,
          faultOf (checkTable T1)] :=
  faultOf_bind_cons (faultOf_failIf (tooLongDouble_iff h0)) fun _ _ => faultOf_bind_cons rfl fun _ _ => rfl

end

/-- Validate makes its checks in the order of R161. -/
theorem faultOf_validate (par : Params) (p : InitParams) : faultOf (validate par p) = firstFault (validateChecks par p) := by
  simp only [validateChecks, List.cons_append, List.nil_append]
  refine faultOf_bind_cons rfl fun _ _ => ?_
  refine faultOf_bind_cons (faultOf_failIf decide_eq_true_iff) fun _ _ => ?_
  refine faultOf_bind_cons (faultOf_orRaise p.table0) fun T0 hT0 => ?_
  have hT0 := orRaise_ok.1 hT0
  refine faultOf_bind_cons (by rw [hT0]; rfl) fun _ _ => ?_
  refine faultOf_bind_cons (faultOf_orRaise p.sigDef0) fun L0 hL0 => ?_
  refine faultOf_bind_cons (by rw [orRaise_ok.1 hL0]; rfl) fun _ _ => ?_
  refine faultOf_bind_append ?_ fun _ _ => faultOf_bind_cons (faultOf_failIf (noCallback_iff p)) fun _ _ => rfl
  cases p.table1 with
  | none => exact faultOf_checkSecond_none p.sigDef1
  | some T1 => exact faultOf_checkSecond_some hT0 p.sigDef1

/-- ValidateTables makes its checks in the order of R176. -/
theorem faultOf_validateTables (u : UpdateParams) :
    faultOf (validateTables u) = firstFault (validateTablesChecks u) := by
  unfold validateTablesChecks
  refine faultOf_bind_cons (faultOf_orRaise u.table0) fun T0 hT0 => ?_
  have hT0 := orRaise_ok.1 hT0
  refine faultOf_bind_cons (by rw [hT0]; rfl) fun _ _ => ?_
  cases u.table1 with
  | none => rfl
  | some T1 => exact (faultOf_bind_pure _).trans (faultOf_checkSecondTable_some hT0)

/-- Settles O37: each validator reports the first fault of its checks, and accepts what passes them all. -/
theorem validatorReportsTheFirstFault : Obligations.ValidatorReportsTheFirstFault := by
  refine ⟨fun par p => ⟨fun c => ?_, fun v => ?_⟩, fun u => ⟨fun c => ?_, fun t0 t1 => validateTables_ok_iff⟩⟩
  · rw [← faultOf_validate, faultOf_eq_some]
  · simp only [validate_ok_iff, ← checkSecond_ok_iff]
    exact ⟨fun ⟨hmode, hfreq, htable0, hL0, hdefs0, hcallback⟩ => ⟨hmode, hfreq, htable0, ⟨hL0, hdefs0⟩, hcallback⟩,
      fun ⟨hmode, hfreq, htable0, ⟨hL0, hdefs0⟩, hcallback⟩ => ⟨hmode, hfreq, htable0, hL0, hdefs0, hcallback⟩⟩
  · rw [← faultOf_validateTables, faultOf_eq_some]

end Sys2Proof.Machine
end

section
/-! O38, O39 and O40: the main divider. MaxDelay is the maximum of a list of delays, SelectMainDivider the first hit of
a search, and consecutive event ticks differ by at most the ticks of their delay and one more (R201, R202, R264). -/

namespace Sys2Proof.Machine

open Sys2Proof.Claims

/-! ### The longest delay (R201) -/

/-- The delays of a table are the delays between its neighbouring times. -/
theorem delaysFrom_eq_zipWith (prev : Nat) (evs : List CheckedEvent) :
    delaysFrom prev evs =
      List.zipWith eventDelay (prev :: evs.map fun e => e.absTime.toNat) (evs.map fun e => e.absTime.toNat) := by
  induction evs generalizing prev with
  | nil => rfl
  | cons e es ih => exact congrArg _ (ih _)

theorem maxDelayFrom_eq_foldl (prev m : Nat) (evs : List CheckedEvent) :
    maxDelayFrom prev m evs = (delaysFrom prev evs).foldl max m := by
  induction evs generalizing prev m with
  | nil => rfl
  | cons e es ih => exact ih _ _

/-- MaxDelay is the maximum of all the delays, and of 0 for tables that have none. -/
theorem max?_delays (tables : List CheckedTable) :
    (0 :: tables.flatMap fun T => delaysFrom 0 T.events).max? = some (maxDelay tables) := by
  rw [List.max?_cons', List.foldl_flatMap]
  simp only [maxDelay, maxDelayFrom_eq_foldl]

/-- Settles O38: the maximum of a list bounds its members and is one of them. -/
theorem maxDelayIsTheLongestDelay : Obligations.MaxDelayIsTheLongestDelay := by
  intro tables
  obtain ⟨hmem, hle⟩ := List.max?_eq_some_iff.1 (max?_delays tables)
  refine ⟨fun T hT d hd => hle d (List.mem_cons_of_mem _ (List.mem_flatMap.2 ⟨T, hT, hd⟩)), ?_⟩
  exact (List.mem_cons.1 hmem).imp_right List.mem_flatMap.1

/-! ### The search for the divider (R202) -/

theorem dividerFits_iff {par : Params} {maxD f d : Nat} :
    dividerFits par (ticksAtOne maxD f) d = true ↔ maxD * f % 2 ^ 64 / 1000000000 / d < 2 ^ par.tickDeltaBits - 1 := by
  simp [dividerFits, ticksAtOne, mulDiv]

/-- Settles O39: the search runs upwards from 1, so that it passes over the dividers that do not fit only. -/
theorem mainDividerIsTheSmallestThatFits : Obligations.MainDividerIsTheSmallestThatFits := by
  intro par maxD f
  obtain ⟨hpos, hle⟩ := selectMainDivider_range par maxD f
  refine ⟨hpos, hle, ?_⟩
  simp only [← dividerFits_iff]
  unfold selectMainDivider
  cases hfind : (List.range' 1 Config.maxMainDiv).find? (dividerFits par (ticksAtOne maxD f)) with
  | some m =>
    obtain ⟨hfits, -, hbefore⟩ := List.find?_range'_eq_some.1 hfind
    exact ⟨fun d h1 hd => by simpa using hbefore d h1 hd, .inl hfits⟩
  | none =>
    have hnone := List.find?_range'_eq_none.1 hfind
    exact ⟨fun d h1 hd => by simpa using hnone d h1 (Nat.lt_add_left 1 hd), .inr rfl⟩

/-! ### The deltas of non-decreasing times (R263, R264) -/

/-- The product of two 32-bit words does not wrap: a tick is the time in units of the divider's period, rounded down. -/
theorem eventTick_eq_div (d : DriverState) (t : U32) :
    eventTick d t = t.toNat * d.workingFreq.toNat / (1000000000 * d.mainClockDivider.toNat) := by
  have hnowrap : t.toNat * d.workingFreq.toNat < 2 ^ 64 :=
    lt_of_lt_of_le (Nat.mul_lt_mul'' t.isLt d.workingFreq.isLt) (by norm_num)
  rw [eventTick, nsToTicks, mulDiv, mul_one, Nat.mod_eq_of_lt hnowrap, Nat.div_div_eq_div_mul, mul_comm Config.nsPerS]

/-- Rounding both ends of an interval down lengthens it by at most one. -/
theorem mul_div_sub_mul_div_le {a b f m : Nat} (hm : 0 < m) (hab : a ≤ b) :
    b * f / m - a * f / m ≤ (b - a) * f / m + 1 := by
  obtain ⟨k, rfl⟩ := Nat.exists_eq_add_of_le hab
  rw [Nat.add_sub_cancel_left, add_mul, Nat.add_div hm, Nat.sub_le_iff_le_add', ← add_assoc]
  gcongr
  split <;> simp

/-- A delta is at most the difference of its ticks, or 1 if there is none. -/
theorem tickDelta_lt {prev tick n : Nat} (hle : prev ≤ tick) (hn : 1 < n) (hlt : tick - prev < n) :
    (tickDelta prev tick).toNat < n := by
  have hsub : BitVec.ofNat 32 tick - BitVec.ofNat 32 prev = BitVec.ofNat 32 (tick - prev) := by
    apply BitVec.eq_of_toNat_eq
    simp only [BitVec.toNat_sub, BitVec.toNat_ofNat]
    omega
  simp only [tickDelta, hsub]
  split
  · exact hn
  · exact lt_of_le_of_lt (Nat.mod_le _ _) hlt

/-- The time before event `i` of a table: 0 before the first. The delay from it is one of the table's. -/
theorem exists_previousTime {d : DriverState} {evs : List CheckedEvent} {i : Nat} {e : CheckedEvent}
    (he : evs[i]? = some e) (hasc : (evs.map fun e => e.absTime.toNat).Pairwise (· ≤ ·)) :
    ∃ a ≤ e.absTime.toNat,
      prevTick d evs i = a * d.workingFreq.toNat / (1000000000 * d.mainClockDivider.toNat) ∧
      e.absTime.toNat - a ∈ delaysFrom 0 evs := by
  have hdelay : ∀ a ≤ e.absTime.toNat, (0 :: evs.map fun e => e.absTime.toNat)[i]? = some a →
      e.absTime.toNat - a ∈ delaysFrom 0 evs := by
    intro a hle ha
    rw [delaysFrom_eq_zipWith]
    refine List.mem_of_getElem? (i := i) ?_
    rw [List.getElem?_zipWith, ha, List.getElem?_map, he]
    simp [eventDelay, hle]
  cases i with
  | zero => exact ⟨0, Nat.zero_le _, by simp [prevTick], hdelay 0 (Nat.zero_le _) rfl⟩
  | succ i =>
    obtain ⟨hi, rfl⟩ := List.getElem?_eq_some_iff.1 he
    have hprev : evs[i]? = some evs[i] := List.getElem?_eq_getElem _
    have hle : evs[i].absTime.toNat ≤ evs[i + 1].absTime.toNat :=
      List.pairwise_iff_getElem.1 (List.pairwise_map.1 hasc) i (i + 1) _ hi (Nat.lt_succ_self i)
    refine ⟨evs[i].absTime.toNat, hle, ?_, hdelay _ hle (by simp [hprev])⟩
    simp only [prevTick, hprev, eventTick_eq_div]

/-- Settles O40: the longest delay fits with a margin of one tick, and rounding costs no more. -/
theorem deltasOfAFittingDividerFitTheField : Obligations.DeltasOfAFittingDividerFitTheField := by
  intro par tables d hdiv hfits T hT hasc i e he
  have hpos : 0 < 1000000000 * d.mainClockDivider.toNat := by
    have := (storedDivider_range par (maxDelay tables) d.workingFreq.toNat).1
    rw [← hdiv] at this
    omega
  obtain ⟨a, hle, hprev, hdelay⟩ := exists_previousTime (d := d) he hasc
  have hmax := (maxDelayIsTheLongestDelay tables).1 T hT _ hdelay
  have hmargin := Nat.lt_sub_iff_add_lt.1 hfits
  rw [Nat.div_div_eq_div_mul] at hmargin
  rw [hprev, eventTick_eq_div]
  refine tickDelta_lt (by gcongr) (lt_of_le_of_lt (Nat.le_add_left 1 _) hmargin) (lt_of_le_of_lt ?_ hmargin)
  refine (mul_div_sub_mul_div_le hpos hle).trans ?_
  gcongr

end Sys2Proof.Machine
end

section
/-! O41–O44, O46, O48 and O49: the steps of the clock divider solver, each as a function of what it is given
(R211–R222). -/

namespace Sys2Proof.Machine

/-! ### Collection (R211, R212) -/

/-- The Clock definitions of a list, in definition order. -/
def clockDefs (L : List SigDef) : List SigDef := L.filter fun d => decide (d.signalType = 2)

theorem clockDefs_cons (d : SigDef) (L : List SigDef) :
    clockDefs (d :: L) = if d.signalType = 2 then d :: clockDefs L else clockDefs L := by
  simp [clockDefs, List.filter_cons]

theorem collectFrom_cons (d : SigDef) (ds : List SigDef) :
    collectFrom (d :: ds) =
      if d.signalType = 2 then
        if d.clockPeriod = 0 then .error .nullClkPeriod else (d.clockPeriod.toNat :: ·) <$> collectFrom ds
      else collectFrom ds := by
  rw [collectFrom]
  refine if_congr Iff.rfl ?_ rfl
  simp only [failIf_bind, decide_eq_true_eq, map_eq_pure_bind]

/-- The collection raises on a zero period, wherever it stands, and else reads the periods off. -/
theorem collectFrom_eq (L : List SigDef) :
    collectFrom L =
      if ∃ d ∈ clockDefs L, d.clockPeriod = 0 then .error .nullClkPeriod
      else .ok ((clockDefs L).map fun d => d.clockPeriod.toNat) := by
  induction L with
  | nil => rfl
  | cons d ds ih =>
    rw [collectFrom_cons, clockDefs_cons, ih]
    by_cases hclock : d.signalType = 2
    · simp only [if_pos hclock, List.exists_mem_cons_iff]
      by_cases hzero : d.clockPeriod = 0
      · rw [if_pos hzero, if_pos (.inl hzero)]
      · rw [if_neg hzero]
        simp only [hzero, false_or]
        split <;> rfl
    · simp only [if_neg hclock]

/-- Collecting from one list after another is collecting from both (R211). -/
theorem collectPeriods_eq_collectFrom (sd0 : List SigDef) (sd1 : Option (List SigDef)) :
    collectPeriods sd0 sd1 = collectFrom (sd0 ++ sd1.getD []) := by
  unfold collectPeriods
  induction sd0 with
  | nil => exact bind_pure (collectFrom (sd1.getD []))
  | cons d ds ih =>
    rw [List.cons_append, collectFrom, collectFrom, ← ih]
    split
    · simp only [bind_assoc, pure_bind]
      rfl
    · rfl

/-- Settles O42: the two tables' definitions are collected as one list. -/
theorem collectedPeriodsAreTheClockPeriods : Obligations.CollectedPeriodsAreTheClockPeriods := by
  intro sd0 sd1
  simp only [collectPeriods_eq_collectFrom, collectFrom_eq]
  rfl

/-! ### The distinct periods (R214, R215) -/

/-- Steps 2 and 3: the periods sorted, the repeats collapsed. -/
theorem distinctPeriods_sorted (P : List Nat) : (dedupAdjacent (sortAscending P)).Pairwise (· < ·) :=
  dedupAdjacent_sorted _ (List.pairwise_insertionSort (· ≤ ·) P)

theorem mem_distinctPeriods {P : List Nat} {x : Nat} : x ∈ dedupAdjacent (sortAscending P) ↔ x ∈ P := by
  rw [mem_dedupAdjacent, mem_sortAscending]

/-- Settles O41: collapsing keeps the members of the sorted list and makes it strictly ascending. -/
theorem sortedPeriodsAreTheDistinctOnes : Obligations.SortedPeriodsAreTheDistinctOnes := by
  intro P
  refine ⟨distinctPeriods_sorted P, fun x => mem_distinctPeriods, ?_, fun hP => ?_⟩
  · exact (dedupAdjacent_length _).trans (List.length_insertionSort (· ≤ ·) P).le
  · obtain ⟨x, hx⟩ := List.exists_mem_of_ne_nil P hP
    exact List.length_pos_of_mem (mem_distinctPeriods.2 hx)

/-! ### The clusters (R216–R219) -/

/-- Settles O43: the division by the representative cancels its product, and 8/10 is 4/5. -/
theorem mergedRepresentativeIsFourFifths : Obligations.MergedRepresentativeIsFourFifths := by
  intro rep last hrep hnowrap
  calc mergedRepresentative rep last = rep * last * 8 / 10 / rep := congrArg (· / 10 / rep) (Nat.mod_eq_of_lt hnowrap)
    _ = rep * (last * 8) / (rep * 10) := by rw [Nat.div_div_eq_div_mul, mul_assoc, mul_comm 10]
    _ = 4 * last / 5 := by rw [Nat.mul_div_mul_left _ _ hrep]; omega

theorem clustersOf_few {Q : List Nat} (h : Q.length ≤ 4) :
    clustersOf Q = .ok (Q.map fun q => { low := q, rep := q }) := if_pos h

theorem clustersOf_merged {Q : List Nat} (h : 4 < Q.length) :
    clustersOf Q = if 4 < (mergeClusters Q).length then .error .tooManyClocks else .ok (mergeClusters Q) :=
  if_neg (not_le.2 h)

/-- Settles O44: the distinct periods are the five in order, and the merge loop breaks before or after the far one. -/
theorem fourCloseAndOneFarMakeTwoClusters : Obligations.FourCloseAndOneFarMakeTwoClusters := by
  intro P a b c d x ha hab hbc hcd hda hP
  have sorted : ∀ Q : List Nat, Q.Pairwise (· < ·) → (∀ y, y ∈ Q ↔ y ∈ P) → dedupAdjacent (sortAscending P) = Q :=
    fun Q hQ hmem => sorted_unique _ _ (distinctPeriods_sorted P) hQ fun y => mem_distinctPeriods.trans (hmem y).symm
  have hb : b < 2 * a := by omega
  have hc : c < 2 * a := by omega
  refine ⟨fun hx => ?_, fun h1 hx => ?_⟩
  · rw [sorted [a, b, c, d, x] (by simp; omega) (by simp [hP]), clustersOf_merged (by simp)]
    simp [mergeClusters, mergeFrom, closeCluster, Config.mergeFactor, hb, hc, hda, not_lt.2 hx]
  · rw [sorted [x, a, b, c, d] (by simp; omega) (fun y => by simp [hP]; omega), clustersOf_merged (by simp)]
    simp [mergeClusters, mergeFrom, closeCluster, Config.mergeFactor, hb, hc, hda, not_lt.2 hx]

/-- The solver's error for too many clusters (R219): more than four periods, and more than four clusters of them. -/
theorem clustersOf_error_iff {Q : List Nat} {c : Status} :
    clustersOf Q = .error c ↔ c = .tooManyClocks ∧ 4 < Q.length ∧ 4 < (mergeClusters Q).length := by
  by_cases hfew : Q.length ≤ 4
  · simp [clustersOf_few hfew, not_lt.2 hfew]
  · rw [clustersOf_merged (not_le.1 hfew)]
    split_ifs with hmany <;> simp [hmany, not_le.1 hfew, eq_comm]

/-- SolveClocks raises TOO_MANY_CLOCKS in its first steps only: the dividers' checks raise another status (R221). -/
theorem solveClocks_tooManyClocks_iff {sd0 : List SigDef} {sd1 : Option (List SigDef)} {s : State} :
    solveClocks sd0 sd1 s = .raised .tooManyClocks s ↔ solveClusters sd0 sd1 = .error .tooManyClocks := by
  unfold solveClocks
  split
  · rename_i c hc
    simp [hc]
  · rename_i hc
    simp [hc]
  · rename_i cs _ hcs
    rw [hcs]
    refine iff_of_false (fun hraised => ?_) nofun
    have hstatus := writeDividers_sat s.drv.workingFreq.toNat (numbered cs) s
    rcases Flow.andThen_eq_raised hraised with hw | ⟨t, -, ht⟩
    · rw [hw] at hstatus
      exact absurd hstatus.1 nofun
    · cases ht

/-- Settles O46: the status is the clustering's, and the clustering comes before the dividers. -/
theorem tooManyClustersRaiseBeforeAnyWrite : Obligations.TooManyClustersRaiseBeforeAnyWrite := by
  intro sd0 sd1 P s hP
  rw [solveClocks_tooManyClocks_iff, solveClusters, hP]
  exact clustersOf_error_iff.trans (and_iff_right rfl)

/-! ### The dividers and their codes (R220, R222) -/

/-- Settles O48: the ceiling of a division is the least bound of the quotient. -/
theorem linearDividerRoundsUp : Obligations.LinearDividerRoundsUp := by
  intro rep f d
  rw [linearDivider, ceilDiv, Config.nsPerS]
  omega

theorem clkDivTable_get {d : Nat} (h1 : 1 ≤ d) (h2 : d ≤ 192) : clkDivTable[d - 1] = clkDivEncode d := by
  rw [clkDivTable, Vector.getElem_ofFn, Nat.sub_add_cancel h1]

/-- The default parameters give every legal divider the doubling count (R9, R222). -/
theorem clkDivCode_defaultParams {d : Nat} (h1 : 1 ≤ d) (h2 : d ≤ 192) : clkDivCode defaultParams d = clkDivEncode d :=
  (dif_pos ⟨h1, h2⟩).trans (clkDivTable_get h1 h2)

theorem clkDivEncode_toNat : ∀ div : Fin 193, (clkDivEncode div.val).toNat = Claims.clkDivCodeOf div.val := by
  decide +kernel

theorem clkDivCodeOf_lt (d : Nat) : Claims.clkDivCodeOf d < 2 ^ 3 := by
  unfold Claims.clkDivCodeOf
  split_ifs <;> norm_num

/-- A value that fits a width is unchanged by truncation to it. -/
theorem truncBits_eq_self {bits : Nat} {v : U32} (h : v.toNat < 2 ^ bits) : truncBits bits v = v := by
  rw [truncBits, Nat.mod_eq_of_lt h, BitVec.ofNat_toNat, BitVec.setWidth_eq]

/-- Settles O49: the codes are below 8, so three bits hold them. -/
theorem clkDivCodesAreTheTable : Obligations.ClkDivCodesAreTheTable := by
  intro div hpos
  have hcode := clkDivEncode_toNat div
  refine ⟨hcode, clkDivCode_defaultParams hpos (Nat.lt_succ_iff.1 div.isLt), truncBits_eq_self ?_⟩
  rw [hcode]
  exact clkDivCodeOf_lt _

end Sys2Proof.Machine
end

section
/-! O45: the clusters of the distinct periods, and ClusterOf over the driver state that keeps them (R216, R217, R224,
R226). Both kinds of clusters ascend and hold every period once, which is all the search needs. -/

namespace Sys2Proof.Machine

/-- Cluster `n` of `cs` is the last whose smallest member is at most `p`, and `p` is within its doubling threshold. -/
structure HoldsPeriod (cs : List Cluster) (n : Nat) (c : Cluster) (p : Nat) : Prop where
  get : cs[n]? = some c
  low_le : c.low ≤ p
  lt_double : p < 2 * c.low
  later : ∀ (m : Nat) (c' : Cluster), cs[m]? = some c' → n < m → p < c'.low

/-- `cs` are clusters of the periods `Q`: they ascend, begin with periods, and hold every period. -/
structure Clusters (Q : List Nat) (cs : List Cluster) : Prop where
  ascending : (cs.map Cluster.low).Pairwise (· < ·)
  low_mem : ∀ c ∈ cs, c.low ∈ Q
  holds : ∀ p ∈ Q, ∃ n c, HoldsPeriod cs n c p

/-! ### The search (R226) -/

section

variable {cs : List Cluster} {n : Nat} {c : Cluster} {p : Nat}

/-- What the driver state keeps of the clusters' smallest members, in the entries it counts as used (R38, R43, R224). -/
theorem keptLows_eq (hlen : cs.length ≤ 4) (s : State) :
    (persistClusters cs s).drv.clusterLow.toList.take (persistClusters cs s).drv.usedClockDividers.toNat =
      cs.map fun c => BitVec.ofNat 32 c.low := by
  have hused : cs.length % 2 ^ 8 = cs.length := Nat.mod_eq_of_lt (by omega)
  simp only [persistClusters_drv, BitVec.toNat_ofNat, hused]
  refine List.ext_getElem (by simpa using hlen) fun i hi hi' => ?_
  have hi' : i < cs.length := by simpa using hi'
  simp [storeFirst, hi']

/-- ClusterOf answers the cluster that holds the period. -/
theorem clusterOf_persistClusters (hlen : cs.length ≤ 4) (hasc : (cs.map Cluster.low).Pairwise (· < ·))
    (hword : ∀ c ∈ cs, c.low < 2 ^ 32) (h : HoldsPeriod cs n c p) (s : State) :
    clusterOf (persistClusters cs s).drv p = n := by
  obtain ⟨hn, rfl⟩ := List.getElem?_eq_some_iff.1 h.get
  have hsearch : ∀ m (hm : m < (cs.map fun c => BitVec.ofNat 32 c.low).length),
      ((cs.map fun c => BitVec.ofNat 32 c.low)[m]).toNat ≤ p ↔ m ≤ n := by
    intro m hm
    have hm : m < cs.length := by simpa using hm
    rw [List.getElem_map, BitVec.toNat_ofNat, Nat.mod_eq_of_lt (hword _ (List.getElem_mem hm))]
    rcases lt_trichotomy n m with hnm | rfl | hmn
    · exact iff_of_false (not_le.2 (h.later m _ (List.getElem?_eq_getElem hm) hnm)) (not_le.2 hnm)
    · exact iff_of_true h.low_le le_rfl
    · have hlt := List.pairwise_iff_getElem.1 (List.pairwise_map.1 hasc) m n hm hn hmn
      exact iff_of_true (hlt.le.trans h.low_le) hmn.le
  rw [clusterOf, keptLows_eq hlen, lastAtMost_spec p _ 0 0 n (by simpa using hn) hsearch, zero_add]

end

/-! ### The two kinds of clusters (R216, R217) -/

section

variable {Q : List Nat}

/-- Each of at most four periods is its own cluster. -/
theorem directClusters_holds (hasc : Q.Pairwise (· < ·)) (hpos : ∀ q ∈ Q, 1 ≤ q) {p : Nat} (hp : p ∈ Q) :
    ∃ n, HoldsPeriod (Q.map fun q => { low := q, rep := q }) n ⟨p, p⟩ p := by
  obtain ⟨n, hn, rfl⟩ := List.mem_iff_getElem.1 hp
  have h1 := hpos _ hp
  refine ⟨n, by simp [hn], le_rfl, by dsimp only; omega, fun m c' hm hnm => ?_⟩
  obtain ⟨q, hq, rfl⟩ := Option.map_eq_some_iff.1 (List.getElem?_map.symm.trans hm)
  obtain ⟨hlt, rfl⟩ := List.getElem?_eq_some_iff.1 hq
  exact List.pairwise_iff_getElem.1 hasc n m hn hlt hnm

theorem directClusters (hasc : Q.Pairwise (· < ·)) (hpos : ∀ q ∈ Q, 1 ≤ q) :
    Clusters Q (Q.map fun q => { low := q, rep := q }) where
  ascending := List.pairwise_map.2 (List.pairwise_map.2 hasc)
  low_mem := by simp
  holds := fun p hp => (directClusters_holds hasc hpos hp).imp fun _ h => ⟨_, h⟩

theorem mergedClusters (hasc : Q.Pairwise (· < ·)) (hpos : ∀ q ∈ Q, 1 ≤ q) : Clusters Q (mergeClusters Q) := by
  cases Q with
  | nil => exact ⟨by simp [mergeClusters], by simp [mergeClusters], by simp⟩
  | cons q qs =>
    obtain ⟨⟨r, cs, hcs⟩, hlows, hmem, hheld, htail⟩ := mergeFrom_spec qs q q 1 hasc le_rfl
    have h1 := hpos q (by simp)
    refine ⟨hlows, fun c hc => List.mem_cons.2 (hmem c hc), fun p hp => ?_⟩
    rcases List.mem_cons.1 hp with rfl | hp
    · refine ⟨0, ⟨p, r⟩, by rw [mergeClusters, hcs]; rfl, le_rfl, by dsimp only; omega, fun m c' hm h0 => ?_⟩
      obtain ⟨m, rfl⟩ := Nat.exists_eq_add_of_lt h0
      refine (List.pairwise_cons.1 hasc).1 _ (htail c' ?_)
      rw [mergeClusters, hcs] at hm
      rw [hcs]
      exact List.mem_of_getElem? (i := m) (by simpa using hm)
    · obtain ⟨n, c, hget, hle, hlt, hlater⟩ := hheld p hp
      exact ⟨n, c, hget, hle, hlt, hlater⟩

/-- Merged clusters are a doubling apart, and each is represented by its smallest and greatest member (R217, R218). -/
theorem mergeClusters_members (hasc : Q.Pairwise (· < ·)) (hpos : ∀ q ∈ Q, 1 ≤ q) :
    ((mergeClusters Q).map Cluster.low).Pairwise (fun a b => 2 * a ≤ b) ∧
    ∀ c ∈ mergeClusters Q, ∃ last ∈ Q, c.low ≤ last ∧ last < 2 * c.low ∧ (∀ q ∈ Q, q < 2 * c.low → q ≤ last) ∧
      c.rep = if last = c.low then c.low else mergedRepresentative c.low last := by
  have hlows := (mergedClusters hasc hpos).low_mem
  cases Q with
  | nil => simp [mergeClusters]
  | cons q qs =>
    have h1 := hpos q (by simp)
    obtain ⟨hspaced, hmembers⟩ := mergeFrom_members qs q q 1 hasc hasc le_rfl (by omega) le_rfl (by simp)
    refine ⟨hspaced, fun c hc => ?_⟩
    obtain ⟨last, hlast, hle, hlt, hgreatest, hrep⟩ := hmembers c hc
    have hfirst : q ≤ c.low := by
      rcases List.mem_cons.1 (hlows c hc) with h | h
      · exact h.ge
      · exact ((List.pairwise_cons.1 hasc).1 _ h).le
    exact ⟨last, hlast, hle, hlt, List.forall_mem_cons.2 ⟨fun _ => hfirst.trans hle, hgreatest⟩, hrep⟩

/-- Whichever way they are made, they are clusters of the periods. -/
theorem clustersOf_clusters (hasc : Q.Pairwise (· < ·)) (hpos : ∀ q ∈ Q, 1 ≤ q) {cs : List Cluster}
    (h : clustersOf Q = .ok cs) : Clusters Q cs := by
  rcases Nat.lt_or_ge 4 Q.length with hmany | hfew
  · rw [clustersOf_merged hmany] at h
    split at h
    · cases h
    · cases h
      exact mergedClusters hasc hpos
  · rw [clustersOf_few hfew] at h
    cases h
    exact directClusters hasc hpos

end

/-- Settles O45: the driver state keeps the clusters, so that ClusterOf answers the one that holds the period. -/
theorem clusterOfFindsThePeriodsCluster : Obligations.ClusterOfFindsThePeriodsCluster := by
  intro sd0 sd1 P cs hP hcs
  have hlen := solveClusters_length hcs
  have hword : ∀ c ∈ cs, c.low < 2 ^ 32 := fun c hc => (solveClusters_bound hcs c hc).1
  have hQ : clustersOf (dedupAdjacent (sortAscending P)) = .ok cs := by
    rw [solveClusters, hP] at hcs
    exact hcs
  have hasc := distinctPeriods_sorted P
  have hpos : ∀ q ∈ dedupAdjacent (sortAscending P), 1 ≤ q := fun q hq =>
    (collectPeriods_bound hP q (mem_distinctPeriods.1 hq)).1
  have hclusters := clustersOf_clusters hasc hpos hQ
  refine ⟨hlen, fun c hc => mem_distinctPeriods.1 (hclusters.low_mem c hc), fun hmany => ?_, fun s p hp => ?_⟩
  · rw [clustersOf_merged hmany] at hQ
    split at hQ
    · cases hQ
    · cases hQ
      simpa only [mem_distinctPeriods] using mergeClusters_members hasc hpos
  · have hp := mem_distinctPeriods.2 hp
    obtain ⟨n, c, hc, hown⟩ : ∃ n c, HoldsPeriod cs n c p ∧
        ((dedupAdjacent (sortAscending P)).length ≤ 4 → c.low = p ∧ c.rep = p) := by
      by_cases hfew : (dedupAdjacent (sortAscending P)).length ≤ 4
      · rw [clustersOf_few hfew] at hQ
        cases hQ
        obtain ⟨n, hn⟩ := directClusters_holds hasc hpos hp
        exact ⟨n, _, hn, fun _ => ⟨rfl, rfl⟩⟩
      · obtain ⟨n, c, hc⟩ := hclusters.holds p hp
        exact ⟨n, c, hc, fun h => absurd h hfew⟩
    rw [clusterOf_persistClusters hlen hclusters.ascending hword hc s]
    exact ⟨c, hc.get, hc.low_le, hc.lt_double, hc.later, hown⟩

end Sys2Proof.Machine
end

section
/-! O47 and O50: the clock dividers and the clock select at the level of SETUP (R220–R227, R345, R349). What SETUP has
programmed before the solver, and what runs from there on does not write again, is gathered once. -/

namespace Sys2Proof.Machine

open Sys2Proof.Claims

/-! ### The dividers up to the first that is refused (R221, R223) -/

/-- The CLKDIV fields go to the clusters in order: more clusters take the fields that are left. -/
theorem numbered_append {cs : List Cluster} (h : cs.length ≤ 4) (more : List Cluster) :
    numbered (cs ++ more) = numbered cs ++ ((List.finRange 4).drop cs.length).zip more := by
  have hsplit : ∀ xs, numbered (cs ++ xs) =
      ((List.finRange 4).take cs.length).zip cs ++ ((List.finRange 4).drop cs.length).zip xs := by
    intro xs
    rw [← List.zip_append (by simpa using h), List.take_append_drop, numbered]
  have halone := hsplit []
  rw [List.append_nil, List.zip_nil_right, List.append_nil] at halone
  rw [hsplit, halone]

theorem numbered_append_cons {done rest : List Cluster} {bad : Cluster} (h : (done ++ bad :: rest).length ≤ 4) :
    ∃ n others, numbered (done ++ bad :: rest) = numbered done ++ (n, bad) :: others := by
  have hlt : done.length < (List.finRange 4).length := by
    rw [List.length_append, List.length_cons] at h
    rw [List.length_finRange]
    omega
  rw [numbered_append (by rw [List.length_finRange] at hlt; omega), List.drop_eq_getElem_cons hlt, List.zip_cons_cons]
  exact ⟨_, _, rfl⟩

/-- The dividers are written one by one up to the first refused one, `bad`'s. -/
theorem writeDividers_raised {f : Nat} {done rest : List Cluster} {bad : Cluster} (s : State)
    (hlen : (done ++ bad :: rest).length ≤ 4) (hdone : ∀ c ∈ done, linearDivider c.rep f ≤ 192)
    (hbad : 192 < linearDivider bad.rep f) :
    ∃ t, writeDividers f (numbered (done ++ bad :: rest)) s = .raised .clkDividerError t ∧ Writes isClkDivField s t ∧
      (∀ (n : Fin 4) (c : Cluster), done[n.val]? = some c →
        t.regs.clkDiv[n] = truncBits s.params.clkDivBits (clkDivCode s.params (linearDivider c.rep f))) ∧
      ∀ n : Fin 4, done.length ≤ n.val → t.regs.clkDiv[n] = s.regs.clkDiv[n] := by
  obtain ⟨n, others, hnumbered⟩ := numbered_append_cons hlen
  obtain ⟨t, hgo, hwrites, hcodes, hunused⟩ := writeDividers_go (s := s) hdone
  have hlegal : ∀ x ∈ numbered done, linearDivider x.2.rep f ≤ 192 := fun x hx =>
    hdone _ (List.mem_of_getElem? (((numbered_spec done).2 x.1 x.2).1 hx))
  refine ⟨t, ?_, hwrites, hcodes, hunused⟩
  rw [hnumbered, writeDividers_split (bad := (n, bad)) hbad _ s hlegal, hgo, Flow.final_go]

/-- Writes to the clock dividers leave every other field. -/
theorem Writes.onlyClkDiv {s t : State} (h : Writes isClkDivField s t) :
    t.regs = { s.regs with clkDiv := t.regs.clkDiv } := by
  dsimp only
  rw [← h.ctrlEn id, ← h.ctrlRst id, ← h.chksumEn id, ← h.mode id, ← h.runMode id, ← h.timingMode id, ← h.dpDiv id,
    ← h.repeatCount id, ← h.tlim (fun _ => id), ← h.slvRfsSrc id, ← h.slvRcsSrc id, ← h.slvDelay id, ← h.slvCsi2Unit id,
    ← h.slvCsi2Vc id, ← h.clkSel (fun _ => id), ← h.sigTypeA (fun _ => id), ← h.sigTypeB (fun _ => id),
    ← h.lut (fun _ _ => id) (fun _ _ => id), ← h.irqEn id, ← h.rfsGen id]

/-! ### The solver that raises a status (R210) -/

/-- The solver raises `c` at the frequency `f`: before it has written any divider, or at the first refused one, with the
dividers of the clusters `written` in place. -/
def SolverRaises (sd0 : List SigDef) (sd1 : Option (List SigDef)) (f : Nat) (c : Status) (written : List Cluster) :
    Prop :=
  solveClusters sd0 sd1 = .error c ∧ written = [] ∨
    c = .clkDividerError ∧ ∃ bad rest, solveClusters sd0 sd1 = .ok (written ++ bad :: rest) ∧
      (∀ x ∈ written, linearDivider x.rep f ≤ 192) ∧ 192 < linearDivider bad.rep f

theorem solveClocks_of_clusters {sd0 : List SigDef} {sd1 : Option (List SigDef)} {cs : List Cluster}
    (h : solveClusters sd0 sd1 = .ok cs) (s : State) :
    solveClocks sd0 sd1 s =
      (writeDividers s.drv.workingFreq.toNat (numbered cs) s).andThen fun t => .go (keepClusters cs t) := by
  cases cs with
  | nil => simp [solveClocks, h, numbered, writeDividers, keepClusters]
  | cons c cs => simp [solveClocks, h, keepClusters]

theorem solveClocks_raised {sd0 : List SigDef} {sd1 : Option (List SigDef)} {c : Status} {written : List Cluster}
    {s : State} (h : SolverRaises sd0 sd1 s.drv.workingFreq.toNat c written) :
    ∃ t, solveClocks sd0 sd1 s = .raised c t ∧ Writes isClkDivField s t ∧
      (∀ (n : Fin 4) (x : Cluster), written[n.val]? = some x →
        t.regs.clkDiv[n] =
          truncBits s.params.clkDivBits (clkDivCode s.params (linearDivider x.rep s.drv.workingFreq.toNat))) ∧
      ∀ n : Fin 4, written.length ≤ n.val → t.regs.clkDiv[n] = s.regs.clkDiv[n] := by
  rcases h with ⟨herror, rfl⟩ | ⟨rfl, bad, rest, hclusters, hwritten, hbad⟩
  · exact ⟨s, by simp only [solveClocks, herror], .refl s, by simp, fun _ _ => rfl⟩
  · obtain ⟨t, hraised, ht⟩ := writeDividers_raised s (solveClusters_length hclusters) hwritten hbad
    exact ⟨t, by rw [solveClocks_of_clusters hclusters, hraised, Flow.andThen_raised], ht⟩

/-! ### What SETUP has programmed when it reaches the solver (R335–R344) -/

/-- `u` is a state in which SETUP has compiled its tables (R251–R254, R270). -/
structure TablesCompiled (p : InitParams) (s : State) (v : Plan) (u : State) : Prop where
  tables : Writes isLutField (setupPrepare v p (setupEntry s)) u
  page0 : ∀ k, lutAt u.regs.lut 0 k =
    slotAfter s.params (setupPrepare v p (setupEntry s)).drv v.sigDef0 v.table0.events
      (setupPrepare v p (setupEntry s)).regs.lut 0 v.table0.events.length (decide (v.table0.events.length > 32)) 0 k
  page1 : ∀ k, lutAt u.regs.lut 1 k =
    compiledPage1 s.params (setupPrepare v p (setupEntry s)).drv v.sigDef0 v.table0.events v.second
      (setupPrepare v p (setupEntry s)).regs.lut k

theorem limitTicks_eq (d : DriverState) (ns : U32) :
    limitTicks d ns = limitOf d.workingFreq.toNat d.mainClockDivider.toNat ns := by
  rw [limitTicks, limitOf, nsToTicks, mulDiv, mul_one]
  rfl

theorem truncBits_toNat (bits : Nat) (v : U32) : (truncBits bits v).toNat = v.toNat % 2 ^ bits := by
  rw [truncBits, BitVec.toNat_ofNat, Nat.mod_eq_of_lt (lt_of_le_of_lt (Nat.mod_le _ _) v.isLt)]

section

variable {par : Params} {p : InitParams} {s t u : State} {v : Plan}

/-- Table 1 of an accepted record is there when the record has one. -/
theorem Accepted.table1_isSome (hv : Accepted par p v) : v.table1.isSome = true ↔ p.table1 ≠ none := by
  rw [Plan.table1, Option.isSome_map, ← hv.sigDef1.2, Option.isSome_iff_ne_none]

/-- What the steps after the mode write (R341–R344). -/
theorem setupProgram_written (v : Plan) (p : InitParams) (s : State) :
    (setupProgram v p s).regs.repeatCount = p.repeatCount ∧
    (setupProgram v p s).regs.runMode =
      (if v.table1.isSome || decide (v.table0.length > 32) then runModeTwoTable else runModeOneTable).setWidth 1 ∧
    (setupProgram v p s).regs.tlim[0] = limitTicks s.drv v.table0.execTimeLimit ∧
    (setupProgram v p s).regs.tlim[1] = secondLimit s.drv v.table0 v.table1 ∧
    (setupProgram v p s).regs.dpDiv = truncBits s.params.mainDivBits (s.drv.mainClockDivider.setWidth 32) := by
  obtain ⟨x, -, hregs⟩ := setupProgram_regs v p s
  simp [hregs, RegImage.write]

/-- The limit of table slot 1 (R343): Table 1's. -/
theorem secondLimit_two {x : CheckedTable × List SigDef} (d : DriverState) (h : v.second = some x) :
    secondLimit d v.table0 v.table1 = limitOf d.workingFreq.toNat d.mainClockDivider.toNat x.1.execTimeLimit := by
  rw [Plan.table1, h, ← limitTicks_eq]
  rfl

/-- With no Table 1, that of a Table 0 that spans both pages, or none. -/
theorem secondLimit_alone (d : DriverState) (h : v.second = none) :
    secondLimit d v.table0 v.table1 =
      if 32 < v.table0.length then limitOf d.workingFreq.toNat d.mainClockDivider.toNat v.table0.execTimeLimit
      else 0xFFFFFFFF#32 := by
  rw [Plan.table1, h, ← limitTicks_eq]
  by_cases hlong : 32 < v.table0.length <;> simp [secondLimit, spansBoth, hlong, Config.tlimUnlimited]

/-- The control, mode, repeat, run mode, limit, timing and divider fields after the programming steps. -/
theorem setupProgram_fields (hv : Accepted par p v) (hfreq : s.drv.workingFreq = p.clockFreq) (hen : s.regs.ctrlEn = 0)
    (hrst : s.regs.ctrlRst = 0) (hchk : s.regs.chksumEn = 1) : SetupFields p v (setupProgram v p s) := by
  have hw := setupProgram_writes v p s
  obtain ⟨hrepeat, hrun, hlimit0, hlimit1, hdiv⟩ := setupProgram_written v p s
  refine ⟨(hw.ctrlEn id).trans hen, (hw.ctrlRst id).trans hrst, (hw.chksumEn id).trans hchk, setupProgram_timingMode,
    ?_, hrepeat, ?_, ?_, ?_, ?_⟩
  · have hmode := checkMode_le hv.mode
    rw [setupProgram_mode, BitVec.toNat_setWidth]
    omega
  · have hword : s.drv.mainClockDivider.toNat < 2 ^ 32 := by omega
    rw [hdiv, hw.drv, hw.params, truncBits_toNat, BitVec.toNat_setWidth, Nat.mod_eq_of_lt hword]
  · rw [hrun]
    by_cases htwo : p.table1 ≠ none ∨ 32 < v.table0.length
    · rw [if_pos htwo, if_pos (by simpa [hv.table1_isSome] using htwo)]
      rfl
    · rw [if_neg htwo, if_neg (by simpa [hv.table1_isSome] using htwo)]
      rfl
  · rw [hlimit0, limitTicks_eq, hw.drv, hfreq]
  · rw [hlimit1, hw.drv, ← hfreq]
    cases hsecond : v.second with
    | some x => exact secondLimit_two s.drv hsecond
    | none => exact secondLimit_alone s.drv hsecond

/-- The steps after the mode leave the slave fields as it programmed them (R340). -/
theorem setupProgram_slaveFields_eq (v : Plan) (p : InitParams) (s : State) :
    ∃ x, Writes isSigTypeField s x ∧
      (setupProgram v p s).regs.slvRfsSrc = (programMode p x).regs.slvRfsSrc ∧
      (setupProgram v p s).regs.slvRcsSrc = (programMode p x).regs.slvRcsSrc ∧
      (setupProgram v p s).regs.slvDelay = (programMode p x).regs.slvDelay ∧
      (setupProgram v p s).regs.slvCsi2Unit = (programMode p x).regs.slvCsi2Unit ∧
      (setupProgram v p s).regs.slvCsi2Vc = (programMode p x).regs.slvCsi2Vc := by
  obtain ⟨x, hx, hregs⟩ := setupProgram_regs v p s
  exact ⟨x, hx, by simp [hregs, RegImage.write]⟩

/-- The slave fields after the programming steps: the record's, or what the pulse drew (R340, R451). -/
theorem setupProgram_slaveFields (hu : TablesCompiled p s v u) :
    SetupSlaveFields p s (setupProgram v p u.snapshotChecksum) := by
  obtain ⟨x, hx, hrfs, hrcs, hdelay, hunit, hvc⟩ := setupProgram_slaveFields_eq v p u.snapshotChecksum
  obtain ⟨r, -, hr, hslave, hmaster, hcsi2, hnot⟩ := programMode_regs p x
  rw [hr] at hrfs hrcs hdelay hunit hvc
  have hpar : x.params = s.params := hx.params.trans hu.tables.params
  rw [hpar] at hslave hcsi2
  refine ⟨fun hmode => ?_, fun hmode => ?_, fun hmode => ?_, fun hmode => ?_⟩
  · obtain ⟨h1, h2, h3⟩ := hslave (decide_eq_true hmode)
    rw [hrfs, hrcs, hdelay, h1, h2, h3]
    exact ⟨truncBits_toNat _ _, truncBits_toNat _ _, truncBits_toNat _ _⟩
  · obtain ⟨h1, h2⟩ := hcsi2 hmode
    rw [hunit, hvc, h1, h2]
    exact ⟨truncBits_toNat _ _, truncBits_toNat _ _⟩
  · obtain ⟨h1, h2, h3⟩ := hmaster (decide_eq_false (by omega))
    rw [hrfs, hrcs, hdelay, h1, h2, h3]
    exact ⟨(hx.slvRfsSrc id).trans (hu.tables.slvRfsSrc id), (hx.slvRcsSrc id).trans (hu.tables.slvRcsSrc id),
      (hx.slvDelay id).trans (hu.tables.slvDelay id)⟩
  · obtain ⟨h1, h2⟩ := hnot hmode
    rw [hunit, hvc, h1, h2]
    exact ⟨(hx.slvCsi2Unit id).trans (hu.tables.slvCsi2Unit id), (hx.slvCsi2Vc id).trans (hu.tables.slvCsi2Vc id)⟩

/-- The LUT after the programming steps, slot by slot: they leave it as the tables did. -/
theorem setupProgram_lut (hu : TablesCompiled p s v u) : SetupLut s v (setupProgram v p u.snapshotChecksum) := by
  have hw := setupProgram_writes v p u.snapshotChecksum
  have hlut : (setupProgram v p u.snapshotChecksum).regs.lut = u.regs.lut := hw.lut (fun _ _ => id) fun _ _ => id
  have hdrv : (setupProgram v p u.snapshotChecksum).drv = (setupPrepare v p (setupEntry s)).drv :=
    hw.drv.trans hu.tables.drv
  refine ⟨fun k => ?_, fun T L hT k => ?_, fun halone hlong k => ?_, fun halone hshort k => ?_⟩
  · rw [hlut, hdrv, hu.page0 k]
    exact if_pos rfl
  · rw [hlut, hdrv, hu.page1 k, hT]
    rfl
  · rw [hlut, hdrv, hu.page1 k, halone, compiledPage1, slotAfter, if_neg (by decide), if_pos (decide_eq_true hlong)]
    rfl
  · rw [hlut, hu.page1 k, halone, compiledPage1, slotAfter, if_neg (by decide), if_neg (by simpa using hshort)]
    simp [RegImage.drawn, lutAt, drawnSlot, setupEntry]

/-- Everything SETUP programs before the solver is in place when it reaches it. -/
theorem setupProgram_setupProgrammed (hv : Accepted s.params p v) (hu : TablesCompiled p s v u) :
    SetupProgrammed p s v (setupProgram v p u.snapshotChecksum) := by
  have hw := setupProgram_writes v p u.snapshotChecksum
  have hlut : (setupProgram v p u.snapshotChecksum).regs.lut = u.regs.lut := hw.lut (fun _ _ => id) fun _ _ => id
  have hchk : u.regs.chksumEn = 1 := hu.tables.chksumEn id
  refine ⟨setupProgram_fields hv ?_ (hu.tables.ctrlEn id) (hu.tables.ctrlRst id) hchk,
    setupProgram_slaveFields hu, setupProgram_lut hu, ?_, ?_⟩
  · rw [State.snapshotChecksum_drv, hu.tables.drv, setupPrepare_drv]
  · have htypes := setupProgram_holdsTypes v p u.snapshotChecksum
    rwa [State.snapshotChecksum_params, hu.tables.params] at htypes
  · rw [hw.checksum, hlut, State.snapshotChecksum_output, readChecksum_on hchk]

/-- Only the fields written from the solver on differ, and nothing that was read of the driver state does. -/
theorem setupProgrammed_of_late (h : SetupProgrammed p s v t)
    (hregs : u.regs = { t.regs with clkDiv := u.regs.clkDiv, clkSel := u.regs.clkSel, irqEn := u.regs.irqEn })
    (hfreq : u.drv.workingFreq = t.drv.workingFreq) (hdiv : u.drv.mainClockDivider = t.drv.mainClockDivider)
    (hpar : u.params = t.params) (hck : u.output.checksum = t.output.checksum) : SetupProgrammed p s v u := by
  obtain ⟨drv, regs, env, input, output, halted, draws, params⟩ := u
  dsimp only at hregs hfreq hdiv hpar hck
  generalize regs.clkDiv = codes, regs.clkSel = selects, regs.irqEn = enabled at hregs
  subst hregs hpar
  obtain ⟨fields, slaves, lut, types, checksum⟩ := h
  have hslot : ∀ par sd evs i, eventSlot par t.drv sd evs i = eventSlot par drv sd evs i := fun _ _ _ i =>
    eventSlot_congr hfreq.symm hdiv.symm i
  refine ⟨?_, ?_, ?_, types, hck.trans checksum⟩
  · obtain ⟨h1, h2, h3, h4, h5, h6, h7, h8, h9, h10⟩ := fields
    rw [← hdiv] at h7 h9 h10
    exact ⟨h1, h2, h3, h4, h5, h6, h7, h8, h9, h10⟩
  · exact ⟨slaves.sources, slaves.selectors, slaves.sourcesFree, slaves.selectorsFree⟩
  · obtain ⟨h1, h2, h3, h4⟩ := lut
    simp only [firstPageSlot, secondPageSlot, hslot] at h1 h2 h3
    exact ⟨h1, h2, h3, h4⟩

/-- The solver's and the interrupts' fields still hold what the pulse drew (R451). -/
theorem setupProgram_undecided (hu : TablesCompiled p s v u) :
    (∀ n : Fin 4, (setupProgram v p u.snapshotChecksum).regs.clkDiv[n] =
      truncBits s.params.clkDivBits (Config.pulseDraw s.draws (.clkDiv n))) ∧
    (∀ q : Fin 2, (setupProgram v p u.snapshotChecksum).regs.clkSel[q] = Config.pulseDraw s.draws (.clkSel q)) ∧
    (setupProgram v p u.snapshotChecksum).regs.irqEn =
      truncBits s.params.irqRawBits (Config.pulseDraw s.draws .irqEn) := by
  have hw := setupProgram_writes v p u.snapshotChecksum
  refine ⟨fun n => ?_, fun q => ?_, (hw.irqEn id).trans (hu.tables.irqEn id)⟩
  · rw [hw.clkDiv fun _ => id, State.snapshotChecksum_regs, hu.tables.clkDiv fun _ => id]
    exact Vector.getElem_ofFn _
  · rw [hw.clkSel fun _ => id, State.snapshotChecksum_regs, hu.tables.clkSel fun _ => id]
    exact Vector.getElem_ofFn _

theorem isClkDivField_late (f : RegField) (h : isClkDivField f) : isLateField f := by
  cases f with
  | clkDiv => trivial
  | _ => exact h.elim

/-- A SETUP whose solver raises a status ends with it, the dividers written before it kept (R349, third row). -/
theorem setup_solver_raised {c : Status} {written : List Cluster} (h : SetupSolves p s v)
    (hraises : SolverRaises v.sigDef0 v.sigDef1 p.clockFreq.toNat c written) :
    ∃ t, exec (.setup p) s = .next t ∧ t.output.status = some c ∧ t.drv = failedSetupDriver p s v ∧
      SetupProgrammed p s v t ∧ HoldsDividers p.clockFreq.toNat written s t.regs ∧
      (∀ q : Fin 2, t.regs.clkSel[q] = Config.pulseDraw s.draws (.clkSel q)) ∧
      t.regs.irqEn = truncBits s.params.irqRawBits (Config.pulseDraw s.draws .irqEn) := by
  obtain ⟨u, htables, hpage0, hpage1, hrun⟩ :=
    setup_reaches_solver h.wellFormed h.valid h.base h.resolves.1 h.resolves.2
  have hu : TablesCompiled p s v u := ⟨htables, hpage0, hpage1⟩
  have hw := setupProgram_writes v p u.snapshotChecksum
  have hdrv : (setupProgram v p u.snapshotChecksum).drv = failedSetupDriver p s v := hw.drv.trans htables.drv
  have hpar : (setupProgram v p u.snapshotChecksum).params = s.params := hw.params.trans htables.params
  have hfreq : (setupProgram v p u.snapshotChecksum).drv.workingFreq = p.clockFreq := by rw [hdrv]; rfl
  obtain ⟨hfreeDiv, hfreeSel, hfreeIrq⟩ := setupProgram_undecided hu
  rw [← hfreq] at hraises
  obtain ⟨t, ht, hdividers, hcodes, hunused⟩ := solveClocks_raised hraises
  rw [hfreq, hpar] at hcodes
  refine ⟨t.finish c, ?_, rfl, hdividers.drv.trans hdrv, ?_, ⟨hcodes, fun n hn => (hunused n hn).trans (hfreeDiv n)⟩,
    fun q => ?_, (hdividers.irqEn id).trans hfreeIrq⟩
  · rw [hrun, setupClocks, ht, Flow.andThen_raised, Flow.andThen_raised, Flow.result_raised]
  · have hlate := (hdividers.mono isClkDivField_late).late
    exact setupProgrammed_of_late (setupProgram_setupProgrammed (validate_ok h.valid) hu) hlate
      (congrArg DriverState.workingFreq hdividers.drv) (congrArg DriverState.mainClockDivider hdividers.drv)
      hdividers.params hdividers.checksum
  · exact (congrArg (·[q]) (hdividers.clkSel fun _ => id)).trans (hfreeSel q)

end

/-- Settles O47: the loop stops at the first divider that is refused, and SETUP at the status its solver raises. -/
theorem solverErrorKeepsTheEarlierWrites : Obligations.SolverErrorKeepsTheEarlierWrites := by
  refine ⟨fun f done bad rest s hlen hdone hbad => ?_, fun p s v c written h hraises => setup_solver_raised h hraises⟩
  obtain ⟨t, ht, hwrites, hcodes, hunused⟩ := writeDividers_raised s hlen hdone hbad
  exact ⟨t, ht, hwrites.drv, hwrites.onlyClkDiv, hcodes, hunused⟩

/-! ### The clock select (R128, R227) -/

/-- Accepted definitions type only the CTEP, RCS and RFS outputs Clock (R172). -/
theorem clockOutput_of_checkSigDefs {L : List SigDef} (h : checkSigDefs L = .ok ()) :
    ∀ x ∈ L, x.signalType = 2 → 4 ≤ x.outputSignal.toNat ∧ x.outputSignal.toNat ≤ 13 := by
  obtain ⟨-, -, hspt, -, hflex⟩ := (signalDefinitionCheckReportsTheFirstFault L).1.1 h
  intro x hx hclock
  have hnotSpt : ¬ x.outputSignal.toNat ≤ 3 := fun hle => by
    rcases hspt x hx hle with h | h <;> exact absurd (hclock.symm.trans h) (by decide)
  have hnotFlex : ¬ 14 ≤ x.outputSignal.toNat := fun hle => absurd (hclock.symm.trans (hflex x hx hle)) (by decide)
  omega

/-- The definitions each table slot is programmed with are accepted ones, or none. -/
theorem definitionsOf_accepted {par : Params} {p : InitParams} {v : Plan} (hv : Accepted par p v) (spans : Bool)
    (q : Fin 2) : checkSigDefs (definitionsOf v.sigDef0 v.sigDef1 spans q) = .ok () := by
  unfold definitionsOf secondDefs
  split_ifs
  · exact hv.defs0
  · exact hv.defs0
  · cases hsecond : v.sigDef1 with
    | none => rfl
    | some L => exact hv.sigDef1_accepted hsecond

/-- CLKSEL of both table slots, bit by bit. -/
theorem programClockSelect_bits {sd0 : List SigDef} {sd1 : Option (List SigDef)} {spans : Bool} {q : Fin 2} (s : State)
    (h : checkSigDefs (definitionsOf sd0 sd1 spans q) = .ok ()) {b : Nat} (hb : b < 32) :
    ((programClockSelect sd0 sd1 spans s).regs.clkSel[q]).getLsbD b =
      clkSelBit s.drv (definitionsOf sd0 sd1 spans q) b := by
  have hvalue : (programClockSelect sd0 sd1 spans s).regs.clkSel[q] =
      clkSelValue s.drv (definitionsOf sd0 sd1 spans q) := by
    rcases page_cases q with rfl | rfl
    · exact (getElem_set_other _ (i := 1) (j := 0) _ (by decide)).trans (Vector.getElem_set_self _)
    · exact Vector.getElem_set_self _
  rw [hvalue]
  exact clkSelValue_bits s.drv _ (clockOutput_of_checkSigDefs h) hb

/-- The clock select that SETUP leaves, for the clusters the driver state then keeps. -/
theorem setupSelected_bits {par : Params} {p : InitParams} {v : Plan} (hv : Accepted par p v) (cs : List Cluster)
    (w : State) (q : Fin 2) {b : Nat} (hb : b < 32) :
    ((setupSelected v cs w).regs.clkSel[q]).getLsbD b =
      clkSelBit (setupSelected v cs w).drv (slotDefinitions v.sigDef0 v.sigDef1 v.table0.length q) b := by
  have hsome : v.table1.isSome = v.sigDef1.isSome := by simp [Plan.table1, Plan.sigDef1]
  rw [slotDefinitions_eq _ _ hsome]
  exact programClockSelect_bits _ (definitionsOf_accepted hv _ q) hb

/-- Settles O50: the interrupts and the commit change neither the clock select nor the clusters. -/
theorem clockSelectHoldsEachOutputsCluster : Obligations.ClockSelectHoldsEachOutputsCluster := by
  intro p s v cs h
  obtain ⟨u, w, hr⟩ := setup_runs h.wellFormed h.valid h.base h.resolves.1 h.resolves.2 h.clocks h.dividers
  refine ⟨_, hr.ends h.irq, fun q b hb => ?_⟩
  split_ifs <;> exact setupSelected_bits hr.accepted cs w q hb

end Sys2Proof.Machine
end

section
/-! O28, O29, O52 and O53: the table compiler (R250–R270). The faults of an event's actions are searched in list order;
the slots a compile leaves, whether it got through or was stopped, are read off the laws of the compiler, and the commands
carry them to their end. -/

namespace Sys2Proof.Machine

open Sys2Proof.Claims

/-! ### The tick delta (R264) -/

/-- Settles O53: the difference of two words is 0 exactly when they are equal. -/
theorem tickDeltaIsTheDifferenceNeverZero : Obligations.TickDeltaIsTheDifferenceNeverZero := by
  intro prev tick
  have hzero : BitVec.ofNat 32 tick - BitVec.ofNat 32 prev = 0 ↔ tick % 2 ^ 32 = prev % 2 ^ 32 := by
    rw [BitVec.sub_eq_iff_eq_add, zero_add, ← BitVec.toNat_inj, BitVec.toNat_ofNat, BitVec.toNat_ofNat]
  unfold tickDelta
  dsimp only
  by_cases heq : tick % 2 ^ 32 = prev % 2 ^ 32
  · rw [if_pos (hzero.2 heq)]
    exact ⟨by decide, fun _ => rfl, fun hne => absurd heq hne⟩
  · rw [if_neg (mt hzero.1 heq)]
    refine ⟨mt hzero.1 heq, fun h => absurd h heq, fun _ => ?_⟩
    rw [BitVec.toNat_sub, BitVec.toNat_ofNat, BitVec.toNat_ofNat]
    omega

/-! ### The first action that does not resolve (R255, R257–R259) -/

section

variable {par : Params} {sd : List SigDef} {a : Action} {c : Status}

theorem isStateCode_iff {v : U32} : isStateCode v = true ↔ v.toNat ≤ 3 := decide_eq_true_iff

theorem lookupDef_eq_none_iff {e : U32} : lookupDef sd e = none ↔ ¬ ∃ d ∈ sd, d.outputSignal = e := by
  simp [lookupDef]

theorem flexMask_error_iff : flexMask par a = .error c ↔ c = .sigOutStateWrg ∧ 3 < a.newState.toNat := by
  unfold flexMask
  obtain hstate | hstate := le_or_gt a.newState.toNat 3
  · simp [isStateCode_iff.2 hstate, hstate.not_gt]
  · simp [isStateCode_iff.not.2 hstate.not_ge, hstate, eq_comm (a := c)]

theorem definedMask_error_iff :
    definedMask sd a = .error c ↔
      (c = .sigNotDef ∧ ¬ isDefined sd a) ∨ (c = .sigOutStateWrg ∧ isDefined sd a ∧ 3 < a.newState.toNat) := by
  unfold definedMask
  cases hlookup : lookupDef sd a.outputSignal with
  | none =>
    have hundef : ¬ isDefined sd a := lookupDef_eq_none_iff.1 hlookup
    simp [hundef, eq_comm (a := c)]
  | some d =>
    have hdef : isDefined sd a := not_not.1 (mt lookupDef_eq_none_iff.2 (by simp [hlookup]))
    obtain hstate | hstate := le_or_gt a.newState.toNat 3
    · simp [isStateCode_iff.2 hstate, hstate.not_gt, hdef]
    · simp [isStateCode_iff.not.2 hstate.not_ge, hstate, hdef, eq_comm (a := c)]

/-- One action raises the status of its fault. -/
theorem actionMask_error_iff : actionMask par sd a = .error c ↔ actionFault sd a c := by
  unfold actionMask actionFault
  by_cases hflex : 14 ≤ a.outputSignal.toNat
  · rw [if_pos (isFLEX_iff.2 hflex), if_pos hflex, flexMask_error_iff]
  · rw [if_neg (mt isFLEX_iff.1 hflex), if_neg hflex, definedMask_error_iff]

theorem faultOf_eq_none {α : Type} {x : Except Status α} : faultOf x = none ↔ ∃ m, x = .ok m := by
  cases x <;> simp [faultOf]

theorem faultOf_actionMask_eq_none : faultOf (actionMask par sd a) = none ↔ ∀ c, ¬ actionFault sd a c := by
  rw [Option.eq_none_iff_forall_ne_some]
  simp only [ne_eq, faultOf_eq_some, actionMask_error_iff]

/-- The loop reports the first fault of the actions, whatever the mask it starts from. -/
theorem faultOf_resolveFrom (A : List Action) :
    ∀ mask : U64, faultOf (resolveFrom par sd mask A) = A.findSome? fun a => faultOf (actionMask par sd a) := by
  induction A with
  | nil => exact fun _ => rfl
  | cons a as ih =>
    intro mask
    rw [List.findSome?_cons]
    unfold resolveFrom
    cases actionMask par sd a with
    | error d => rfl
    | ok m => exact ih (mask ||| m)

end

/-- Settles O52: the first hit of a search, or no hit. -/
theorem firstUnresolvedActionGivesTheStatus : Obligations.FirstUnresolvedActionGivesTheStatus := by
  intro par sd A
  have hfault : faultOf (resolveActions par sd A) = A.findSome? fun a => faultOf (actionMask par sd a) :=
    faultOf_resolveFrom A 0
  refine ⟨?_, fun c => ?_⟩
  · rw [← faultOf_eq_none, hfault, List.findSome?_eq_none_iff]
    simp only [faultOf_actionMask_eq_none]
  · rw [← faultOf_eq_some, hfault, List.findSome?_eq_some_iff]
    simp only [faultOf_eq_some, actionMask_error_iff, faultOf_actionMask_eq_none, and_comm]

/-! ### The LUT of a SETUP that gets through (R251–R254, R270, R451) -/

section

variable {s t u : State} {v : Plan}

/-- The LUT, and of the driver state the frequency and the divider, are all that matters. -/
theorem setupLut_congr (h : SetupLut s v t) (hlut : u.regs.lut = t.regs.lut)
    (hfreq : u.drv.workingFreq = t.drv.workingFreq) (hdiv : u.drv.mainClockDivider = t.drv.mainClockDivider) :
    SetupLut s v u := by
  have hslot : ∀ par sd evs i, eventSlot par t.drv sd evs i = eventSlot par u.drv sd evs i := fun _ _ _ i =>
    eventSlot_congr hfreq.symm hdiv.symm i
  obtain ⟨hpage0, hsecond, hspanning, hfree⟩ := h
  simp only [firstPageSlot, secondPageSlot, hslot, ← hlut] at hpage0 hsecond hspanning hfree
  exact ⟨hpage0, hsecond, hspanning, hfree⟩

theorem Writes.setupLut {F : RegField → Prop} (hw : Writes F t u) (hF : ∀ f, F f → ¬ isLutField f)
    (h : SetupLut s v t) : SetupLut s v u :=
  setupLut_congr h (hw.lut (fun _ _ hf => hF _ hf trivial) fun _ _ hf => hF _ hf trivial)
    (congrArg DriverState.workingFreq hw.drv) (congrArg DriverState.mainClockDivider hw.drv)

theorem isClkDivField_not_lut (f : RegField) (h : isClkDivField f) : ¬ isLutField f := by
  cases f with
  | clkDiv => exact id
  | _ => exact h.elim

theorem isClkSelField_not_lut (f : RegField) (h : isClkSelField f) : ¬ isLutField f := by
  cases f with
  | clkSel => exact id
  | _ => exact h.elim

theorem setupSelected_setupLut (h : SetupLut s v t) (cs : List Cluster) : SetupLut s v (setupSelected v cs t) := by
  have hkeep : SetupLut s v (keepClusters cs t) := by
    unfold keepClusters
    split
    · exact h
    · exact setupLut_congr h rfl rfl rfl
  exact (programClockSelect_writes _ _ _ _).setupLut isClkSelField_not_lut hkeep

theorem setupEnd_setupLut (h : SetupLut s v t) (p : InitParams) : SetupLut s v (setupEnd p v t) :=
  setupLut_congr h rfl rfl rfl

end

/-- Settles O28: the programming steps find the LUT as the tables left it, and what runs after them keeps it. -/
theorem setupCompilesTheTablesIntoTheLut : Obligations.SetupCompilesTheTablesIntoTheLut := by
  intro p s v cs h
  obtain ⟨u, w, hr⟩ := setup_runs h.wellFormed h.valid h.base h.resolves.1 h.resolves.2 h.clocks h.dividers
  have hprog := setupProgram_lut ⟨hr.tables, hr.page0, hr.page1⟩
  have hsel := setupSelected_setupLut (hr.dividers.setupLut isClkDivField_not_lut hprog) cs
  refine ⟨_, hr.ends h.irq, setupEnd_setupLut ?_ p⟩
  split
  · exact hsel
  · exact setupLut_congr hsel rfl rfl rfl

/-! ### A compile that is stopped (R269) -/

/-- What a compile stopped in Table 0 after the events `done` leaves in the LUT, over the LUT `base`: page 1 is zeroed
only if 32 events were written (R253). -/
structure StoppedInTable0 (par : Params) (d : DriverState) (sd : List SigDef) (done : List CheckedEvent)
    (base lut : Lut) : Prop where
  page0 : ∀ k, lutAt lut 0 k = firstPageSlot par d sd done k
  kept : done.length < 32 → ∀ k, lutAt lut 1 k = lutAt base 1 k
  zeroed : 32 ≤ done.length → ∀ k, lutAt lut 1 k = secondPageSlot par d sd done k

/-- What one stopped in Table 1 leaves: all of Table 0, and Table 1's events `done` over the initial pattern. -/
structure StoppedInTable1 (par : Params) (d : DriverState) (sd0 sd1 : List SigDef) (evs0 done : List CheckedEvent)
    (lut : Lut) : Prop where
  page0 : ∀ k, lutAt lut 0 k = firstPageSlot par d sd0 evs0 k
  page1 : ∀ k, lutAt lut 1 k = firstPageSlot par d sd1 done k

section

variable {par : Params} {d : DriverState} {sd : List SigDef} {done post : List CheckedEvent} {ev : CheckedEvent}
  {rest : List CheckedEvent} {c : Status}

/-- The slots of the events written do not depend on the events still to come. -/
theorem firstPageSlot_append (k : Fin 32) :
    (if k.val < done.length then eventSlot par d sd (done ++ post) k.val else initialSlot k.val) =
      firstPageSlot par d sd done k := by
  unfold firstPageSlot
  split
  · next hk => exact eventSlot_append done post hk
  · rfl

theorem secondPageSlot_append (k : Fin 32) :
    (if k.val + 32 < done.length then eventSlot par d sd (done ++ post) (k.val + 32) else LutSlot.zero) =
      secondPageSlot par d sd done k := by
  unfold secondPageSlot
  split
  · next hk => exact eventSlot_append done post hk
  · rfl

theorem CompiledTo.stoppedInTable0 {s t : State}
    (h : CompiledTo sd (done ++ post) 0 done.length (decide (done.length ≥ 32)) s t) :
    StoppedInTable0 s.params s.drv sd done s.regs.lut t.regs.lut where
  page0 k := by rw [h 0 k, slotAfter, if_pos (by decide), firstPageSlot_append]
  kept hfew k := by rw [h 1 k, slotAfter, if_neg (by decide), if_neg (by simpa using hfew)]
  zeroed hmany k := by
    rw [h 1 k, slotAfter, if_neg (by decide), if_pos (decide_eq_true hmany), secondPageSlot_append]

theorem compileTables_stopped0 {t0 : CheckedTable} {second : Option (CheckedTable × List SigDef)} {s : State}
    (hfit : t0.events.length ≤ 64) (he : t0.events = done ++ ev :: rest) (hres : allResolve s.params sd done)
    (hbad : resolveActions s.params sd ev.actions = .error c) :
    ∃ u, compileTables t0 sd second s = .raised c u ∧ Writes isLutField s u ∧
      StoppedInTable0 s.params u.drv sd done s.regs.lut u.regs.lut := by
  obtain ⟨u, hu, hw, hc⟩ := compileTables_raised0 (second := second) hfit he hres hbad
  rw [he] at hc
  exact ⟨u, hu, hw, by rw [hw.drv]; exact hc.stoppedInTable0⟩

theorem compileTables_stopped1 {t0 T : CheckedTable} {sd0 : List SigDef} {s : State}
    (hfit0 : t0.events.length ≤ 32) (hfit1 : T.events.length ≤ 32) (hres0 : allResolve s.params sd0 t0.events)
    (he : T.events = done ++ ev :: rest) (hres : allResolve s.params sd done)
    (hbad : resolveActions s.params sd ev.actions = .error c) :
    ∃ u, compileTables t0 sd0 (some (T, sd)) s = .raised c u ∧ Writes isLutField s u ∧
      StoppedInTable1 s.params u.drv sd0 sd t0.events done u.regs.lut := by
  obtain ⟨u, hu, hw, hpage0, hpage1⟩ := compileTables_raised1 hfit0 hfit1 hres0 he hres hbad
  refine ⟨u, hu, hw, ?_, fun k => ?_⟩
  · rw [hw.drv]
    exact hpage0
  · rw [hw.drv, hpage1 k, he, firstPageSlot_append]

end

/-! ### The command that is stopped (R349, R353, R357) -/

/-- A SETUP whose tables raise a status ends with it, only the pulse, the checksum mode and the LUT written. -/
theorem setupStopped_of_raised {p : InitParams} {s u : State} {v : Plan} {c : Status} (h : SetupCompiles p s v)
    (hu : compileTables v.table0 v.sigDef0 v.second (setupPrepare v p (setupEntry s)) = .raised c u)
    (hw : Writes isLutField (setupPrepare v p (setupEntry s)) u) : SetupStopped p s v c (u.finish c) where
  runs := setup_stops h.wellFormed h.valid h.base hu
  status := rfl
  checksum := hw.checksum
  driver := hw.drv
  registers := hw.onlyLut

/-- An UPDATE_TABLES whose tables raise a status ends with it, only the stop, the checksum mode and the LUT written. -/
theorem updateStopped_of_raised {u : UpdateParams} {s w : State} {t0 : CheckedTable} {t1 : Option CheckedTable}
    {L0 L1 : List SigDef} {c : Status} (h : UpdateCompiles u s t0 t1 L0 L1)
    (hraised : compileTables t0 L0 (t1.map fun T => (T, L1)) (updatePrepare (t0 :: t1.toList) s.beginCommand) =
      .raised c w)
    (hw : Writes isLutField (updatePrepare (t0 :: t1.toList) s.beginCommand) w) :
    UpdateStopped u s t0 t1 c (w.finish c) where
  runs := update_stops h.wellFormed h.setUp h.presence h.valid h.snapshot0 h.snapshot1 hraised
  status := rfl
  checksum := by simp [hw.checksum, Output.empty]
  driver := by
    rw [State.finish_drv, hw.drv, updatePrepare_drv, State.beginCommand_drv, State.beginCommand_params]
    cases hstatus : s.drv.status with
    | notInit => exact absurd hstatus h.setUp
    | initialized => rfl
    | running => rfl
  registers := by
    rw [State.finish_regs, hw.onlyLut, updatePrepare_regs, State.beginCommand_drv, State.beginCommand_regs]
    cases hstatus : s.drv.status with
    | notInit => exact absurd hstatus h.setUp
    | initialized => rfl
    | running => rfl

section

variable {p : InitParams} {u : UpdateParams} {s : State} {v : Plan} {t0 T : CheckedTable} {t1 : Option CheckedTable}
  {L L0 L1 : List SigDef} {done : List CheckedEvent} {ev : CheckedEvent} {rest : List CheckedEvent} {c : Status}

/-- The LUT a SETUP compiles over is the one the pulse drew (R451). -/
theorem setupPrepare_slot (k : Fin 32) (q : Fin 2) :
    lutAt (setupPrepare v p (setupEntry s)).regs.lut q k = drawnSlot s.draws q k := by
  simp [RegImage.drawn, lutAt, drawnSlot, setupEntry]

theorem setup_stoppedInTable0 (h : SetupCompiles p s v) (he : v.table0.events = done ++ ev :: rest)
    (hres : allResolve s.params v.sigDef0 done) (hbad : resolveActions s.params v.sigDef0 ev.actions = .error c) :
    ∃ t, SetupStopped p s v c t ∧
      StoppedInTable0 s.params t.drv v.sigDef0 done (setupPrepare v p (setupEntry s)).regs.lut t.regs.lut := by
  obtain ⟨hlength, -, hfit, -⟩ := (validate_ok h.valid).fits h.wellFormed
  obtain ⟨w, hraised, hw, hstopped⟩ := compileTables_stopped0 (second := v.second)
    (s := setupPrepare v p (setupEntry s)) (hlength.trans_le hfit) he hres hbad
  exact ⟨_, setupStopped_of_raised h hraised hw, hstopped⟩

theorem setup_stoppedInTable1 (h : SetupCompiles p s v) (hsecond : v.second = some (T, L))
    (hres0 : allResolve s.params v.sigDef0 v.table0.events) (he : T.events = done ++ ev :: rest)
    (hres : allResolve s.params L done) (hbad : resolveActions s.params L ev.actions = .error c) :
    ∃ t, SetupStopped p s v c t ∧ StoppedInTable1 s.params t.drv v.sigDef0 L v.table0.events done t.regs.lut := by
  obtain ⟨hlength, -, -, hpages⟩ := (validate_ok h.valid).fits h.wellFormed
  obtain ⟨hlength1, -, hfit1, hfit0⟩ := hpages T L hsecond
  obtain ⟨w, hraised, hw, hstopped⟩ := compileTables_stopped1 (s := setupPrepare v p (setupEntry s))
    (hlength.trans_le hfit0) (hlength1.trans_le hfit1) hres0 he hres hbad
  exact ⟨_, setupStopped_of_raised h (by rw [hsecond]; exact hraised) hw, hstopped⟩

theorem update_stoppedInTable0 (h : UpdateCompiles u s t0 t1 L0 L1) (he : t0.events = done ++ ev :: rest)
    (hres : allResolve s.params L0 done) (hbad : resolveActions s.params L0 ev.actions = .error c) :
    ∃ t, UpdateStopped u s t0 t1 c t ∧ StoppedInTable0 s.params t.drv L0 done s.regs.lut t.regs.lut := by
  obtain ⟨-, hlength, -, hfit, -⟩ := validateTables_fits h.wellFormed h.valid
  have hpar : (updatePrepare (t0 :: t1.toList) s.beginCommand).params = s.params := updatePrepare_params _ _
  rw [← hpar] at hres hbad
  obtain ⟨w, hraised, hw, hstopped⟩ := compileTables_stopped0 (second := t1.map fun T => (T, L1))
    (hlength.trans_le hfit) he hres hbad
  rw [updatePrepare_regs, hpar] at hstopped
  exact ⟨_, updateStopped_of_raised h hraised hw, hstopped⟩

theorem update_stoppedInTable1 (h : UpdateCompiles u s t0 (some T) L0 L1)
    (hres0 : allResolve s.params L0 t0.events) (he : T.events = done ++ ev :: rest) (hres : allResolve s.params L1 done)
    (hbad : resolveActions s.params L1 ev.actions = .error c) :
    ∃ t, UpdateStopped u s t0 (some T) c t ∧ StoppedInTable1 s.params t.drv L0 L1 t0.events done t.regs.lut := by
  obtain ⟨-, hlength, -, -, hpages⟩ := validateTables_fits h.wellFormed h.valid
  obtain ⟨hlength1, -, hfit1, hfit0⟩ := hpages T rfl
  have hpar : (updatePrepare [t0, T] s.beginCommand).params = s.params := updatePrepare_params _ _
  rw [← hpar] at hres0 hres hbad
  obtain ⟨w, hraised, hw, hstopped⟩ := compileTables_stopped1 (hlength.trans_le hfit0) (hlength1.trans_le hfit1)
    hres0 he hres hbad
  rw [hpar] at hstopped
  exact ⟨_, updateStopped_of_raised h hraised hw, hstopped⟩

end

/-- Settles O29: each command stops where the compiler does, and keeps what the compiler has written. -/
theorem stoppedCompileKeepsThePartialLut : Obligations.StoppedCompileKeepsThePartialLut := by
  refine fun done ev rest c => ⟨fun p s v h => ⟨fun he hres hbad => ?_, fun T L hsecond hres0 he hres hbad => ?_⟩,
    fun u s t0 t1 L0 L1 h => ⟨fun he hres hbad => ?_, fun T hT hres0 he hres hbad => ?_⟩⟩
  · obtain ⟨t, hstop, hpage0, hkept, hzeroed⟩ := setup_stoppedInTable0 h he hres hbad
    exact ⟨t, hstop, hpage0, fun hfew k => (hkept hfew k).trans (setupPrepare_slot k 1), hzeroed⟩
  · obtain ⟨t, hstop, hpage0, hpage1⟩ := setup_stoppedInTable1 h hsecond hres0 he hres hbad
    exact ⟨t, hstop, hpage0, hpage1⟩
  · obtain ⟨t, hstop, hpage0, hkept, hzeroed⟩ := update_stoppedInTable0 h he hres hbad
    exact ⟨t, hstop, hpage0, hkept, hzeroed⟩
  · subst hT
    obtain ⟨t, hstop, hpage0, hpage1⟩ := update_stoppedInTable1 h hres0 he hres hbad
    exact ⟨t, hstop, hpage0, hpage1⟩

end Sys2Proof.Machine
end

section
/-! O4, O5, O8–O13, O23, O24, O56 and O57: the step, the five commands without a record, and the two others where they stop
before their first write. Each command is a body that control flow alone leads to its end, so that the state it returns is
written out; later proofs cite these results and do not run the bodies again. -/

namespace Sys2Proof.Machine

open Sys2Proof.Claims

/-! ### A whole command -/

/-- A body that raises a status at once has done nothing. -/
theorem beginCommand_finish (c : Status) (s : State) : s.beginCommand.finish c = returned c none [] s := rfl

theorem runCommand_of_go {body : State → Flow} {s t : State} (h : body s.beginCommand = .go t) :
    runCommand body s = t.finish .ok := by
  rw [runCommand, h, Flow.result_go]

theorem runCommand_of_raised {body : State → Flow} {s t : State} {c : Status}
    (h : body s.beginCommand = .raised c t) : runCommand body s = t.finish c := by
  rw [runCommand, h, Flow.result_raised]

/-- A body behind the NotInit guard (R323): not run in NotInit, and run as it is otherwise. -/
theorem guarded_notInit {s : State} (h : s.drv.status = .notInit) (k : State → Flow) :
    (guardInitialized s).andThen k = .raised .notInitialized s := by
  rw [guardInitialized_notInit h, Flow.andThen_raised]

theorem guarded_setUp {s : State} (h : s.drv.status ≠ .notInit) (k : State → Flow) :
    (guardInitialized s).andThen k = k s := by
  rw [guardInitialized_setUp h, Flow.andThen_go]

/-- A guarded command in NotInit returns NOT_INITIALIZED and does nothing. -/
theorem runCommand_guarded_notInit {s : State} (h : s.drv.status = .notInit) (k : State → Flow) :
    runCommand (fun s => (guardInitialized s).andThen k) s = returned .notInitialized none [] s :=
  runCommand_of_raised (body := fun s => (guardInitialized s).andThen k) (guarded_notInit (s := s.beginCommand) h k)

/-! ### The step (R320, R365) -/

theorem step_of_command {s : State} {c : Command} {env : Env} {rest : List InputItem} (hrun : s.halted = false)
    (hin : s.input = .command c env :: rest) : step s = runPort c (s.takeInput env rest) := by
  unfold step serveInput
  rw [hrun, hin]
  rfl

/-- Settles O4: the decoder rejects the word (O3), and the answer is a body that raises the status at once. -/
theorem illegalWordIsAnsweredAndWritesNothing : Obligations.IllegalWordIsAnsweredAndWritesNothing := by
  intro s c env rest hrun hin hillegal
  obtain ⟨e, he⟩ := (otherWordsAreRejectedByName c).1.1 hillegal
  rw [step_of_command hrun hin, runPort, he]
  rfl

/-- Settles O5: the item's word is decoded in the state that has taken it off the stream. -/
theorem stepRunsTheDecodedCommandOrWaits : Obligations.StepRunsTheDecodedCommandOrWaits := by
  refine ⟨fun s c env rest i hrun hin hdecode => ?_, fun s hrun hin => ?_⟩
  · rw [step_of_command hrun hin, runPort, hdecode]
    rfl
  · rw [step, hrun, serveInput, hin]
    rfl

/-! ### START, STOP and RESTART (R360–R362) -/

section

variable {s : State}

/-- START, by the driver status and, in Running, the engine's report. -/
theorem startBody_initialized (h : s.drv.status = .initialized) :
    startBody s = .go ((s.write .ctrlEn 1).setStatus .running) := by
  rw [startBody, guarded_setUp (by simp [h]), if_pos h]

theorem startBody_executing (h : s.drv.status = .running) (hexec : s.env.statusExec = 1) :
    startBody s = .raised .drvRunning s := by
  rw [startBody, guarded_setUp (by simp [h]), if_neg (by simp [h]), if_pos hexec]

theorem startBody_finished (h : s.drv.status = .running) (hexec : s.env.statusExec ≠ 1) :
    startBody s = .go ((s.write .ctrlEn 0).write .ctrlEn 1) := by
  rw [startBody, guarded_setUp (by simp [h]), if_neg (by simp [h]), if_neg hexec]

/-- STOP, by the driver status. -/
theorem stopBody_notInit (h : s.drv.status = .notInit) : stopBody s = .raised .notInitialized s := guarded_notInit h _

theorem stopBody_initialized (h : s.drv.status = .initialized) : stopBody s = .raised .notRunning s := by
  rw [stopBody, guarded_setUp (by simp [h]), if_pos h]

theorem stopBody_running (h : s.drv.status = .running) :
    stopBody s = .go ((s.write .ctrlEn 0).setStatus .initialized) := by
  rw [stopBody, guarded_setUp (by simp [h]), if_neg (by simp [h])]

/-- RESTART is over once STOP has raised a status. -/
theorem restartBody_of_stopBody {c : Status} {t : State} (h : stopBody s = .raised c t) :
    restartBody s = .raised c t := by
  rw [restartBody, h, Flow.andThen_raised]

/-- RESTART from Running: STOP has left Initialized, so START enables the engine. -/
theorem restartBody_running (h : s.drv.status = .running) :
    restartBody s =
      .go ((((s.write .ctrlEn 0).setStatus .initialized).write .ctrlEn 1).setStatus .running) := by
  rw [restartBody, stopBody_running h, Flow.andThen_go]
  exact startBody_initialized rfl

/-- Setting the driver status to the one it has changes nothing. -/
theorem withStatus_same {d : DrvStatus} (h : s.drv.status = d) : withStatus d s = s := by
  subst h
  rfl

end

/-- Settles O9: one case per driver status, and in Running one per report. -/
theorem startEnablesTheEngine : Obligations.StartEnablesTheEngine := by
  intro s
  refine congrArg Host.Outcome.next (?_ : runCommand startBody s = _)
  cases hs : s.drv.status with
  | notInit => exact runCommand_guarded_notInit hs _
  | initialized => exact runCommand_of_go (startBody_initialized (s := s.beginCommand) hs)
  | running =>
    by_cases hexec : s.env.statusExec = 1
    · simp only [if_pos hexec]
      exact runCommand_of_raised (startBody_executing (s := s.beginCommand) hs hexec)
    · simp only [if_neg hexec]
      exact runCommand_of_go (startBody_finished (s := s.beginCommand) hs hexec)

/-- Settles O10: one case per driver status. -/
theorem stopDisablesTheEngine : Obligations.StopDisablesTheEngine := by
  intro s
  refine congrArg Host.Outcome.next (?_ : runCommand stopBody s = _)
  cases hs : s.drv.status with
  | notInit => exact runCommand_of_raised (stopBody_notInit (s := s.beginCommand) hs)
  | initialized => exact runCommand_of_raised (stopBody_initialized (s := s.beginCommand) hs)
  | running => exact runCommand_of_go (stopBody_running (s := s.beginCommand) hs)

/-- Settles O11: STOP's status ends the command, or START runs from where STOP left the driver. -/
theorem restartIsStopThenStart : Obligations.RestartIsStopThenStart := by
  intro s
  refine congrArg Host.Outcome.next (?_ : runCommand restartBody s = _)
  cases hs : s.drv.status with
  | notInit => exact runCommand_of_raised (restartBody_of_stopBody (stopBody_notInit (s := s.beginCommand) hs))
  | initialized => exact runCommand_of_raised (restartBody_of_stopBody (stopBody_initialized (s := s.beginCommand) hs))
  | running =>
    have hsame : withStatus .running (withEnable 1 s) = withEnable 1 s := withStatus_same hs
    rw [runCommand_of_go (restartBody_running (s := s.beginCommand) hs)]
    dsimp only
    rw [← hsame]
    rfl

/-! ### RFS_GENERATE and GET_LUT_CHECKSUM (R363, R364) -/

/-- A Slave mode is the code 1 or 2 (R118). -/
theorem isSlave_eq_false_iff (m : BitVec 2) : isSlave m.toNat = false ↔ m ≠ 1 ∧ m ≠ 2 := by
  simp [isSlave, BitVec.toNat_eq]

/-- RFS_GENERATE past its guard: the mode is checked before Running. -/
theorem rfsGenerateBody_notSlave {s : State} (h : s.drv.status ≠ .notInit) (hmode : s.regs.mode ≠ 1 ∧ s.regs.mode ≠ 2) :
    rfsGenerateBody s = .raised .notSlaveMode s := by
  rw [rfsGenerateBody, guarded_setUp h, if_pos (by simp [(isSlave_eq_false_iff _).2 hmode])]

theorem rfsGenerateBody_slave {s : State} (h : s.drv.status ≠ .notInit) (hmode : ¬(s.regs.mode ≠ 1 ∧ s.regs.mode ≠ 2)) :
    rfsGenerateBody s = if s.drv.status ≠ .running then .raised .notRunning s else .go (s.write .rfsGen 1) := by
  rw [rfsGenerateBody, guarded_setUp h, if_neg (by simpa using mt (isSlave_eq_false_iff _).1 hmode)]

/-- Settles O12: the checks are the body's, in its order. -/
theorem rfsGenerateEmitsOneEvent : Obligations.RfsGenerateEmitsOneEvent := by
  intro s
  refine congrArg Host.Outcome.next (?_ : runCommand rfsGenerateBody s = _)
  split_ifs with hs hmode hrun
  · exact runCommand_guarded_notInit hs _
  · exact runCommand_of_raised (rfsGenerateBody_notSlave (s := s.beginCommand) hs hmode)
  · exact runCommand_of_raised ((rfsGenerateBody_slave (s := s.beginCommand) hs hmode).trans (if_pos hrun))
  · exact runCommand_of_go ((rfsGenerateBody_slave (s := s.beginCommand) hs hmode).trans (if_neg hrun))

/-- Bits 7:0 of a word, zero-extended, are the word's bits 7:0. -/
theorem setWidth_setWidth_byte (v : U32) : ((v.setWidth 8).setWidth 32).setWidth 8 = v.setWidth 8 := by
  apply BitVec.eq_of_toNat_eq
  simp only [BitVec.toNat_setWidth]
  omega

/-- The checksum that is read is the two registers' forty bits (R63, R82, R133). -/
theorem readChecksum_eq (s : State) : s.readChecksum = checksumOf s := by
  unfold checksumOf
  split_ifs with hon
  · exact readChecksum_on hon
  · rw [State.readChecksum, State.chksumHi, State.chksumLo, if_neg hon, if_neg hon, joinChecksum, setWidth_setWidth_byte]

theorem chksumHi_lt (s : State) : s.chksumHi.toNat < 2 ^ 8 := by
  unfold State.chksumHi
  split_ifs
  · have hx := (Config.lutChecksum s.regs.lut).isLt
    rw [BitVec.toNat_setWidth, BitVec.toNat_ushiftRight, Nat.shiftRight_eq_div_pow]
    omega
  · rw [BitVec.toNat_setWidth, BitVec.toNat_setWidth]
    omega

theorem chksumHi_chksumLo {s : State} (hon : s.regs.chksumEn = 1) :
    s.chksumHi.toNat * 2 ^ 32 + s.chksumLo.toNat = (Config.lutChecksum s.regs.lut).toNat := by
  have hx := (Config.lutChecksum s.regs.lut).isLt
  rw [State.chksumHi, State.chksumLo, if_pos hon, if_pos hon, BitVec.toNat_setWidth, BitVec.toNat_setWidth,
    BitVec.toNat_ushiftRight, Nat.shiftRight_eq_div_pow]
  omega

/-- Settles O13: the snapshot is all the command does. -/
theorem getLutChecksumReadsTheRegisters : Obligations.GetLutChecksumReadsTheRegisters := by
  intro s
  refine ⟨?_, chksumHi_lt s, chksumHi_chksumLo⟩
  rw [← readChecksum_eq]
  rfl

/-! ### SETUP and UPDATE_TABLES, stopped before their first write (R323, R332, R333, R351, R352) -/

theorem exec_setup_of_wf {p : InitParams} (hwf : p.wf = true) (s : State) :
    exec (.setup p) s = .next (runCommand (setupBody p) s) := if_pos hwf

theorem exec_updateTables_of_wf {u : UpdateParams} (hwf : u.wf = true) (s : State) :
    exec (.updateTables u) s = .next (runCommand (updateBody u) s) := if_pos hwf

/-- Settles O23: the validator comes right after the driver status has been set (R331). -/
theorem setupWithInvalidParametersChangesOnlyTheStatus : Obligations.SetupWithInvalidParametersChangesOnlyTheStatus := by
  intro p s c hwf hinvalid
  have hbody : setupBody p s.beginCommand = .raised c (s.beginCommand.setStatus .notInit) := by
    rw [setupBody]
    simp only [State.setStatus_params, State.beginCommand_params, hinvalid]
  rw [exec_setup_of_wf hwf, runCommand_of_raised hbody]
  rfl

/-- Settles O24: the collaborator is asked once the record is valid. -/
theorem setupWithoutRegisterBase : Obligations.SetupWithoutRegisterBase := by
  intro p s v hwf hvalid hbase
  have hbody : setupBody p s.beginCommand = .raised .regBaseNull (setupEntry s) := by
    rw [setupBody]
    simp only [State.setStatus_params, State.beginCommand_params, hvalid, State.emit_env, State.setStatus_env,
      State.beginCommand_env, hbase]
    rfl
  rw [exec_setup_of_wf hwf, runCommand_of_raised hbody]
  rfl

/-- Settles O8: each of the five bodies begins with the guard. -/
theorem guardedCommandsRefuseBeforeSetup : Obligations.GuardedCommandsRefuseBeforeSetup := by
  rintro i s hs (rfl | rfl | rfl | rfl | ⟨u, rfl, hwf⟩)
  · rw [startEnablesTheEngine s, hs]
  · rw [stopDisablesTheEngine s, hs]
  · rw [restartIsStopThenStart s, hs]
  · rw [rfsGenerateEmitsOneEvent s, if_pos hs]
  · rw [exec_updateTables_of_wf hwf]
    exact congrArg Host.Outcome.next (runCommand_guarded_notInit hs _)

/-- Settles O56: the presence check follows the guard. -/
theorem updateRefusesAChangeOfTableMode : Obligations.UpdateRefusesAChangeOfTableMode := by
  intro u s hwf hs hdiffers
  have hpresence : table1PresenceDiffers u s.drv = true := by simpa [table1PresenceDiffers] using hdiffers
  have hbody : updateBody u s.beginCommand = .raised .wrgPtrTable1 s.beginCommand := by
    rw [updateBody, guarded_setUp (s := s.beginCommand) hs]
    exact if_pos hpresence
  rw [exec_updateTables_of_wf hwf, runCommand_of_raised hbody, beginCommand_finish]

/-- Settles O57: the tables are checked once their presence is right, before the engine is stopped. -/
theorem updateWithInvalidTablesChangesNothing : Obligations.UpdateWithInvalidTablesChangesNothing := by
  intro u s c hwf hs hpresent hinvalid
  have hpresence : table1PresenceDiffers u s.drv = false := by simpa [table1PresenceDiffers] using hpresent
  have hbody : updateBody u s.beginCommand = .raised c s.beginCommand := by
    rw [updateBody, guarded_setUp (s := s.beginCommand) hs]
    simp only [State.beginCommand_drv, hpresence, hinvalid]
    rfl
  rw [exec_updateTables_of_wf hwf, runCommand_of_raised hbody, beginCommand_finish]

end Sys2Proof.Machine
end

section
/-! O15, O17, O20 and O30: what the exact results of the five commands without a record, and the case analyses of SETUP and
UPDATE_TABLES, say of every command: its cell of the state table (R322), and who writes the engine enable. -/

namespace Sys2Proof.Machine

open Sys2Proof.Claims

/-! ### The state table (R322) -/

/-- The command from `s` to `t` is a cell of the state table. -/
def FollowsTable (i : Instr) (s t : State) : Prop :=
  ∃ c, t.output.status = some c ∧ allowedCell i s.drv.status c t.drv.status = true

theorem followsTable_of_cell {i : Instr} {s t : State} {c : Status} {before after : DrvStatus}
    (hstatus : t.output.status = some c) (hbefore : s.drv.status = before) (hafter : t.drv.status = after)
    (hcell : allowedCell i before c after = true) : FollowsTable i s t :=
  ⟨c, hstatus, by rw [hbefore, hafter, hcell]⟩

/-- The statuses of every class but success and the warning are errors (R403). -/
theorem isErrorStatus_of_class {c : Status} (hok : statusClass c ≠ .success) (hwarn : statusClass c ≠ .warning) :
    isErrorStatus c = true := by
  cases c with
  | ok => exact absurd rfl hok
  | drvRunning => exact absurd rfl hwarn
  | _ => rfl

theorem start_followsTable {s t : State} (h : exec .start s = .next t) : FollowsTable .start s t := by
  rw [startEnablesTheEngine s] at h
  cases hs : s.drv.status with
  | notInit => rw [hs] at h; cases h; exact followsTable_of_cell rfl hs hs rfl
  | initialized => rw [hs] at h; cases h; exact followsTable_of_cell rfl hs rfl rfl
  | running =>
    simp only [hs] at h
    split_ifs at h
    · cases h; exact followsTable_of_cell rfl hs hs rfl
    · cases h; exact followsTable_of_cell rfl hs hs rfl

theorem stop_followsTable {s t : State} (h : exec .stop s = .next t) : FollowsTable .stop s t := by
  rw [stopDisablesTheEngine s] at h
  cases hs : s.drv.status with
  | notInit => rw [hs] at h; cases h; exact followsTable_of_cell rfl hs hs rfl
  | initialized => rw [hs] at h; cases h; exact followsTable_of_cell rfl hs hs rfl
  | running => rw [hs] at h; cases h; exact followsTable_of_cell rfl hs rfl rfl

theorem restart_followsTable {s t : State} (h : exec .restart s = .next t) : FollowsTable .restart s t := by
  rw [restartIsStopThenStart s] at h
  cases hs : s.drv.status with
  | notInit => rw [hs] at h; cases h; exact followsTable_of_cell rfl hs hs rfl
  | initialized => rw [hs] at h; cases h; exact followsTable_of_cell rfl hs hs rfl
  | running => rw [hs] at h; cases h; exact followsTable_of_cell rfl hs hs rfl

theorem rfsGenerate_followsTable {s t : State} (h : exec .rfsGenerate s = .next t) : FollowsTable .rfsGenerate s t := by
  rw [rfsGenerateEmitsOneEvent s] at h
  split_ifs at h with hs hmode hrun
  · cases h
    exact followsTable_of_cell rfl hs hs rfl
  · cases h
    cases hstatus : s.drv.status with
    | notInit => exact absurd hstatus hs
    | initialized => exact followsTable_of_cell rfl hstatus hstatus rfl
    | running => exact followsTable_of_cell rfl hstatus hstatus rfl
  · cases h
    cases hstatus : s.drv.status with
    | notInit => exact absurd hstatus hs
    | initialized => exact followsTable_of_cell rfl hstatus hstatus rfl
    | running => exact absurd hstatus hrun
  · cases h
    have hrunning := not_not.1 hrun
    exact followsTable_of_cell rfl hrunning hrunning rfl

theorem getLutChecksum_followsTable {s t : State} (h : exec .getLutChecksum s = .next t) :
    FollowsTable .getLutChecksum s t := by
  rw [(getLutChecksumReadsTheRegisters s).1] at h
  cases h
  exact followsTable_of_cell rfl rfl rfl (decide_eq_true ⟨rfl, rfl⟩)

/-- A SETUP that raises an error status ends in NotInit. -/
theorem setup_followsTable_of_error {p : InitParams} {s t : State} {c : Status} (hstatus : t.output.status = some c)
    (hafter : t.drv.status = .notInit) (hok : statusClass c ≠ .success) (hwarn : statusClass c ≠ .warning) :
    FollowsTable (.setup p) s t :=
  followsTable_of_cell hstatus rfl hafter (by simp [allowedCell, isErrorStatus_of_class hok hwarn])

theorem setup_followsTable {p : InitParams} {s t : State} (h : exec (.setup p) s = .next t) :
    FollowsTable (.setup p) s t := by
  obtain ⟨_, ⟨c, hinvalid, rfl⟩ | ⟨v, _, ⟨_, rfl⟩ | ⟨_, u, hu, rfl | ⟨c, hc, rfl⟩⟩⟩⟩ := setup_cases h
  · have hclass := validate_status s.params p c hinvalid
    exact setup_followsTable_of_error rfl rfl (by simp [hclass]) (by simp [hclass])
  · exact setup_followsTable_of_error rfl rfl nofun nofun
  · exact followsTable_of_cell rfl rfl rfl rfl
  · have hnotInit : u.drv.status = .notInit := hu.status
    obtain hc | hc | rfl := hc
    · exact setup_followsTable_of_error rfl hnotInit (by simp [hc]) (by simp [hc])
    · exact setup_followsTable_of_error rfl hnotInit (by simp [hc]) (by simp [hc])
    · exact setup_followsTable_of_error rfl hnotInit nofun nofun

/-- UPDATE_TABLES raises class (a) before it stops the engine, and class (d) after (R351–R357). -/
theorem update_followsTable_of_parameter {u : UpdateParams} {s t : State} {c : Status} (hs : s.drv.status ≠ .notInit)
    (hstatus : t.output.status = some c) (hafter : t.drv.status = s.drv.status) (hc : statusClass c = .parameter) :
    FollowsTable (.updateTables u) s t := by
  have herror : isErrorStatus c = true := isErrorStatus_of_class (by simp [hc]) (by simp [hc])
  refine followsTable_of_cell hstatus rfl hafter ?_
  cases hbefore : s.drv.status with
  | notInit => exact absurd hbefore hs
  | initialized => simp [allowedCell, herror]
  | running => simp [allowedCell, hc]

theorem update_followsTable_of_stopped {u : UpdateParams} {s t : State} {c : Status} (hs : s.drv.status ≠ .notInit)
    (hstatus : t.output.status = some c) (hafter : t.drv.status = .initialized)
    (hc : c = .ok ∨ statusClass c = .actionMapping) : FollowsTable (.updateTables u) s t := by
  refine followsTable_of_cell hstatus rfl hafter ?_
  cases hbefore : s.drv.status with
  | notInit => exact absurd hbefore hs
  | initialized =>
    obtain rfl | hc := hc
    · rfl
    · simp [allowedCell, isErrorStatus_of_class (c := c) (by simp [hc]) (by simp [hc])]
  | running =>
    obtain rfl | hc := hc
    · rfl
    · simp [allowedCell, hc]

/-- UPDATE_TABLES has stopped the engine when its compiler runs (R353). -/
theorem updateCompiled_status {s w : State} {T : List CheckedTable} (hs : s.drv.status ≠ .notInit)
    (hw : Writes isLutField (updatePrepare T s.beginCommand) w) : w.drv.status = .initialized := by
  rw [hw.drv, updatePrepare_drv]
  exact stoppedStatus_setUp hs

theorem update_followsTable {u : UpdateParams} {s t : State} (h : exec (.updateTables u) s = .next t) :
    FollowsTable (.updateTables u) s t := by
  obtain ⟨_, ⟨hs, rfl⟩ | ⟨hs, ⟨c, hc, rfl⟩ | ⟨t0, t1, _, _, hrun⟩⟩⟩ := update_cases h
  · exact followsTable_of_cell rfl hs hs rfl
  · exact update_followsTable_of_parameter hs rfl rfl hc
  · obtain ⟨w, x, _, _, rfl⟩ | ⟨c, w, hc, hw, rfl⟩ := hrun
    · exact update_followsTable_of_stopped hs rfl rfl (.inl rfl)
    · exact update_followsTable_of_stopped hs rfl (updateCompiled_status (w := w) hs hw) (.inr hc)

/-- Settles O15: each command by its own result. -/
theorem everyCommandFollowsTheStateTable : Obligations.EveryCommandFollowsTheStateTable := by
  intro i s t h
  cases i with
  | setup p => exact setup_followsTable h
  | start => exact start_followsTable h
  | stop => exact stop_followsTable h
  | restart => exact restart_followsTable h
  | rfsGenerate => exact rfsGenerate_followsTable h
  | updateTables u => exact update_followsTable h
  | getLutChecksum => exact getLutChecksum_followsTable h

/-! ### The engine enable (R335, R348, R349, R353, R360, R362) -/

/-- The command has not enabled the engine. -/
def NeverEnables (s : State) : Prop := Effect.write .ctrlEn 1 ∉ s.output.effects

theorem Programs.neverEnables {s t : State} (h : Programs s t) (hs : NeverEnables s) : NeverEnables t := by
  obtain ⟨es, heffects, hes⟩ := h.effects
  unfold NeverEnables
  rw [heffects, List.mem_append, not_or]
  refine ⟨fun hmem => ?_, hs⟩
  obtain ⟨f, v, hf, he⟩ | ⟨l, c, p, he⟩ := hes _ hmem
  · cases he
    exact hf trivial
  · cases he

theorem isUpdateField_not_control (f : RegField) (h : isUpdateField f) : ¬ isControlField f := by
  cases f with
  | ctrlEn => exact h.elim
  | ctrlRst => exact h.elim
  | chksumEn => exact h.elim
  | _ => exact id

theorem stop_neverEnables {s t : State} (h : exec .stop s = .next t) : NeverEnables t := by
  rw [stopDisablesTheEngine s] at h
  cases hs : s.drv.status with
  | notInit => rw [hs] at h; cases h; simp [NeverEnables, returned]
  | initialized => rw [hs] at h; cases h; simp [NeverEnables, returned]
  | running => rw [hs] at h; cases h; simp [NeverEnables, returned]

theorem rfsGenerate_neverEnables {s t : State} (h : exec .rfsGenerate s = .next t) : NeverEnables t := by
  rw [rfsGenerateEmitsOneEvent s] at h
  split_ifs at h <;> cases h <;> simp [NeverEnables, returned]

theorem getLutChecksum_neverEnables {s t : State} (h : exec .getLutChecksum s = .next t) : NeverEnables t := by
  rw [(getLutChecksumReadsTheRegisters s).1] at h
  cases h
  simp [NeverEnables, returned]

theorem setupPrepare_neverEnables (v : Plan) (p : InitParams) (s : State) :
    NeverEnables (setupPrepare v p (setupEntry s)) := by
  simp [NeverEnables, setupEntry, Output.empty]

theorem setup_neverEnables {p : InitParams} {s t : State} (h : exec (.setup p) s = .next t) : NeverEnables t := by
  obtain ⟨_, ⟨c, _, rfl⟩ | ⟨v, _, ⟨_, rfl⟩ | ⟨_, u, hu, rfl | ⟨c, _, rfl⟩⟩⟩⟩ := setup_cases h
  · simp [NeverEnables, Output.empty]
  · simp [NeverEnables, setupEntry, Output.empty]
  · exact hu.neverEnables (setupPrepare_neverEnables v p s)
  · exact hu.neverEnables (setupPrepare_neverEnables v p s)

theorem updatePrepare_neverEnables (T : List CheckedTable) (s : State) :
    NeverEnables (updatePrepare T s.beginCommand) := by
  cases hs : s.drv.status <;> simp [NeverEnables, Output.empty, hs, stopEffects]

theorem update_neverEnables {u : UpdateParams} {s t : State} (h : exec (.updateTables u) s = .next t) :
    NeverEnables t := by
  obtain ⟨_, ⟨_, rfl⟩ | ⟨_, ⟨c, _, rfl⟩ | ⟨t0, t1, _, _, hrun⟩⟩⟩ := update_cases h
  · simp [NeverEnables, Output.empty]
  · simp [NeverEnables, Output.empty]
  · have hprep := updatePrepare_neverEnables (t0 :: t1.toList) s
    obtain ⟨w, x, hw, hx, rfl⟩ | ⟨c, w, _, hw, rfl⟩ := hrun
    · have hlut : NeverEnables w := (hw.programs isLutField_not_control).neverEnables hprep
      exact (hx.programs isUpdateField_not_control).neverEnables (s := w.snapshotChecksum) hlut
    · exact (hw.programs isLutField_not_control).neverEnables hprep

/-- Settles O17: the five other commands write 0 to the engine enable, or nothing. -/
theorem onlyStartAndRestartEnableTheEngine : Obligations.OnlyStartAndRestartEnableTheEngine := by
  intro i s t h henables
  cases i with
  | setup p => exact absurd henables (setup_neverEnables h)
  | start => exact .inl rfl
  | stop => exact absurd henables (stop_neverEnables h)
  | restart => exact .inr rfl
  | rfsGenerate => exact absurd henables (rfsGenerate_neverEnables h)
  | updateTables u => exact absurd henables (update_neverEnables h)
  | getLutChecksum => exact absurd henables (getLutChecksum_neverEnables h)

/-- From Running, the stop is the oldest effect of an update past its checks, and leaves the engine disabled. -/
theorem updatePrepare_stopped {s t : State} {T : List CheckedTable} (hs : s.drv.status = .running)
    (h : Programs (updatePrepare T s.beginCommand) t) :
    t.output.effects.getLast? = some (.write .ctrlEn 0) ∧ t.regs.ctrlEn = 0 ∧ t.drv.status = .initialized := by
  obtain ⟨es, heffects, _⟩ := h.effects
  refine ⟨?_, ?_, ?_⟩
  · rw [heffects]
    simp [hs, Output.empty]
  · rw [h.ctrlEn]
    simp [hs]
  · rw [h.status]
    simp [hs]

/-- Settles O20: what stops at the checks has written nothing, and what passes them has stopped the engine first. -/
theorem updateStopsTheEngineBeforeTheLut : Obligations.UpdateStopsTheEngineBeforeTheLut := by
  rintro u s t hs h ⟨e, he, _⟩
  obtain ⟨_, ⟨_, rfl⟩ | ⟨_, ⟨c, _, rfl⟩ | ⟨t0, t1, _, _, hrun⟩⟩⟩ := update_cases h
  · exact absurd he (List.not_mem_nil)
  · exact absurd he (List.not_mem_nil)
  · obtain ⟨w, x, hw, hx, rfl⟩ | ⟨c, w, _, hw, rfl⟩ := hrun
    · have hlut := (hw.programs isLutField_not_control).trans (snapshotChecksum_programs w)
      obtain ⟨hoff, hen, _⟩ := updatePrepare_stopped hs (hlut.trans (hx.programs isUpdateField_not_control))
      exact ⟨hoff, hen, rfl⟩
    · exact updatePrepare_stopped (t := w) hs (hw.programs isLutField_not_control)

/-- Settles O30: the statuses before the pulse are those of the validator and of the register base. -/
theorem setupLeavesTheEngineDisabledOrUntouched : Obligations.SetupLeavesTheEngineDisabledOrUntouched := by
  intro p s t c h hstatus
  obtain ⟨_, ⟨d, hinvalid, rfl⟩ | ⟨v, _, ⟨_, rfl⟩ | ⟨_, u, hu, hend⟩⟩⟩ := setup_cases h
  · cases hstatus
    rw [if_pos (.inl (validate_status s.params p c hinvalid))]
    exact ⟨rfl, rfl⟩
  · cases hstatus
    rw [if_pos (.inr rfl)]
    exact ⟨rfl, rfl⟩
  · have hpulsed : u.regs.ctrlEn = 0 ∧ u.draws = s.draws + 1 := ⟨hu.ctrlEn, hu.draws⟩
    obtain rfl | ⟨d, hd, rfl⟩ := hend
    · cases hstatus
      rw [if_neg (by decide)]
      exact hpulsed
    · cases hstatus
      rw [if_neg]
      · exact hpulsed
      · rintro (hc | rfl)
        · obtain hd | hd | rfl := hd
          · cases hc.symm.trans hd
          · cases hc.symm.trans hd
          · cases hc
        · obtain hd | hd | hd := hd <;> cases hd

end Sys2Proof.Machine
end

section
/-! O25, O26, O27 and O31: a SETUP that gets through its clocks (R345–R348). What it has then left is gathered once, at the
state its clock select leaves; from there a refused registration ends the command, and a granted or an unasked one goes on
to the commit. -/

namespace Sys2Proof.Machine

open Sys2Proof.Claims

/-! ### What the solver leaves in the driver state (R213, R224) -/

/-- The driver state that keeps the clusters `cs`: unchanged when there is none. -/
def solvedDriver (cs : List Cluster) (d : DriverState) : DriverState :=
  if cs = [] then d
  else
    { d with
      usedClockDividers := BitVec.ofNat 8 cs.length
      clockPeriods := storeFirst (cs.map Cluster.rep) d.clockPeriods
      clusterLow := storeFirst (cs.map Cluster.low) d.clusterLow }

theorem keepClusters_eq (cs : List Cluster) (s : State) :
    keepClusters cs s = { s with drv := solvedDriver cs s.drv } := by
  unfold keepClusters solvedDriver
  split <;> rfl

/-- Only the solver's three fields are written. -/
theorem solvedDriver_frame (cs : List Cluster) (d : DriverState) :
    solvedDriver cs d =
      { d with
        usedClockDividers := (solvedDriver cs d).usedClockDividers
        clockPeriods := (solvedDriver cs d).clockPeriods
        clusterLow := (solvedDriver cs d).clusterLow } := by
  unfold solvedDriver
  split <;> rfl

section

variable {cs : List Cluster} (d : DriverState)

theorem solvedDriver_used_none (h : cs = []) : (solvedDriver cs d).usedClockDividers = d.usedClockDividers := by
  rw [solvedDriver, if_pos h]

theorem solvedDriver_used (h : cs ≠ []) (hlen : cs.length ≤ 4) :
    (solvedDriver cs d).usedClockDividers.toNat = cs.length := by
  rw [solvedDriver, if_neg h, BitVec.toNat_ofNat]
  exact Nat.mod_eq_of_lt (by omega)

/-- The entries past the values that are stored keep theirs (R42). -/
theorem storeFirst_kept {vals : List Nat} {a : Vector U32 4} {j : Fin 4} (h : vals.length ≤ j.val) :
    (storeFirst vals a)[j] = a[j] := by
  simp only [storeFirst, Fin.getElem_fin, Vector.getElem_ofFn, List.getElem?_eq_none h]

theorem solvedDriver_stored {j : Fin 4} {c : Cluster} (hget : cs[j.val]? = some c)
    (hword : c.low < 2 ^ 32 ∧ c.rep < 2 ^ 32) :
    ((solvedDriver cs d).clockPeriods[j]).toNat = c.rep ∧ ((solvedDriver cs d).clusterLow[j]).toNat = c.low := by
  have hsome : cs ≠ [] := by
    rintro rfl
    cases hget
  rw [solvedDriver, if_neg hsome]
  exact ⟨storeFirst_toNat (by rw [List.getElem?_map, hget]; rfl) hword.2,
    storeFirst_toNat (by rw [List.getElem?_map, hget]; rfl) hword.1⟩

theorem solvedDriver_kept {j : Fin 4} (h : cs.length ≤ j.val) :
    (solvedDriver cs d).clockPeriods[j] = d.clockPeriods[j] ∧ (solvedDriver cs d).clusterLow[j] = d.clusterLow[j] := by
  unfold solvedDriver
  split
  · exact ⟨rfl, rfl⟩
  · exact ⟨storeFirst_kept (by simpa using h), storeFirst_kept (by simpa using h)⟩

end

/-! ### The clocks of a SETUP that gets through them (R345) -/

/-- A run of writes calls no collaborator. -/
theorem Writes.registrations {F : RegField → Prop} {s t : State} (h : Writes F s t) :
    t.output.effects.filter isRegistration = s.output.effects.filter isRegistration := by
  obtain ⟨es, heffects, hes⟩ := h.effects
  have hnone : es.filter isRegistration = [] := by
    refine List.filter_eq_nil_iff.2 fun e he => ?_
    obtain ⟨f, v, _, rfl⟩ := hes e he
    exact Bool.false_ne_true
  rw [heffects, List.filter_append, hnone, List.nil_append]

/-- `x` is a state in which a SETUP of `p` in `s`, read as `v`, has programmed the dividers of `cs` and its clock select. -/
structure ClocksProgrammed (p : InitParams) (s : State) (v : Plan) (cs : List Cluster) (x : State) : Prop where
  programmed : SetupProgrammed p s v x
  dividers : HoldsDividers p.clockFreq.toNat cs s x.regs
  select : ∀ (q : Fin 2) (b : Nat), b < 32 →
    (x.regs.clkSel[q]).getLsbD b = clkSelBit x.drv (slotDefinitions v.sigDef0 v.sigDef1 v.table0.length q) b
  irqEn : x.regs.irqEn = truncBits s.params.irqRawBits (Config.pulseDraw s.draws .irqEn)
  rfsGen : x.regs.rfsGen = (Config.pulseDraw s.draws .rfsGen).setWidth 1
  driver : x.drv = solvedDriver cs (failedSetupDriver p s v)
  halted : x.halted = s.halted
  surroundings : SameSurroundings 1 s x

section

variable {p : InitParams} {s t u w x : State} {v : Plan} {cs : List Cluster}

theorem SetupRuns.tablesCompiled (hr : SetupRuns p s v cs u w) : TablesCompiled p s v u :=
  ⟨hr.tables, hr.page0, hr.page1⟩

theorem isClkSelField_late (f : RegField) (h : isClkSelField f) : isLateField f := by
  cases f with
  | clkSel => trivial
  | _ => exact h.elim

/-- The clock select is written over the state after the dividers, but for the clusters in the driver state. -/
theorem setupSelected_writes (v : Plan) (cs : List Cluster) (w : State) :
    Writes isClkSelField { w with drv := solvedDriver cs w.drv } (setupSelected v cs w) := by
  rw [← keepClusters_eq]
  exact programClockSelect_writes _ _ _ _

theorem setupSelected_sameSurroundings (v : Plan) (cs : List Cluster) (w : State) :
    SameSurroundings 0 w (setupSelected v cs w) := by
  have hw := setupSelected_writes v cs w
  exact ⟨hw.params, hw.env, hw.input, hw.draws⟩

theorem SetupRuns.driver (hr : SetupRuns p s v cs u w) : w.drv = failedSetupDriver p s v :=
  hr.dividers.drv.trans ((setupProgram_writes v p u.snapshotChecksum).drv.trans hr.tables.drv)

theorem SetupRuns.halted (hr : SetupRuns p s v cs u w) : w.halted = s.halted :=
  hr.dividers.halted.trans ((setupProgram_writes v p u.snapshotChecksum).halted.trans hr.tables.halted)

theorem SetupRuns.surroundings (hr : SetupRuns p s v cs u w) : SameSurroundings 1 s w := by
  have htables := ((setupEntry_sameSurroundings s).trans (setupPrepare_sameSurroundings v p (setupEntry s))).trans
    hr.tables.sameSurroundings
  exact (htables.snapshotChecksum.trans (setupProgram_writes v p u.snapshotChecksum).sameSurroundings).trans
    hr.dividers.sameSurroundings

theorem SetupRuns.programmed (hr : SetupRuns p s v cs u w) : SetupProgrammed p s v w :=
  setupProgrammed_of_late (setupProgram_setupProgrammed hr.accepted hr.tablesCompiled)
    (hr.dividers.mono isClkDivField_late).late (congrArg DriverState.workingFreq hr.dividers.drv)
    (congrArg DriverState.mainClockDivider hr.dividers.drv) hr.dividers.params hr.dividers.checksum

theorem SetupRuns.holdsDividers (hr : SetupRuns p s v cs u w) : HoldsDividers p.clockFreq.toNat cs s w.regs :=
  ⟨hr.codes, fun n hn => (hr.unused n hn).trans ((setupProgram_undecided hr.tablesCompiled).1 n)⟩

/-- RFS_GEN is as the pulse left it: no step of SETUP writes it (R62, R451). -/
theorem SetupRuns.rfsGen (hr : SetupRuns p s v cs u w) :
    w.regs.rfsGen = (Config.pulseDraw s.draws .rfsGen).setWidth 1 :=
  (hr.dividers.rfsGen id).trans (((setupProgram_writes v p u.snapshotChecksum).rfsGen id).trans (hr.tables.rfsGen id))

/-- SETUP has called no interrupt-registration collaborator before it configures its interrupts (R346). -/
theorem SetupRuns.registrations (hr : SetupRuns p s v cs u w) :
    (setupSelected v cs w).output.effects.filter isRegistration = [] := by
  have hprog := (setupProgram_writes v p u.snapshotChecksum).registrations
  exact (setupSelected_writes v cs w).registrations.trans (hr.dividers.registrations.trans
    (hprog.trans hr.tables.registrations))

theorem SetupRuns.clocksProgrammed (hr : SetupRuns p s v cs u w) :
    ClocksProgrammed p s v cs (setupSelected v cs w) where
  programmed := by
    have hw := setupSelected_writes v cs w
    have hkept := solvedDriver_frame cs w.drv
    have hdrv := hw.drv.trans hkept
    exact setupProgrammed_of_late hr.programmed (hw.mono isClkSelField_late).late
      (congrArg DriverState.workingFreq hdrv :) (congrArg DriverState.mainClockDivider hdrv :) hw.params hw.checksum
  dividers := by
    have hclkDiv := (setupSelected_writes v cs w).clkDiv fun _ => id
    unfold HoldsDividers
    rw [hclkDiv]
    exact hr.holdsDividers
  select := fun q _ hb => setupSelected_bits hr.accepted cs w q hb
  irqEn := ((setupSelected_writes v cs w).irqEn id).trans
    ((hr.dividers.irqEn id).trans (setupProgram_undecided hr.tablesCompiled).2.2)
  rfsGen := ((setupSelected_writes v cs w).rfsGen id).trans hr.rfsGen
  driver := by rw [(setupSelected_writes v cs w).drv, hr.driver]
  halted := (setupSelected_writes v cs w).halted.trans hr.halted
  surroundings := hr.surroundings.trans (setupSelected_sameSurroundings v cs w)

/-- The registration call is an effect and nothing else. -/
theorem ClocksProgrammed.emit (h : ClocksProgrammed p s v cs x) (e : Effect) :
    ClocksProgrammed p s v cs (x.emit e) where
  programmed := setupProgrammed_of_late h.programmed rfl rfl rfl rfl rfl
  dividers := h.dividers
  select := h.select
  irqEn := h.irqEn
  rfsGen := h.rfsGen
  driver := h.driver
  halted := h.halted
  surroundings := ⟨h.surroundings.params, h.surroundings.env, h.surroundings.input, h.surroundings.draws⟩

/-- A SETUP that passes ends with the interrupts and the commit, from a state whose clocks are programmed. -/
theorem setup_passes (h : SetupPasses p s v cs) :
    ∃ x, ClocksProgrammed p s v cs x ∧ exec (.setup p) s = .next (setupEnd p v x) := by
  obtain ⟨u, w, hr⟩ := setup_runs h.wellFormed h.valid h.base h.resolves.1 h.resolves.2 h.clocks h.dividers
  refine ⟨_, ?_, hr.ends h.irq⟩
  split
  · exact hr.clocksProgrammed
  · exact hr.clocksProgrammed.emit _

/-! ### The end of a SETUP that passes (R346–R348) -/

theorem setupEnd_programmed (h : ClocksProgrammed p s v cs x) : SetupProgrammed p s v (setupEnd p v x) :=
  setupProgrammed_of_late h.programmed rfl rfl rfl rfl rfl

/-- The Driver State of a SETUP that passes: what its record gives, over what the solver left. -/
theorem setupEnd_drv (h : ClocksProgrammed p s v cs x) :
    (setupEnd p v x).drv =
      { solvedDriver cs (failedSetupDriver p s v) with
        requestedIrqEvents := p.irqEvents, callback := p.callback
        signalDef0 := some v.sigDef0, signalDef1 := v.sigDef1, status := .initialized } := by
  rw [← h.driver]
  rfl

end

/-- Settles O25: the commit keeps the solver's entries and sets the rest. -/
theorem setupCompletes : Obligations.SetupCompletes := by
  intro p s v cs h
  obtain ⟨x, hx, hrun⟩ := setup_passes h
  have hlen := solveClusters_length h.clocks
  have hword := solveClusters_bound h.clocks
  have hdefs := validate_ok h.valid
  have hframe := solvedDriver_frame cs (failedSetupDriver p s v)
  refine ⟨_, hrun, rfl, (setupEnd_programmed hx).checksum, ?_⟩
  rw [setupEnd_drv hx]
  refine ⟨rfl, congrArg DriverState.workingFreq hframe, congrArg DriverState.mainClockDivider hframe, rfl, rfl,
    hdefs.sigDef0.symm, hdefs.sigDef1.1.symm, solvedDriver_used_none _, fun hne => solvedDriver_used _ hne hlen,
    fun j c hget => solvedDriver_stored _ hget (hword c (List.mem_of_getElem? hget)),
    fun j hj => solvedDriver_kept _ hj, ?_, hx.surroundings.env, hx.surroundings.input, hx.surroundings.params,
    hx.surroundings.draws⟩
  rw [setupEnd, State.finish_halted, isErrorStatus, Bool.and_false, Bool.or_false]
  exact hx.halted

/-- Settles O26: the commit writes no register, and the interrupt step the interrupt enable only. -/
theorem setupProgramsTheRegisters : Obligations.SetupProgramsTheRegisters := by
  intro p s v cs h
  obtain ⟨x, hx, hrun⟩ := setup_passes h
  refine ⟨_, hrun, (setupEnd_programmed hx).fields, ?_, hx.dividers, hx.rfsGen⟩
  rw [← hx.surroundings.params]
  rfl

/-- Settles O27: no step after the mode writes a slave field. -/
theorem setupProgramsTheSlaveFields : Obligations.SetupProgramsTheSlaveFields := by
  intro p s v cs h
  obtain ⟨x, hx, hrun⟩ := setup_passes h
  exact ⟨_, hrun, (setupEnd_programmed hx).slaves⟩

/-! ### The registration call (R346, R349) -/

section

variable {p : InitParams} {s u w x : State} {v : Plan} {cs : List Cluster}

/-- A refused registration ends the command where its clocks left it, the call being the last effect. -/
theorem SetupRuns.refused (hr : SetupRuns p s v cs u w) (hask : p.irqEvents ≠ 0) (hno : s.env.irqRegOk = false) :
    exec (.setup p) s = .next (((setupSelected v cs w).emit
      (.registerIrq s.params.irqLine s.params.irqCore s.params.irqPrio)).finish .irqRegFailed) := by
  have hsame := hr.clocksProgrammed.surroundings
  have hrun : exec (.setup p) s = .next ((configureInterrupts p (setupSelected v cs w)).andThen
    fun s => .go (setupCommit v s)).result := hr.run
  rw [hrun, configureInterrupts, if_pos hask]
  simp only [State.emit_env, hsame.env, hsame.params, hno, Bool.false_eq_true, if_false, Flow.andThen_raised,
    Flow.result_raised]

/-- Past the clocks a SETUP calls the collaborator exactly when an event is requested, whatever the answer. -/
theorem SetupRuns.registers (hr : SetupRuns p s v cs u w) :
    ∃ t, exec (.setup p) s = .next t ∧
      t.output.effects.filter isRegistration =
        (if p.irqEvents = 0 then [] else [.registerIrq s.params.irqLine s.params.irqCore s.params.irqPrio]) := by
  have hnone := hr.registrations
  by_cases hask : p.irqEvents = 0
  · refine ⟨_, hr.ends fun h => absurd hask h, ?_⟩
    rw [if_pos hask, if_pos hask]
    exact hnone
  · rw [if_neg hask]
    cases hanswer : s.env.irqRegOk with
    | true =>
      refine ⟨_, hr.ends fun _ => hanswer, ?_⟩
      rw [if_neg hask]
      exact congrArg (List.cons _) hnone
    | false => exact ⟨_, hr.refused hask hanswer, congrArg (List.cons _) hnone⟩

end

/-- Settles O31: one call after the clocks, and on refusal everything is as the clocks left it. -/
theorem setupRegistersARequestedInterrupt : Obligations.SetupRegistersARequestedInterrupt := by
  intro p s v cs h
  obtain ⟨u, w, hr⟩ := setup_runs (s := s) h.wellFormed h.valid h.base h.resolves.1 h.resolves.2 h.clocks h.dividers
  obtain ⟨t, hrun, hcalls⟩ := hr.registers
  refine ⟨t, hrun, hcalls, fun hask hno => ?_⟩
  have hx := hr.clocksProgrammed
  have hframe := hx.driver.trans (solvedDriver_frame cs (failedSetupDriver p s v))
  cases hrun.symm.trans (hr.refused hask hno)
  exact ⟨rfl, congrArg DriverState.status hframe, setupProgrammed_of_late hx.programmed rfl rfl rfl rfl rfl, hx.dividers,
    hx.select, hx.irqEn, (congrArg DriverState.requestedIrqEvents hframe :), (congrArg DriverState.callback hframe :)⟩

end Sys2Proof.Machine
end

section
/-! O58, O59 and O60: an UPDATE_TABLES that gets through (R350–R359), and one that follows a SETUP of the same tables. -/

namespace Sys2Proof.Machine

open Sys2Proof.Claims

/-! ### The programming steps (R358, R342–R344) -/

/-- Writes to the signal-type registers leave every other field. -/
theorem Writes.onlySigType {s t : State} (h : Writes isSigTypeField s t) :
    t.regs = { s.regs with sigTypeA := t.regs.sigTypeA, sigTypeB := t.regs.sigTypeB } := by
  dsimp only
  rw [← h.ctrlEn id, ← h.ctrlRst id, ← h.chksumEn id, ← h.mode id, ← h.runMode id, ← h.timingMode id, ← h.dpDiv id,
    ← h.repeatCount id, ← h.tlim (fun _ => id), ← h.slvRfsSrc id, ← h.slvRcsSrc id, ← h.slvDelay id, ← h.slvCsi2Unit id,
    ← h.slvCsi2Vc id, ← h.clkDiv (fun _ => id), ← h.clkSel (fun _ => id), ← h.lut (fun _ _ => id) (fun _ _ => id),
    ← h.irqEn id, ← h.rfsGen id]

/-- `r` with the fields that UPDATE_TABLES programs past its LUT (R358, R342–R344) as they are in `t`. -/
def withProgrammed (t r : RegImage) : RegImage :=
  { r with sigTypeA := t.sigTypeA, sigTypeB := t.sigTypeB, runMode := t.runMode, tlim := t.tlim, dpDiv := t.dpDiv }

theorem updateProgram_frame (t0 : CheckedTable) (t1 : Option CheckedTable) (s : State) :
    (updateProgram t0 t1 s).regs = withProgrammed (updateProgram t0 t1 s).regs s.regs := by
  obtain ⟨x, hx, -, hregs⟩ := updateProgram_regs t0 t1 s
  rw [hregs, hx.onlySigType]
  rfl

theorem updateProgram_drv (t0 : CheckedTable) (t1 : Option CheckedTable) (s : State) :
    (updateProgram t0 t1 s).drv = { s.drv with status := .initialized } := by
  obtain ⟨x, hx, he⟩ := updateProgram_writes t0 t1 s
  rw [he, State.setStatus_drv, hx.drv]

theorem updateProgram_checksum (t0 : CheckedTable) (t1 : Option CheckedTable) (s : State) :
    (updateProgram t0 t1 s).output.checksum = s.output.checksum := by
  obtain ⟨x, hx, he⟩ := updateProgram_writes t0 t1 s
  rw [he, State.setStatus_output, hx.checksum]

theorem updateProgram_halted (t0 : CheckedTable) (t1 : Option CheckedTable) (s : State) :
    (updateProgram t0 t1 s).halted = s.halted := by
  obtain ⟨x, hx, he⟩ := updateProgram_writes t0 t1 s
  rw [he, State.setStatus_halted, hx.halted]

/-- The limit of table slot 1 (R343), as for a plan of these tables. -/
theorem secondLimit_some (d : DriverState) (t0 T1 : CheckedTable) :
    secondLimit d t0 (some T1) = limitOf d.workingFreq.toNat d.mainClockDivider.toNat T1.execTimeLimit :=
  secondLimit_two (v := { table0 := t0, sigDef0 := [], second := some (T1, []) }) d rfl

theorem secondLimit_none (d : DriverState) (t0 : CheckedTable) :
    secondLimit d t0 none =
      if 32 < t0.length then limitOf d.workingFreq.toNat d.mainClockDivider.toNat t0.execTimeLimit
      else 0xFFFFFFFF#32 :=
  secondLimit_alone (v := { table0 := t0, sigDef0 := [], second := none }) d rfl

/-- The run mode, the limits and the data-path divider (R342–R344). -/
theorem updateProgram_written (t0 : CheckedTable) (t1 : Option CheckedTable) (s : State) :
    (updateProgram t0 t1 s).regs.runMode = (if t1 ≠ none ∨ 32 < t0.length then 1 else 0) ∧
    (updateProgram t0 t1 s).regs.tlim[0] =
      limitOf s.drv.workingFreq.toNat s.drv.mainClockDivider.toNat t0.execTimeLimit ∧
    (updateProgram t0 t1 s).regs.tlim[1] = secondLimit s.drv t0 t1 ∧
    (updateProgram t0 t1 s).regs.dpDiv.toNat = s.drv.mainClockDivider.toNat % 2 ^ s.params.mainDivBits := by
  obtain ⟨x, -, -, hregs⟩ := updateProgram_regs t0 t1 s
  refine ⟨?_, ?_, ?_, ?_⟩
  · by_cases htwo : t1 ≠ none ∨ 32 < t0.length
    · have hword : (t1.isSome || decide (t0.length > Config.maxEventsDouble)) = true := by
        simpa [Option.isSome_iff_ne_none] using htwo
      rw [if_pos htwo, hregs, hword]
      rfl
    · have hword : (t1.isSome || decide (t0.length > Config.maxEventsDouble)) = false := by
        simpa [Option.isSome_iff_ne_none] using htwo
      rw [if_neg htwo, hregs, hword]
      rfl
  · rw [← limitTicks_eq]
    simp [hregs, RegImage.write]
  · simp [hregs, RegImage.write]
  · have hword : s.drv.mainClockDivider.toNat < 2 ^ 32 := by omega
    have hdiv : (updateProgram t0 t1 s).regs.dpDiv =
        truncBits s.params.mainDivBits (s.drv.mainClockDivider.setWidth 32) := by
      simp [hregs, RegImage.write]
    rw [hdiv, truncBits_toNat, BitVec.toNat_setWidth, Nat.mod_eq_of_lt hword]

/-! ### An UPDATE_TABLES that gets through -/

/-- `w` is the state in which an UPDATE_TABLES of the tables `t0`, `t1` in `s` has compiled them, with the snapshot
definitions `L0`, `L1` (R353–R357). -/
structure UpdateCompiled (s : State) (t0 : CheckedTable) (t1 : Option CheckedTable) (L0 L1 : List SigDef)
    (w : State) : Prop where
  tables : Writes isLutField (updatePrepare (t0 :: t1.toList) s.beginCommand) w
  page0 : ∀ k, lutAt w.regs.lut 0 k =
    slotAfter s.params w.drv L0 t0.events s.regs.lut 0 t0.events.length (decide (t0.events.length > 32)) 0 k
  page1 : ∀ k, lutAt w.regs.lut 1 k =
    compiledPage1 s.params w.drv L0 t0.events (t1.map fun T => (T, L1)) s.regs.lut k

/-- The state it ends in. -/
def updateEnd (t0 : CheckedTable) (t1 : Option CheckedTable) (w : State) : State :=
  (updateProgram t0 t1 w.snapshotChecksum).finish .ok

section

variable {u : UpdateParams} {s w : State} {t0 : CheckedTable} {t1 : Option CheckedTable} {L0 L1 : List SigDef}

theorem update_passes (h : UpdatePasses u s t0 t1 L0 L1) :
    ∃ w, UpdateCompiled s t0 t1 L0 L1 w ∧ exec (.updateTables u) s = .next (updateEnd t0 t1 w) := by
  obtain ⟨w, hw, hpage0, hpage1, hrun⟩ := update_runs h.wellFormed h.setUp h.presence h.valid h.snapshot0 h.snapshot1
    h.resolves0 h.resolves1
  exact ⟨w, ⟨hw, hpage0, hpage1⟩, hrun⟩

/-- Of the Driver State only the status and the divider have changed. -/
theorem UpdateCompiled.drv (hw : UpdateCompiled s t0 t1 L0 L1 w) :
    (updateEnd t0 t1 w).drv =
      { s.drv with
        status := .initialized
        mainClockDivider :=
          BitVec.ofNat 8 (selectMainDivider s.params (maxDelay (t0 :: t1.toList)) s.drv.workingFreq.toNat) } := by
  rw [updateEnd, State.finish_drv, updateProgram_drv, State.snapshotChecksum_drv, hw.tables.drv, updatePrepare_drv]
  rfl

/-- The programming steps leave the LUT as the compiler did. -/
theorem updateEnd_lut (t0 : CheckedTable) (t1 : Option CheckedTable) (w : State) :
    (updateEnd t0 t1 w).regs.lut = w.regs.lut :=
  (congrArg RegImage.lut (updateProgram_frame t0 t1 w.snapshotChecksum) :)

/-- The registers an update leaves: but for the engine, the checksum mode, the LUT and what it programs, as they were. -/
theorem UpdateCompiled.frame (hw : UpdateCompiled s t0 t1 L0 L1 w) :
    (updateEnd t0 t1 w).regs =
      withProgrammed (updateEnd t0 t1 w).regs
        { s.regs with
          ctrlEn := stoppedEnable s.drv.status s.regs.ctrlEn, chksumEn := 1, lut := (updateEnd t0 t1 w).regs.lut } := by
  have hlut := hw.tables.onlyLut
  rw [updatePrepare_regs] at hlut
  rw [updateEnd_lut]
  exact (updateProgram_frame t0 t1 w.snapshotChecksum).trans (congrArg (withProgrammed _) hlut)

theorem UpdateCompiled.checksum (hw : UpdateCompiled s t0 t1 L0 L1 w) :
    (updateEnd t0 t1 w).output.checksum = some ((Config.lutChecksum (updateEnd t0 t1 w).regs.lut).setWidth 64) := by
  have hon : w.regs.chksumEn = 1 := by rw [hw.tables.chksumEn id, updatePrepare_regs]
  rw [updateEnd_lut, ← readChecksum_on hon]
  exact updateProgram_checksum t0 t1 w.snapshotChecksum

theorem UpdateCompiled.halted (hw : UpdateCompiled s t0 t1 L0 L1 w) : (updateEnd t0 t1 w).halted = s.halted := by
  rw [updateEnd, State.finish_halted, isErrorStatus, Bool.and_false, Bool.or_false, updateProgram_halted,
    State.snapshotChecksum_halted, hw.tables.halted, updatePrepare_halted, State.beginCommand_halted]

/-- The words of an event are those of the driver state the update leaves (R355). -/
theorem updateEnd_eventSlot (par : Params) (L : List SigDef) (evs : List CheckedEvent) (i : Nat) :
    eventSlot par (updateEnd t0 t1 w).drv L evs i = eventSlot par w.drv L evs i := by
  have hdrv := updateProgram_drv t0 t1 w.snapshotChecksum
  exact eventSlot_congr (congrArg DriverState.workingFreq hdrv :) (congrArg DriverState.mainClockDivider hdrv :) i

end

/-- The engine enable after the stop (R353). -/
theorem stoppedEnable_setUp {d : DrvStatus} (e : BitVec 1) :
    stoppedEnable d e = if d = .running then 0 else e := by
  cases d <;> rfl

section

variable {s w : State} {t0 : CheckedTable} {t1 : Option CheckedTable} {L0 L1 : List SigDef}

/-- The run mode, the limits and the data-path divider, for the frequency and the divider of the state it ends in. -/
theorem UpdateCompiled.written (hw : UpdateCompiled s t0 t1 L0 L1 w) :
    (updateEnd t0 t1 w).regs.runMode = (if t1 ≠ none ∨ 32 < t0.length then 1 else 0) ∧
    (updateEnd t0 t1 w).regs.tlim[0] =
      limitOf (updateEnd t0 t1 w).drv.workingFreq.toNat (updateEnd t0 t1 w).drv.mainClockDivider.toNat
        t0.execTimeLimit ∧
    (updateEnd t0 t1 w).regs.tlim[1] = secondLimit (updateEnd t0 t1 w).drv t0 t1 ∧
    (updateEnd t0 t1 w).regs.dpDiv.toNat =
      (updateEnd t0 t1 w).drv.mainClockDivider.toNat % 2 ^ s.params.mainDivBits := by
  have hpar : w.params = s.params := hw.tables.params.trans (updatePrepare_params _ _)
  have hdrv : (updateEnd t0 t1 w).drv = { w.drv with status := .initialized } := updateProgram_drv t0 t1 w.snapshotChecksum
  rw [hdrv, ← hpar]
  exact updateProgram_written t0 t1 w.snapshotChecksum

/-- The LUT, slot by slot (R251–R254): page 1 keeps its contents when no table reaches it. -/
structure UpdateLut (s : State) (t0 : CheckedTable) (t1 : Option CheckedTable) (L0 L1 : List SigDef) (t : State) :
    Prop where
  page0 : ∀ k, lutAt t.regs.lut 0 k = firstPageSlot s.params t.drv L0 t0.events k
  second : ∀ T, t1 = some T → ∀ k, lutAt t.regs.lut 1 k = firstPageSlot s.params t.drv L1 T.events k
  spanning : t1 = none → 32 < t0.events.length →
    ∀ k, lutAt t.regs.lut 1 k = secondPageSlot s.params t.drv L0 t0.events k
  kept : t1 = none → t0.events.length ≤ 32 → ∀ k, lutAt t.regs.lut 1 k = lutAt s.regs.lut 1 k

theorem UpdateCompiled.lut (hw : UpdateCompiled s t0 t1 L0 L1 w) : UpdateLut s t0 t1 L0 L1 (updateEnd t0 t1 w) := by
  refine ⟨fun k => ?_, fun T hT k => ?_, fun halone hlong k => ?_, fun halone hshort k => ?_⟩
  · simp only [updateEnd_lut, firstPageSlot, updateEnd_eventSlot]
    rw [hw.page0 k]
    exact if_pos rfl
  · subst hT
    simp only [updateEnd_lut, firstPageSlot, updateEnd_eventSlot]
    exact hw.page1 k
  · subst halone
    simp only [updateEnd_lut, secondPageSlot, updateEnd_eventSlot]
    rw [hw.page1 k, Option.map_none, compiledPage1, slotAfter, if_neg (by decide), if_pos (decide_eq_true hlong)]
    rfl
  · subst halone
    rw [updateEnd_lut, hw.page1 k, Option.map_none, compiledPage1, slotAfter, if_neg (by decide),
      if_neg (by simpa using hshort)]

end

/-- Settles O58: what the programming steps wrote, over what the tables left. -/
theorem updateTablesCompletes : Obligations.UpdateTablesCompletes := by
  intro u s t0 t1 L0 L1 h
  obtain ⟨w, hw, hrun⟩ := update_passes h
  have hsame := updateTables_sameSurroundings hrun
  have hframe := hw.frame
  have hfreq : (updateEnd t0 t1 w).drv.workingFreq = s.drv.workingFreq := (congrArg DriverState.workingFreq hw.drv :)
  obtain ⟨hmode, hlimit0, hlimit1, hdiv⟩ := hw.written
  rw [hfreq] at hlimit0
  refine ⟨_, hrun, rfl, hw.checksum, hw.drv, ?_, (congrArg RegImage.chksumEn hframe :),
    (congrArg RegImage.rfsGen hframe :), hdiv, hmode, hlimit0, ?_, hw.halted, hsame.env, hsame.input, hsame.params,
    hsame.draws⟩
  · rw [← stoppedEnable_setUp]
    exact (congrArg RegImage.ctrlEn hframe :)
  · rw [← hfreq]
    cases t1 with
    | some T1 => exact hlimit1.trans (secondLimit_some _ _ _)
    | none => exact hlimit1.trans (secondLimit_none _ _)

/-- Settles O59: the programming steps leave the LUT, and the frequency and divider it was compiled with. -/
theorem updateTablesRecompilesTheLut : Obligations.UpdateTablesRecompilesTheLut := by
  intro u s t0 t1 L0 L1 h
  obtain ⟨w, hw, hrun⟩ := update_passes h
  exact ⟨_, hrun, hw.lut.page0, hw.lut.second, hw.lut.spanning, hw.lut.kept⟩

/-! ### An UPDATE_TABLES after a SETUP of the same tables (R359) -/

section

variable {par : Params} {p : InitParams} {s t u : State} {v : Plan} {cs : List Cluster}

theorem exec_unique {i : Instr} {a b : State} (ha : exec i s = .next a) (hb : exec i s = .next b) : a = b := by
  cases ha.symm.trans hb
  rfl

/-- What Validate reads of the tables is what ValidateTables reads of them (R161, R176). -/
theorem Accepted.validateTables (hv : Accepted par p v) :
    validateTables { table0 := p.table0, table1 := p.table1 } = .ok (v.table0, v.table1) := by
  obtain ⟨T0, htable0, hcheck0, hsecond⟩ := hv.table0
  refine bind_ok.2 ⟨T0, orRaise_ok.2 htable0, bind_ok.2 ⟨v.table0, hcheck0, bind_ok.2 ⟨v.table1, ?_, rfl⟩⟩⟩
  rcases checkSecond_ok hsecond with ⟨htable1, _, halone⟩ | ⟨T1, L1, t1, htable1, _, htwo, hshort0, hshort1, _, hcheck1⟩
  · rw [htable1, Plan.table1, halone]
    rfl
  · have hshort : tooLongDouble T0 T1 = false := by
      simp only [tooLongDouble, Config.maxEventsDouble, decide_eq_false_iff_not]
      omega
    rw [htable1, Plan.table1, htwo]
    exact bind_ok.2 ⟨(), failIf_ok.2 hshort, bind_ok.2 ⟨t1, hcheck1, rfl⟩⟩

/-- Registers that hold the same types, bit by bit, are the same. -/
theorem holdsTypes_unique {defs : Fin 2 → List SigDef} {r r' : RegImage} (h : HoldsTypes par defs r)
    (h' : HoldsTypes par defs r') : r.sigTypeA = r'.sigTypeA ∧ r.sigTypeB = r'.sigTypeB := by
  constructor
  · refine Vector.ext fun q hq => BitVec.eq_of_getLsbD_eq fun b hb => ?_
    exact (h ⟨q, hq⟩ b hb).1.trans (h' ⟨q, hq⟩ b hb).1.symm
  · refine Vector.ext fun q hq => BitVec.eq_of_getLsbD_eq fun b hb => ?_
    exact (h ⟨q, hq⟩ b hb).2.trans (h' ⟨q, hq⟩ b hb).2.symm

/-- The tables of a plan (R330) in the order UPDATE_TABLES takes them (R350). -/
theorem Plan.tables_eq (v : Plan) : v.tables = v.table0 :: v.table1.toList := by
  unfold Plan.tables Plan.table1
  cases v.second <;> rfl

/-- `t` is a state in which a SETUP of `p` in `s`, read as `v`, has completed (R334–R348). -/
structure SetupDone (p : InitParams) (s : State) (v : Plan) (t : State) : Prop where
  accepted : Accepted s.params p v
  programmed : SetupProgrammed p s v t
  status : t.drv.status = .initialized
  freq : t.drv.workingFreq = p.clockFreq
  divider : t.drv.mainClockDivider = BitVec.ofNat 8 (selectMainDivider s.params (maxDelay v.tables) p.clockFreq.toNat)
  snapshot0 : t.drv.signalDef0 = some v.sigDef0
  snapshot1 : t.drv.signalDef1 = v.sigDef1
  params : t.params = s.params

theorem setup_done (h : SetupPasses p s v cs) (ht : exec (.setup p) s = .next t) : SetupDone p s v t := by
  obtain ⟨x, hx, hrun⟩ := setup_passes h
  cases exec_unique ht hrun
  have hdrv := hx.driver.trans (solvedDriver_frame cs (failedSetupDriver p s v))
  exact ⟨validate_ok h.valid, setupEnd_programmed hx, rfl, (congrArg DriverState.workingFreq hdrv :),
    (congrArg DriverState.mainClockDivider hdrv :), rfl, rfl, hx.surroundings.params⟩

/-- The state a SETUP that passes ends in lets an UPDATE_TABLES of the same tables pass. -/
theorem SetupDone.updatePasses (hd : SetupDone p s v t) (hwf : p.wf = true) (hres : planResolves s.params v) :
    UpdatePasses { table0 := p.table0, table1 := p.table1 } t v.table0 v.table1 v.sigDef0 (v.sigDef1.getD []) := by
  simp only [InitParams.wf, Bool.and_eq_true] at hwf
  obtain ⟨⟨⟨hwf0, hwf1⟩, _⟩, _⟩ := hwf
  refine
    { wellFormed := by simp only [UpdateParams.wf, hwf0, hwf1, Bool.and_true]
      setUp := by simp [hd.status]
      presence := by rw [hd.snapshot1, hd.accepted.sigDef1.2, Plan.sigDef1, Option.isSome_map]
      valid := hd.accepted.validateTables
      snapshot0 := hd.snapshot0
      snapshot1 := fun hsome => ?_
      resolves0 := by rw [hd.params]; exact hres.1
      resolves1 := fun T hT => ?_ }
  · obtain ⟨T, hT⟩ := Option.isSome_iff_exists.1 hsome
    obtain ⟨x, hsecond, _⟩ := Option.map_eq_some_iff.1 hT
    rw [hd.snapshot1, Plan.sigDef1, hsecond]
    rfl
  · obtain ⟨⟨T', L⟩, hsecond, rfl⟩ := Option.map_eq_some_iff.1 hT
    rw [hd.params, Plan.sigDef1, hsecond]
    exact hres.2 T' L hsecond

end

section

variable {p : InitParams} {s t w : State} {v : Plan} {L1 : List SigDef}

/-- The same tables at the same frequency have the same divider (R202, R355). -/
theorem SetupDone.updated_drv (hd : SetupDone p s v t) (hw : UpdateCompiled t v.table0 v.table1 v.sigDef0 L1 w) :
    (updateEnd v.table0 v.table1 w).drv = t.drv := by
  rw [hw.drv, ← v.tables_eq, hd.params, hd.freq, ← hd.divider, ← hd.status]

/-- The LUT that SETUP compiled is the one the same tables compile to over it (R254). -/
theorem SetupDone.updated_lut (hd : SetupDone p s v t)
    (hw : UpdateCompiled t v.table0 v.table1 v.sigDef0 (v.sigDef1.getD []) w) :
    (updateEnd v.table0 v.table1 w).regs.lut = t.regs.lut := by
  have hlut := hd.programmed.lut
  obtain ⟨hpage0, hpage1, hspanning, hkept⟩ := hw.lut
  rw [hd.params, hd.updated_drv hw] at hpage0 hpage1 hspanning
  refine lut_ext fun q k => ?_
  rcases page_cases q with rfl | rfl
  · rw [hpage0 k, hlut.page0 k]
  · cases hs : v.second with
    | some x =>
      have htable1 : v.table1 = some x.1 := by rw [Plan.table1, hs]; rfl
      have hdefs1 : v.sigDef1.getD [] = x.2 := by rw [Plan.sigDef1, hs]; rfl
      rw [hpage1 x.1 htable1 k, hdefs1, hlut.second x.1 x.2 hs k]
    | none =>
      have halone : v.table1 = none := by rw [Plan.table1, hs]; rfl
      rcases Nat.lt_or_ge 32 v.table0.events.length with hlong | hshort
      · rw [hspanning halone hlong k, hlut.spanning hs hlong k]
      · exact hkept halone hshort k

/-- The run mode, the limits and the data-path divider are programmed with the values they hold (R342–R344). -/
theorem SetupDone.updated_fields (hd : SetupDone p s v t) (hw : UpdateCompiled t v.table0 v.table1 v.sigDef0 L1 w) :
    (updateEnd v.table0 v.table1 w).regs.runMode = t.regs.runMode ∧
    (updateEnd v.table0 v.table1 w).regs.tlim = t.regs.tlim ∧
    (updateEnd v.table0 v.table1 w).regs.dpDiv = t.regs.dpDiv := by
  have hf := hd.programmed.fields
  obtain ⟨hmode, hlimit0, hlimit1, hdiv⟩ := hw.written
  rw [hd.updated_drv hw] at hlimit0 hlimit1 hdiv
  refine ⟨?_, ?_, ?_⟩
  · rw [hmode, hf.runMode]
    have htwo : v.table1 ≠ none ↔ p.table1 ≠ none := by
      rw [← hd.accepted.table1_isSome, Option.isSome_iff_ne_none]
    simp only [htwo]
  · have hheld := hf.tlim1
    refine Vector.ext fun q hq => ?_
    obtain rfl | rfl : q = 0 ∨ q = 1 := by omega
    · rw [hd.freq] at hlimit0
      exact hlimit0.trans hf.tlim0.symm
    · rw [← hd.freq] at hheld
      cases hs : v.second with
      | some x =>
        rw [hs] at hheld
        exact (hlimit1.trans (secondLimit_two t.drv hs)).trans hheld.symm
      | none =>
        rw [hs] at hheld
        exact (hlimit1.trans (secondLimit_alone t.drv hs)).trans hheld.symm
  · exact BitVec.eq_of_toNat_eq (hdiv.trans hf.dpDiv.symm)

/-- Every field the update writes is written with the value it holds. -/
theorem SetupDone.updated_regs (hd : SetupDone p s v t)
    (hw : UpdateCompiled t v.table0 v.table1 v.sigDef0 (v.sigDef1.getD []) w)
    (htypes : HoldsTypes s.params (slotDefinitions v.sigDef0 v.sigDef1 v.table0.length)
      (updateEnd v.table0 v.table1 w).regs) :
    (updateEnd v.table0 v.table1 w).regs = t.regs := by
  obtain ⟨htypeA, htypeB⟩ := holdsTypes_unique htypes hd.programmed.types
  obtain ⟨hmode, hlimits, hdiv⟩ := hd.updated_fields hw
  rw [hw.frame, withProgrammed, htypeA, htypeB, hmode, hlimits, hdiv, hd.updated_lut hw, hd.status,
    stoppedEnable_initialized, ← hd.programmed.fields.chksumEn]

end

/-- Settles O60: the tables, the frequency and the snapshots are those of the SETUP. -/
theorem updateWithTheSameTablesChangesNothing : Obligations.UpdateWithTheSameTablesChangesNothing := by
  intro p s t v cs h ht
  have hd := setup_done h ht
  have hupdate := hd.updatePasses h.wellFormed h.resolves
  obtain ⟨w, hw, hrun⟩ := update_passes hupdate
  obtain ⟨e, hsame, htypes⟩ := signalTypeRegistersHoldTheLastTypes.2 _ t _ _ _ _ hupdate
  cases exec_unique hrun hsame
  rw [hd.params, hd.snapshot1] at htypes
  have hregs := hd.updated_regs hw htypes
  refine ⟨_, hrun, rfl, ?_, hregs, hd.updated_drv hw⟩
  rw [hw.checksum, hregs, hd.programmed.checksum]

end Sys2Proof.Machine
end
section
/-! O6, O7, O14, O16 and O18: the statuses (R402–R406), the halt after an error (R409), what no command but SETUP changes
(R354, R410), and the interrupt step (R411). The five commands without a record have one case analysis here, beside those of
SETUP and UPDATE_TABLES; the obligations about every command read these three. -/

namespace Sys2Proof.Machine

open Sys2Proof.Claims

/-! ### The status table (R402–R404) -/

/-- The row of R402 that the model's code and class make. -/
def statusRow (c : Status) : Nat × Status × StatusClass := ((statusCode c).toNat, c, statusClass c)

theorem statusRow_mem (c : Status) : statusRow c ∈ statusTable := by
  cases c <;> decide

theorem statusRow_of_mem : ∀ row ∈ statusTable, row = statusRow row.2.1 := by decide

/-- No code stands in two rows. -/
theorem statusTable_codes_nodup : (statusTable.map Prod.fst).Nodup := by decide

/-- Statuses with one code have one row, and the row names its status. -/
theorem statusCode_injective : Function.Injective statusCode := by
  intro c d hcode
  have hrow : statusRow c = statusRow d :=
    List.inj_on_of_nodup_map statusTable_codes_nodup (statusRow_mem c) (statusRow_mem d) (congrArg BitVec.toNat hcode)
  exact congrArg (·.2.1) hrow

/-- Every status but OK and DRV_RUNNING is an error (R403). -/
theorem isErrorStatus_iff (c : Status) : isErrorStatus c = true ↔ c ≠ .ok ∧ c ≠ .drvRunning := by
  cases c with
  | ok => simp [isErrorStatus]
  | drvRunning => simp [isErrorStatus]
  | _ => simp [isErrorStatus]

/-- Settles O14: the table's rows are those of the statuses, and its codes are distinct. -/
theorem statusCodesAreTheTable : Obligations.StatusCodesAreTheTable := by
  refine ⟨fun row hrow => ?_, fun c => ⟨statusRow c, statusRow_mem c, rfl⟩, fun _ _ h => statusCode_injective h,
    isErrorStatus_iff⟩
  have heq := statusRow_of_mem row hrow
  exact ⟨(congrArg (·.1) heq).symm, (congrArg (·.2.2) heq).symm⟩

/-! ### The interrupt step (R411) -/

theorem step_of_irqStep {s : State} {env : Env} {rest : List InputItem} (hrun : s.halted = false)
    (hin : s.input = .irqStep env :: rest) : step s = .next (irqStep (s.takeInput env rest)) := by
  rw [step, hrun, serveInput, hin]
  rfl

/-- What IrqStep has the application see: one call, or none. -/
def irqEffects (s : State) : List Effect :=
  if s.drv.requestedIrqEvents ≠ 0 ∧ s.drv.status ≠ .notInit then
    match s.drv.callback with
    | some cb => [.callback cb (s.irqStatus &&& s.drv.requestedIrqEvents)]
    | none => []
  else []

theorem irqStep_eq (s : State) :
    irqStep s = { s with output := { status := none, checksum := none, effects := irqEffects s } } := by
  unfold irqStep irqEffects
  cases hcb : s.drv.callback with
  | none =>
    simp only [State.beginCommand_drv, hcb, ite_self]
    rfl
  | some cb =>
    simp only [State.beginCommand_drv, hcb]
    by_cases hask : s.drv.requestedIrqEvents ≠ 0 ∧ s.drv.status ≠ .notInit
    · rw [if_pos hask]
      exact if_pos hask
    · rw [if_neg hask]
      exact if_neg hask

/-- Settles O6: the step meets the item's environment, and the rest is the interrupt step's equation. -/
theorem irqStepCallsTheApplicationBack : Obligations.IrqStepCallsTheApplicationBack := by
  intro s env rest hrun hin
  rw [step_of_irqStep hrun hin, irqStep_eq]
  rfl

/-! ### The five commands without a record (R360–R364) -/

/-- How such a command ends: it has done nothing to the block, or it returns OK and has changed no more than the driver
status, the engine enable and the event pulse. -/
def ControlEnds (s t : State) : Prop :=
  (∃ c ck, t = returned c ck [] s) ∨
    ∃ es d en g,
      t = returned .ok none es { withStatus d s with regs := { s.regs with ctrlEn := en, rfsGen := g } }

theorem start_controlEnds {s t : State} (h : exec .start s = .next t) : ControlEnds s t := by
  rw [startEnablesTheEngine s] at h
  cases hs : s.drv.status with
  | notInit => rw [hs] at h; cases h; exact .inl ⟨_, _, rfl⟩
  | initialized => rw [hs] at h; cases h; exact .inr ⟨_, .running, 1, s.regs.rfsGen, rfl⟩
  | running =>
    simp only [hs] at h
    split_ifs at h
    · cases h; exact .inl ⟨_, _, rfl⟩
    · cases h; exact .inr ⟨_, s.drv.status, 1, s.regs.rfsGen, rfl⟩

theorem stop_controlEnds {s t : State} (h : exec .stop s = .next t) : ControlEnds s t := by
  rw [stopDisablesTheEngine s] at h
  cases hs : s.drv.status with
  | notInit => rw [hs] at h; cases h; exact .inl ⟨_, _, rfl⟩
  | initialized => rw [hs] at h; cases h; exact .inl ⟨_, _, rfl⟩
  | running => rw [hs] at h; cases h; exact .inr ⟨_, .initialized, 0, s.regs.rfsGen, rfl⟩

theorem restart_controlEnds {s t : State} (h : exec .restart s = .next t) : ControlEnds s t := by
  rw [restartIsStopThenStart s] at h
  cases hs : s.drv.status with
  | notInit => rw [hs] at h; cases h; exact .inl ⟨_, _, rfl⟩
  | initialized => rw [hs] at h; cases h; exact .inl ⟨_, _, rfl⟩
  | running => rw [hs] at h; cases h; exact .inr ⟨_, s.drv.status, 1, s.regs.rfsGen, rfl⟩

theorem rfsGenerate_controlEnds {s t : State} (h : exec .rfsGenerate s = .next t) : ControlEnds s t := by
  rw [rfsGenerateEmitsOneEvent s] at h
  split_ifs at h
  · cases h; exact .inl ⟨_, _, rfl⟩
  · cases h; exact .inl ⟨_, _, rfl⟩
  · cases h; exact .inl ⟨_, _, rfl⟩
  · cases h; exact .inr ⟨_, s.drv.status, s.regs.ctrlEn, 0, rfl⟩

theorem getLutChecksum_controlEnds {s t : State} (h : exec .getLutChecksum s = .next t) : ControlEnds s t := by
  rw [(getLutChecksumReadsTheRegisters s).1] at h
  cases h
  exact .inl ⟨_, _, rfl⟩

/-- A command takes a record (`setup_cases`, `update_cases`), or ends as the five others do. -/
theorem exec_cases {i : Instr} {s t : State} (h : exec i s = .next t) :
    (∃ p, i = .setup p) ∨ (∃ u, i = .updateTables u) ∨ ControlEnds s t := by
  cases i with
  | setup p => exact .inl ⟨p, rfl⟩
  | start => exact .inr (.inr (start_controlEnds h))
  | stop => exact .inr (.inr (stop_controlEnds h))
  | restart => exact .inr (.inr (restart_controlEnds h))
  | rfsGenerate => exact .inr (.inr (rfsGenerate_controlEnds h))
  | updateTables u => exact .inr (.inl ⟨u, rfl⟩)
  | getLutChecksum => exact .inr (.inr (getLutChecksum_controlEnds h))

/-! ### The statuses that leave every register (R403, R406) -/

/-- No register and no LUT word was written, and of the Driver State no more than the status has changed. -/
structure Untouched (s t : State) : Prop where
  regs : t.regs = s.regs
  noWrite : ∀ e ∈ t.output.effects, e.isWrite = false
  drv : t.drv = { s.drv with status := t.drv.status }

/-- The command has left the registers alone, or its status is one of those that may come after a write. -/
def UntouchedOrLate (s t : State) : Prop :=
  Untouched s t ∨ ∃ c, t.output.status = some c ∧ leavesRegisters c = false

theorem ControlEnds.untouchedOrLate {s t : State} (h : ControlEnds s t) : UntouchedOrLate s t := by
  obtain ⟨c, ck, rfl⟩ | ⟨es, d, en, g, rfl⟩ := h
  · exact .inl ⟨rfl, nofun, rfl⟩
  · exact .inr ⟨.ok, rfl, rfl⟩

/-- Classes (b) and (d) are none of R406's. -/
theorem leavesRegisters_lateClass {c : Status} (h : statusClass c = .actionMapping ∨ statusClass c = .resource) :
    leavesRegisters c = false := by
  have hbase : c ≠ .regBaseNull := by rintro rfl; simp [statusClass] at h
  have hwarn : c ≠ .drvRunning := by rintro rfl; simp [statusClass] at h
  obtain h | h := h
  · simp [leavesRegisters, h, hbase, hwarn]
  · simp [leavesRegisters, h, hbase, hwarn]

theorem setup_untouchedOrLate {p : InitParams} {s t : State} (h : exec (.setup p) s = .next t) :
    UntouchedOrLate s t := by
  obtain ⟨_, ⟨c, _, rfl⟩ | ⟨v, _, ⟨_, rfl⟩ | ⟨_, u, _, rfl | ⟨c, hc, rfl⟩⟩⟩⟩ := setup_cases h
  · exact .inl ⟨rfl, nofun, rfl⟩
  · refine .inl ⟨rfl, ?_, rfl⟩
    simp [setupEntry, Output.empty, Effect.isWrite]
  · exact .inr ⟨.ok, rfl, rfl⟩
  · refine .inr ⟨c, rfl, ?_⟩
    obtain hc | hc | rfl := hc
    · exact leavesRegisters_lateClass (.inl hc)
    · exact leavesRegisters_lateClass (.inr hc)
    · rfl

theorem update_untouchedOrLate {u : UpdateParams} {s t : State} (h : exec (.updateTables u) s = .next t) :
    UntouchedOrLate s t := by
  obtain ⟨_, ⟨_, rfl⟩ | ⟨_, ⟨c, _, rfl⟩ | ⟨t0, t1, _, _, hrun⟩⟩⟩ := update_cases h
  · exact .inl ⟨rfl, nofun, rfl⟩
  · exact .inl ⟨rfl, nofun, rfl⟩
  · obtain ⟨w, x, _, _, rfl⟩ | ⟨c, w, hc, _, rfl⟩ := hrun
    · exact .inr ⟨.ok, rfl, rfl⟩
    · exact .inr ⟨c, rfl, leavesRegisters_lateClass (.inl hc)⟩

theorem exec_untouchedOrLate {i : Instr} {s t : State} (h : exec i s = .next t) : UntouchedOrLate s t := by
  obtain ⟨p, rfl⟩ | ⟨u, rfl⟩ | hends := exec_cases h
  · exact setup_untouchedOrLate h
  · exact update_untouchedOrLate h
  · exact hends.untouchedOrLate

/-- Settles O16: what may come after a write is OK, class (b), class (d) and IRQ_REG_FAILED. -/
theorem earlyStatusesLeaveEveryRegister : Obligations.EarlyStatusesLeaveEveryRegister := by
  intro i s t c h hstatus hearly
  obtain ⟨hregs, hnoWrite, hdrv⟩ | ⟨d, hd, hlate⟩ := exec_untouchedOrLate h
  · exact ⟨hregs, hnoWrite, hdrv⟩
  · cases hstatus.symm.trans hd
    cases hearly.symm.trans hlate

/-! ### The halt on an error (R409) -/

/-- The command ended, with some status, in a state in which nothing had halted the block since `s`. -/
def FinishedFrom (s t : State) : Prop :=
  ∃ (u : State) (c : Status), t = u.finish c ∧ u.halted = s.halted ∧ u.params = s.params

theorem ControlEnds.finishedFrom {s t : State} (h : ControlEnds s t) : FinishedFrom s t := by
  obtain ⟨c, ck, rfl⟩ | ⟨es, d, en, g, rfl⟩ := h
  · exact ⟨{ s with output := ⟨none, ck, []⟩ }, c, rfl, rfl, rfl⟩
  · exact ⟨{ withStatus d s with regs := { s.regs with ctrlEn := en, rfsGen := g }, output := ⟨none, none, es⟩ }, .ok,
      rfl, rfl, rfl⟩

theorem setup_finishedFrom {p : InitParams} {s t : State} (h : exec (.setup p) s = .next t) : FinishedFrom s t := by
  obtain ⟨_, ⟨c, _, rfl⟩ | ⟨v, _, ⟨_, rfl⟩ | ⟨_, u, hu, rfl | ⟨c, _, rfl⟩⟩⟩⟩ := setup_cases h
  · exact ⟨_, c, rfl, rfl, rfl⟩
  · exact ⟨_, _, rfl, rfl, rfl⟩
  · exact ⟨_, _, rfl, hu.halted, hu.params⟩
  · exact ⟨u, c, rfl, hu.halted, hu.params⟩

theorem update_finishedFrom {u : UpdateParams} {s t : State} (h : exec (.updateTables u) s = .next t) :
    FinishedFrom s t := by
  obtain ⟨_, ⟨_, rfl⟩ | ⟨_, ⟨c, _, rfl⟩ | ⟨t0, t1, _, _, hrun⟩⟩⟩ := update_cases h
  · exact ⟨s.beginCommand, _, rfl, rfl, rfl⟩
  · exact ⟨s.beginCommand, c, rfl, rfl, rfl⟩
  · have hprep := updatePrepare_halted (t0 :: t1.toList) s.beginCommand
    have hpar := updatePrepare_params (t0 :: t1.toList) s.beginCommand
    obtain ⟨w, x, hw, hx, rfl⟩ | ⟨c, w, _, hw, rfl⟩ := hrun
    · exact ⟨_, _, rfl, hx.halted.trans (hw.halted.trans hprep), hx.params.trans (hw.params.trans hpar)⟩
    · exact ⟨w, c, rfl, hw.halted.trans hprep, hw.params.trans hpar⟩

theorem exec_finishedFrom {i : Instr} {s t : State} (h : exec i s = .next t) : FinishedFrom s t := by
  obtain ⟨p, rfl⟩ | ⟨u, rfl⟩ | hends := exec_cases h
  · exact setup_finishedFrom h
  · exact update_finishedFrom h
  · exact hends.finishedFrom

/-- Settles O7: a command halts the block where it ends, and only there. -/
theorem haltOnErrorStopsTheBlock : Obligations.HaltOnErrorStopsTheBlock := by
  refine ⟨fun i s t c h hstatus => ?_, fun s hhalted => if_pos hhalted, rfl⟩
  obtain ⟨u, d, rfl, hhalted, hparams⟩ := exec_finishedFrom h
  cases hstatus
  have herror : isErrorStatus c = decide (c ≠ .ok ∧ c ≠ .drvRunning) :=
    Bool.eq_iff_iff.2 ((isErrorStatus_iff c).trans decide_eq_true_iff.symm)
  rw [State.finish_halted, hhalted, hparams, herror]

/-! ### The configuration (R354, R410) -/

/-- `r` with the fields that SETUP alone programs as they are in `old`. -/
def withConfiguration (old r : RegImage) : RegImage :=
  { r with
    mode := old.mode, slvRfsSrc := old.slvRfsSrc, slvRcsSrc := old.slvRcsSrc, slvDelay := old.slvDelay
    slvCsi2Unit := old.slvCsi2Unit, slvCsi2Vc := old.slvCsi2Vc, repeatCount := old.repeatCount
    timingMode := old.timingMode, irqEn := old.irqEn, clkDiv := old.clkDiv, clkSel := old.clkSel, ctrlRst := old.ctrlRst }

/-- What SETUP configured in `s` is still there in `t`, and no reset pulse came between. -/
structure KeepsConfiguration (s t : State) : Prop where
  regs : t.regs = withConfiguration s.regs t.regs
  drv : t.drv = { s.drv with status := t.drv.status, mainClockDivider := t.drv.mainClockDivider }
  draws : t.draws = s.draws

namespace KeepsConfiguration

variable {s t u : State}

theorem refl (s : State) : KeepsConfiguration s s := ⟨rfl, rfl, rfl⟩

theorem trans (h : KeepsConfiguration s t) (k : KeepsConfiguration t u) : KeepsConfiguration s u where
  regs := k.regs.trans (congrArg (withConfiguration · u.regs) h.regs :)
  drv := by rw [k.drv, h.drv]
  draws := k.draws.trans h.draws

theorem snapshotChecksum (h : KeepsConfiguration s t) : KeepsConfiguration s t.snapshotChecksum :=
  ⟨h.regs, h.drv, h.draws⟩

theorem finish (h : KeepsConfiguration s t) (c : Status) : KeepsConfiguration s (t.finish c) := ⟨h.regs, h.drv, h.draws⟩

theorem setStatus (h : KeepsConfiguration s t) (d : DrvStatus) : KeepsConfiguration s (t.setStatus d) :=
  h.trans ⟨rfl, rfl, rfl⟩

end KeepsConfiguration

/-- The fields UPDATE_TABLES programs are none of the configuration's. -/
theorem Writes.keepsConfiguration {s t : State} (h : Writes isUpdateField s t) : KeepsConfiguration s t where
  regs := by
    rw [withConfiguration, ← h.mode id, ← h.slvRfsSrc id, ← h.slvRcsSrc id, ← h.slvDelay id, ← h.slvCsi2Unit id,
      ← h.slvCsi2Vc id, ← h.repeatCount id, ← h.timingMode id, ← h.irqEn id, ← h.clkDiv (fun _ => id),
      ← h.clkSel (fun _ => id), ← h.ctrlRst id]
  drv := by rw [h.drv]
  draws := h.draws

theorem isLutField_isUpdateField (f : RegField) (h : isLutField f) : isUpdateField f := by
  cases f with
  | lutLsb => trivial
  | lutMsb => trivial
  | _ => exact h.elim

theorem updatePrepare_keepsConfiguration (T : List CheckedTable) (s : State) :
    KeepsConfiguration s (updatePrepare T s.beginCommand) where
  regs := by rw [updatePrepare_regs]; rfl
  drv := by rw [updatePrepare_drv]; rfl
  draws := updatePrepare_draws T s.beginCommand

theorem ControlEnds.keepsConfiguration {s t : State} (h : ControlEnds s t) : KeepsConfiguration s t := by
  obtain ⟨c, ck, rfl⟩ | ⟨es, d, en, g, rfl⟩ := h
  · exact ⟨rfl, rfl, rfl⟩
  · exact ⟨rfl, rfl, rfl⟩

theorem update_keepsConfiguration {u : UpdateParams} {s t : State} (h : exec (.updateTables u) s = .next t) :
    KeepsConfiguration s t := by
  obtain ⟨_, ⟨_, rfl⟩ | ⟨_, ⟨c, _, rfl⟩ | ⟨t0, t1, _, _, hrun⟩⟩⟩ := update_cases h
  · exact ⟨rfl, rfl, rfl⟩
  · exact ⟨rfl, rfl, rfl⟩
  · have hprep := updatePrepare_keepsConfiguration (t0 :: t1.toList) s
    obtain ⟨w, x, hw, hx, rfl⟩ | ⟨c, w, _, hw, rfl⟩ := hrun
    · have hlut := hprep.trans (hw.mono isLutField_isUpdateField).keepsConfiguration
      exact ((hlut.snapshotChecksum.trans hx.keepsConfiguration).setStatus _).finish _
    · exact (hprep.trans (hw.mono isLutField_isUpdateField).keepsConfiguration).finish c

/-- Settles O18: the five commands change the engine's fields only, and UPDATE_TABLES what it programs. -/
theorem onlySetupChangesTheConfiguration : Obligations.OnlySetupChangesTheConfiguration := by
  intro i s t hnotSetup h
  have hkeeps : KeepsConfiguration s t := by
    obtain ⟨p, rfl⟩ | ⟨u, rfl⟩ | hends := exec_cases h
    · exact absurd rfl (hnotSetup p)
    · exact update_keepsConfiguration h
    · exact hends.keepsConfiguration
  exact ⟨hkeeps.regs, hkeeps.drv, hkeeps.draws⟩

end Sys2Proof.Machine
end
